-- ==== Sys2Proof/Word.lean ====
section
/-! DEFINITION. The machine's plain data words: a stream byte, a storage word, a 64-bit argument. -/

namespace Sys2Proof

/-- One byte of the stream (20_memory.md R41). -/
abbrev Byte := BitVec 8

/-- The storage of one `W`-bit word (00_scope.md R6). `W` is 32 or 64 and is a parameter of the machine, so one
64-bit vector holds the word in its `W` least significant bits and the bits above are zero: `Safety.lean`'s
invariant says so, and every operation keeps it. -/
abbrev Word := BitVec 64

/-- A 64-bit operand or datum: the `arg` of a command, the `data` of a response, the `a` of a byte-source request
(30_encoding.md R61, R67, R69). -/
abbrev Arg := BitVec 64

end Sys2Proof
end

