-- ==== Sys2Proof/Syntax.lean ====
section
/-! DEFINITION. The words of the reader's two ports as one inductive: a constructor per row of
spec/opcode_table.json (30_encoding.md R61 to R69). -/

namespace Sys2Proof

/-- The two ports a word travels on (20_memory.md R40, 30_encoding.md R61, R69). -/
inductive Port where
  /-- from the host to the reader: 67-bit command words -/
  | command
  /-- from the reader to the byte source: 65-bit request words -/
  | source
deriving DecidableEq, Repr

/-- The width of a port's word in bits (R61, R69). -/
def Port.width : Port → Nat
  | .command => 67
  | .source  => 65

/-- One word of a port. `arg` is kept whole, also where it is ignored, so that no bit of an encoding is lost. -/
inductive Instr where
  /-- RDU, read `width` bits unsigned (44_commands.md R171) -/
  | rdu (width : Arg)
  /-- RDS, read `width` bits signed (R172) -/
  | rds (width : Arg)
  /-- SKB, seek `count` bits forward (R173) -/
  | skb (count : Arg)
  /-- POS, current byte position (R174) -/
  | pos (ignored : Arg)
  /-- RSY, resynchronise at byte `position` (R175) -/
  | rsy (position : Arg)
  /-- RSVD5, reserved operation code 5 (R176) -/
  | rsvd5 (ignored : Arg)
  /-- RSVD6, reserved operation code 6 (R176) -/
  | rsvd6 (ignored : Arg)
  /-- RSVD7, reserved operation code 7 (R176) -/
  | rsvd7 (ignored : Arg)
  /-- SRC.RD, the byte-source request to read at most `max` bytes (20_memory.md R41) -/
  | srcRd (max : Arg)
  /-- SRC.SK, the byte-source request to seek by the two's-complement `offset` (20_memory.md R42) -/
  | srcSk (offset : Arg)
deriving DecidableEq, Repr

/-- The port the word travels on. -/
def Instr.port : Instr → Port
  | .rdu _ => .command
  | .rds _ => .command
  | .skb _ => .command
  | .pos _ => .command
  | .rsy _ => .command
  | .rsvd5 _ => .command
  | .rsvd6 _ => .command
  | .rsvd7 _ => .command
  | .srcRd _ => .source
  | .srcSk _ => .source

end Sys2Proof
end

