-- ==== Sys2Proof/Decode.lean ====
section
/-! DEFINITION. The decoder of both ports' words, total, and the encoders (30_encoding.md R61, R62, R69, R71). -/

namespace Sys2Proof

/-- Why a number is no word of a port. -/
inductive DecodeError where
  /-- more than the 67 bits of a command word (R61) -/
  | commandTooWide
  /-- more than the 65 bits of a request word (R69) -/
  | requestTooWide
deriving DecidableEq, Repr

/-- What the decoder answers. -/
inductive Decoded where
  | instr (i : Instr)
  | rejected (e : DecodeError)
deriving DecidableEq, Repr

/-- The instruction, where there is one. -/
def Decoded.toOption : Decoded → Option Instr
  | .instr i => some i
  | .rejected _ => none

/-- The field `op = cmd[66:64]` (R61). -/
def opField (cmd : BitVec 67) : Nat := (cmd.extractLsb' 64 3).toNat

/-- The field `arg = cmd[63:0]` (R61). -/
def argField (cmd : BitVec 67) : Arg := cmd.extractLsb' 0 64

/-- Decodes a command word (R62, R66): every one of the 2^67 words is a command. -/
def decodeCommand (cmd : BitVec 67) : Instr :=
  match opField cmd with
  | 0 => .rdu (argField cmd)
  | 1 => .rds (argField cmd)
  | 2 => .skb (argField cmd)
  | 3 => .pos (argField cmd)
  | 4 => .rsy (argField cmd)
  | 5 => .rsvd5 (argField cmd)
  | 6 => .rsvd6 (argField cmd)
  | _ => .rsvd7 (argField cmd)

/-- Decodes a byte-source request word (R69): `kind = req[64]`, `a = req[63:0]`. -/
def decodeRequest (req : BitVec 65) : Instr :=
  if req.getLsbD 64 then .srcSk (req.extractLsb' 0 64) else .srcRd (req.extractLsb' 0 64)

/-- Decodes any number as a word of a port; a number with a bit above the port's word is rejected by name. -/
def decodeWord (port : Port) (n : Nat) : Decoded :=
  match port with
  | .command => if n < 2 ^ 67 then .instr (decodeCommand (BitVec.ofNat 67 n)) else .rejected .commandTooWide
  | .source  => if n < 2 ^ 65 then .instr (decodeRequest (BitVec.ofNat 65 n)) else .rejected .requestTooWide

/-- The port a row of spec/opcode_table.json belongs to, by the row's width: 65 bits is a request, anything else a
command. A width given in whole bytes is 72 for both and is read as a command (notes/assumptions/8.md). -/
def tablePort (nbits : Nat) : Port := if nbits = 65 then .source else .command

/-- The instruction the decoder reads from a table row's word. -/
def decodeTableWord (nbits w : Nat) : Option Instr := (decodeWord (tablePort nbits) w).toOption

/-! Encoders. -/

/-- `{op, arg}` (R61). -/
def commandWord (op : BitVec 3) (arg : Arg) : BitVec 67 := op ++ arg

/-- `{kind, a}` (R69). -/
def requestWord (kind : BitVec 1) (a : Arg) : BitVec 65 := kind ++ a

/-- The word of an instruction on its own port, as a number (R62, R69, R71). -/
def encode : Instr → Nat
  | .rdu n => (commandWord 0 n).toNat
  | .rds n => (commandWord 1 n).toNat
  | .skb n => (commandWord 2 n).toNat
  | .pos a => (commandWord 3 a).toNat
  | .rsy p => (commandWord 4 p).toNat
  | .rsvd5 a => (commandWord 5 a).toNat
  | .rsvd6 a => (commandWord 6 a).toNat
  | .rsvd7 a => (commandWord 7 a).toNat
  | .srcRd m => (requestWord 0 m).toNat
  | .srcSk o => (requestWord 1 o).toNat

end Sys2Proof
end

