-- ==== Sys2Proof/Config.lean ====
section
/-! DEFINITION. The implementation parameters of the reader (00_scope.md R6 to R8) and the free values: what the
spec leaves arbitrary (93_implementation_defined.md U5, U7, U8). -/

namespace Sys2Proof

/-- The two legal word widths (R6). -/
inductive WordWidth where
  | w32
  | w64
deriving DecidableEq, Repr

/-- The width in bits. -/
def WordWidth.bits : WordWidth → Nat
  | .w32 => 32
  | .w64 => 64

/-- The parameters of one reader: `W`, `L2_BYTES`, `LANE_LITTLE` (R6, R7, R8). They are fixed before reset and no
command reads or writes them (10_state.md R29 b). -/
structure Params where
  width      : WordWidth
  l2Bytes    : Nat
  laneLittle : Bool
deriving DecidableEq, Repr

namespace Params

/-- `W` (R6). -/
def w (p : Params) : Nat := p.width.bits

/-- `WB = W / 8` (R6). -/
def wb (p : Params) : Nat := p.w / 8

/-- `L2_LINE_COUNT = L2_BYTES / WB` (R7). -/
def lineCount (p : Params) : Nat := p.l2Bytes / p.wb

/-- `L2_BYTES` is a positive multiple of `WB` (R7), and it fits the 64 bits of a read request (30_encoding.md R69;
DEDUCED, notes/assumptions/3.md). -/
abbrev wf (p : Params) : Prop := 0 < p.l2Bytes ∧ p.l2Bytes % p.wb = 0 ∧ p.l2Bytes < 2 ^ 64

end Params

namespace Config

/-- The parameters `State.reset` is built with: `L2_BYTES = 4096` and `LANE_LITTLE = true` are the spec's defaults
(00_scope.md R8); `W = 32` is a DESIGN CHOICE, for the spec gives `W` no default (notes/assumptions/2.md). Every
claim of the package is about all parameters, not these. -/
def defaultParams : Params := { width := .w32, l2Bytes := 4096, laneLittle := true }

/-- A free value: a byte slot the spec calls arbitrary (42_l2_buffer.md R132; notes/assumptions/6.md). -/
opaque freeByte : Nat → Byte

/-- A free value: a `W`-bit register or line the spec calls arbitrary (R125, R135; notes/assumptions/6.md). -/
opaque freeWord : Nat → Word

/-- A free value: a counter the spec calls unspecified (R135; notes/assumptions/6.md). -/
opaque freeCounter : Nat → Nat

/-- A free value: a stream position the spec calls unspecified (R135; notes/assumptions/6.md). -/
opaque freePosition : Nat → BitVec 64

end Config
end Sys2Proof
end

