-- ==== Sys2Proof/Machine/BitExtract.lean ====
section
/-! DEFINITION. The sub-block `bit_extract_and_mask`: the pure functions of 40_bit_extract_and_mask.md, on `W`-bit
words (`w` is `W`), and the byte layout of a line (20_memory.md R45). -/

namespace Sys2Proof.Machine

/-- `shl_W(x, k) = (x * 2^k) mod 2^W` (00_scope.md R12). -/
def shlW (w : Nat) (x : Word) (k : Nat) : Word := BitVec.ofNat 64 (x.toNat * 2 ^ k % 2 ^ w)

/-- `shr_W(x, k) = x div 2^k` (R12). -/
def shrW (x : Word) (k : Nat) : Word := BitVec.ofNat 64 (x.toNat / 2 ^ k)

/-- `SELMASK(n)` (R80). -/
def selMask (w n : Nat) : Word := shlW w (BitVec.ofNat 64 (2 ^ n - 1)) (w - n)

/-- `PEEK(c, n)` (R81). -/
def peek (w : Nat) (c : Word) (n : Nat) : Word := shrW (c &&& selMask w n) (w - n)

/-- `DROP(c, n)` (R82). -/
def dropBits (w : Nat) (c : Word) (n : Nat) : Word := shlW w c n

/-- The `n` least significant bytes of `x`, the least significant first. -/
def bytesLE : Nat → Nat → List Byte
  | 0, _ => []
  | n + 1, x => BitVec.ofNat 8 x :: bytesLE n (x / 256)

/-- The number whose bytes these are, the least significant first. -/
def ofBytesLE : List Byte → Nat
  | [] => 0
  | b :: bs => b.toNat + 256 * ofBytesLE bs

/-- The number whose bytes these are, the most significant first. -/
def ofBytesBE (bs : List Byte) : Nat := ofBytesLE bs.reverse

/-- The storage word of a line whose byte slots are `bs`, slot 0 first (20_memory.md R45). -/
def lineOfSlots (p : Params) (bs : List Byte) : Word :=
  BitVec.ofNat 64 (if p.laneLittle then ofBytesLE bs else ofBytesBE bs)

/-- The byte slots of a stored line, slot 0 first (R45). -/
def lineSlots (p : Params) (x : Word) : List Byte :=
  if p.laneLittle then bytesLE p.wb x.toNat else (bytesLE p.wb x.toNat).reverse

/-- The byte swap of a `wb`-byte word: byte `j` goes to byte `wb - 1 - j` (R83). -/
def byteSwap (wb : Nat) (x : Word) : Word := BitVec.ofNat 64 (ofBytesBE (bytesLE wb x.toNat))

/-- `BE_NORM(x)` (R83): a byte swap when `LANE_LITTLE`, else the identity. -/
def beNorm (p : Params) (x : Word) : Word := if p.laneLittle then byteSwap p.wb x else x

/-- `TAILMASK(c, cb)` (R84). -/
def tailMask (w : Nat) (c : Word) (cb : Nat) : Word := c &&& selMask w (w - cb)

/-- `COMBINE(hiBits, loBits, loWidth)` (R85). -/
def combine (hiBits loBits : Arg) (loWidth : Nat) : Arg := (hiBits <<< loWidth) ||| loBits

/-- `SEXT(v, n)` (R86, 90_conflicts.md C3): bits `n` to 63 are set when bit `n - 1` is. -/
def sext (v : Arg) (n : Nat) : Arg :=
  if v.getLsbD (n - 1) then v ||| (BitVec.allOnes 64 <<< n) else v

end Sys2Proof.Machine
end

