-- ==== Sys2Proof/Machine/State.lean ====
section
/-! DEFINITION. The machine's state as plain data: the reader's seven state elements (10_state.md), its parameters,
the byte source at its far port, the inputs the outside gives it, and the observable trace (00_scope.md R10). -/

namespace Sys2Proof.Machine

/-- The status codes of a response (30_encoding.md R68). -/
inductive Status where
  | ok
  | fail
  | invalid
  | fault
deriving DecidableEq, Repr

/-- A response: status and data (30_encoding.md R67). -/
structure Response where
  status : Status
  data   : Arg
deriving DecidableEq, Repr

/-- A byte-source transaction with its argument and its answer (20_memory.md R41, R42, R70). -/
inductive Transaction where
  /-- `SrcRead(max)` answered with these bytes, in stream order -/
  | read (max : Arg) (bytes : List Byte)
  /-- `SrcSeek(offset)` answered ok or refused -/
  | seek (offset : Arg) (ok : Bool)
deriving DecidableEq, Repr

/-- What an observer sees (00_scope.md R10). -/
inductive Event where
  /-- a byte-source transaction -/
  | transaction (t : Transaction)
  /-- a command with the response it got -/
  | response (cmd : Instr) (rsp : Response)
deriving DecidableEq, Repr

/-- The byte source at the reader's far port: an agent of its own (00_scope.md R9), held so that a run is
determined by plain data (notes/assumptions/4.md). -/
inductive ByteSource where
  /-- the reference byte source `MemSource(data)` with its cursor (20_memory.md R52) -/
  | mem (data : List Byte) (cursor : Nat)
  /-- any byte source whatever, by the answers it will give: the bytes of its coming reads and the ok bits of its
  coming seeks; with no answer left it never answers (20_memory.md R50) -/
  | scripted (reads : List (List Byte)) (seeks : List Bool)
deriving DecidableEq, Repr

/-- What the outside does to the machine, one input a step (00_scope.md R9). -/
inductive Input where
  /-- the host issues a command word (30_encoding.md R61) -/
  | command (word : BitVec 67)
  /-- a request word stands alone on the byte-source port (30_encoding.md R69; notes/assumptions/7.md) -/
  | request (word : BitVec 65)
  /-- reset between two commands (70_reset_and_hazards.md R220) -/
  | reset
  /-- reset while the command `word` is in progress (R223): the transactions it had issued by then and the byte
  source as it then stands are whatever they are -/
  | resetDuring (word : BitVec 67) (issued : List Transaction) (source : ByteSource)
  /-- the host, or anything else but the reader, reads, moves or changes the byte source (R226) -/
  | touchSource (source : ByteSource)
deriving DecidableEq, Repr

/-- The machine. -/
structure State where
  /-- `W`, `L2_BYTES`, `LANE_LITTLE`: parameters of the reader, changed by nothing (R29 b) -/
  params         : Params
  /-- the L1 register (R20) -/
  cache          : Word
  /-- bits already taken from `cache` (R21) -/
  consumedBits   : Nat
  /-- the L2 buffer, `L2_LINE_COUNT` words (R24) -/
  lines          : List Word
  /-- the next line to promote (R25) -/
  nextLine       : Nat
  /-- leading lines without fresh data (R26) -/
  unusedLines    : Nat
  /-- the byte source's cursor as the reader tracks it (R27) -/
  currentBytePos : BitVec 64
  /-- the sticky fault flag (R28) -/
  fault          : Bool
  /-- the byte source (an agent outside the reader) -/
  source         : ByteSource
  /-- what the outside will do next, oldest first (the host's commands among it) -/
  inbox          : List Input
  /-- what has been observed, oldest first (R10) -/
  trace          : List Event
  /-- the model's own: how many free values have been taken (notes/assumptions/6.md) -/
  freeCount      : Nat
deriving DecidableEq, Repr

/-- Why the machine stops. -/
inductive Fault where
  /-- The byte source never answers a request, so the command never completes: stuck (20_memory.md R50,
  93_implementation_defined.md U12). Raised by `srcRead` and `srcSeek`. Safe. -/
  | sourceNeverAnswers
deriving DecidableEq, Repr

/-- Why a run has no meaning. -/
inductive Refusal where
  /-- The instruction has no meaning yet. No arm of `exec` answers it. Safe. -/
  | notModelled (mnemonic : String)
  /-- The byte source answered more bytes than it was asked for: the spec has a model refuse the run
  (20_memory.md R53, 93_implementation_defined.md U11). Raised by `srcRead`. Safe. -/
  | answerTooLong
deriving DecidableEq, Repr

/-- What one step answers. -/
abbrev StepResult := Host.Outcome State Fault Refusal

/-- The machine right after reset, for any parameters and any byte source bound to it (10_state.md R30,
70_reset_and_hazards.md R220, R222). -/
def State.resetWith (p : Params) (src : ByteSource) : State where
  params         := p
  cache          := 0
  consumedBits   := p.w
  lines          := List.replicate p.lineCount 0
  nextLine       := p.lineCount
  unusedLines    := 0
  currentBytePos := 0
  fault          := false
  source         := src
  inbox          := []
  trace          := []
  freeCount      := 0

/-- The machine right after reset with the parameters of `Config.defaultParams` and an empty reference byte source
(notes/assumptions/2.md, notes/assumptions/4.md). -/
def State.reset : State := State.resetWith Config.defaultParams (.mem [] 0)

end Sys2Proof.Machine
end

