-- ==== Sys2Proof/Machine/Ops.lean ====
section
/-! DEFINITION. The shared operations: how an internal operation ends, the byte-source transactions, raising Fault
and resynchronising after it, responding, and what the outside does. -/

namespace Sys2Proof.Machine

/-- How an internal operation ends (00_scope.md R12): with a value, with fail, by `raise Fault`, or by a stop of the
whole machine (a byte source that never answers, a run without meaning). -/
inductive Res (α : Type) where
  | ok (a : α) (s : State)
  | fail (s : State)
  | raised (s : State)
  | stop (f : Fault)
  | refuse (r : Refusal)
deriving DecidableEq, Repr

/-- Goes on after an ok; every other end is the end of the whole. -/
def Res.bind {α β : Type} (r : Res α) (k : α → State → Res β) : Res β :=
  match r with
  | .ok a s => k a s
  | .fail s => .fail s
  | .raised s => .raised s
  | .stop f => .stop f
  | .refuse x => .refuse x

/-! The byte source (20_memory.md R41, R42, R52). -/

/-- The byte source's answer to `SrcRead(max)` and the byte source after it; none when it never answers. -/
def ByteSource.read (src : ByteSource) (max : Nat) : Option (List Byte × ByteSource) :=
  match src with
  | .mem data p =>
    let b := (data.drop p).take max
    some (b, .mem data (p + b.length))
  | .scripted [] _ => none
  | .scripted (b :: reads) seeks => some (b, .scripted reads seeks)

/-- The byte source's answer to `SrcSeek(off)` and the byte source after it; none when it never answers. A refused
seek leaves the cursor (R42, R52). -/
def ByteSource.seek (src : ByteSource) (off : Int) : Option (Bool × ByteSource) :=
  match src with
  | .mem data p =>
    if 0 ≤ (p : Int) + off ∧ (p : Int) + off ≤ data.length then some (true, .mem data ((p : Int) + off).toNat)
    else some (false, .mem data p)
  | .scripted _ [] => none
  | .scripted reads (ok :: seeks) => some (ok, .scripted reads seeks)

/-- Appends a transaction to the trace (R10). -/
def State.log (s : State) (t : Transaction) : State := { s with trace := s.trace ++ [.transaction t] }

/-- `SrcRead(max)`: the transaction and the position update of R54. An answer longer than asked is refused (R53). -/
def srcRead (max : Arg) (s : State) : Res (List Byte) :=
  match s.source.read max.toNat with
  | none => .stop .sourceNeverAnswers
  | some (b, src) =>
    if b.length ≤ max.toNat then
      .ok b ({ s with source := src, currentBytePos := s.currentBytePos + BitVec.ofNat 64 b.length }.log (.read max b))
    else .refuse .answerTooLong

/-- `SrcSeek(off)`, `off` in two's complement: the transaction and the position update of R54. The value is whether
the byte source accepted. -/
def srcSeek (off : Arg) (s : State) : Res Bool :=
  match s.source.seek off.toInt with
  | none => .stop .sourceNeverAnswers
  | some (true, src) =>
    .ok true ({ s with source := src, currentBytePos := s.currentBytePos + off }.log (.seek off true))
  | some (false, src) => .ok false ({ s with source := src }.log (.seek off false))

/-! Raising Fault, and what ends it (60_exceptions.md R204, R208). -/

/-- The bits a counter with the legal range 0 to `top` is stored in: `ceil(log2(top + 1))` (10_state.md R31). -/
def counterBits (top : Nat) : Nat := Nat.log2 top + 1

/-- An unspecified `W`-bit value. -/
def anyWord (p : Params) (i : Nat) : Word := BitVec.ofNat 64 ((Config.freeWord i).toNat % 2 ^ p.w)

/-- An unspecified value of a counter with the legal range 0 to `top`: anything its storage holds. -/
def anyCounter (top i : Nat) : Nat := Config.freeCounter i % 2 ^ counterBits top

/-- `raise Fault` (R204, R135): `fault` is set and every other state element of the reader becomes unspecified, each
a free value its register can hold. -/
def raiseFault (s : State) : State :=
  { s with
    cache          := anyWord s.params s.freeCount
    consumedBits   := anyCounter s.params.w s.freeCount
    lines          := (List.range s.params.lineCount).map fun i => anyWord s.params (s.freeCount + 1 + i)
    nextLine       := anyCounter s.params.lineCount (s.freeCount + 1)
    unusedLines    := anyCounter s.params.lineCount (s.freeCount + 2)
    currentBytePos := Config.freePosition s.freeCount
    fault          := true
    freeCount      := s.freeCount + 3 + s.params.lineCount }

/-- `CLEAR_L1` (41_l1_register.md R101). -/
def clearL1 (s : State) : State := { s with cache := 0, consumedBits := s.params.w }

/-- The effect of RSY (44_commands.md R175): the caches as after reset, the position from the host, the fault flag
cleared; `lines` stay. -/
def resync (p : Arg) (s : State) : State :=
  { clearL1 s with
    nextLine := s.params.lineCount, unusedLines := 0, currentBytePos := p, fault := false }

/-! Responses (30_encoding.md R67, R68). -/

/-- The status code (R68). -/
def Status.code : Status → BitVec 2
  | .ok => 0
  | .fail => 1
  | .invalid => 2
  | .fault => 3

/-- The 66-bit response word `{status, data}` (R67). -/
def Response.word (r : Response) : BitVec 66 := r.status.code ++ r.data

/-- Ends a command with its one response (R170). -/
def respond (cmd : Instr) (st : Status) (data : Arg) (s : State) : StepResult :=
  .next { s with trace := s.trace ++ [.response cmd { status := st, data := data }] }

/-- The response to an executed command, by how its execution ended (R68, R170): `data` is zero in every response
but OK. -/
def finish (cmd : Instr) (r : Res Arg) : StepResult :=
  match r with
  | .ok v s => respond cmd .ok v s
  | .fail s => respond cmd .fail 0 s
  | .raised s => respond cmd .fault 0 s
  | .stop f => .fault f
  | .refuse x => .refused x

/-! What the outside does. -/

/-- Reset between commands (R220): the reader's state elements at their reset values; the byte source and its cursor
are not touched. -/
def resetReader (s : State) : State :=
  { s with
    cache := 0, consumedBits := s.params.w, lines := List.replicate s.params.lineCount 0,
    nextLine := s.params.lineCount, unusedLines := 0, currentBytePos := 0, fault := false }

/-- Reset while a command is in progress (R223): the reader in the reset state, no response, and the byte source and
the transactions already issued as the input says. -/
def resetMidCommand (issued : List Transaction) (src : ByteSource) (s : State) : State :=
  { resetReader s with source := src, trace := s.trace ++ issued.map .transaction }

/-- Anything but the reader touches the byte source (R226): no state of the reader notices. -/
def touchSource (src : ByteSource) (s : State) : State := { s with source := src }

/-- A table row's word as an input of its port. -/
def tableInput (nbits w : Nat) : Input :=
  match tablePort nbits with
  | .command => .command (BitVec.ofNat 67 w)
  | .source  => .request (BitVec.ofNat 65 w)

end Sys2Proof.Machine
end

