-- ==== Sys2Proof/Machine/Operands.lean ====
section
/-! DEFINITION. The operands of commands: which values are legal (30_encoding.md R63 to R66) and what an illegal one
does (44_commands.md R170 step 2). -/

namespace Sys2Proof.Machine

/-- The width operand of RDU and RDS: all 64 bits are compared, none is dropped (R63). -/
def legalWidth (n : Arg) : Bool := decide (1 ≤ n.toNat ∧ n.toNat ≤ 64)

/-- The count operand of SKB (R64). -/
def legalCount (n : Arg) : Bool := decide (1 ≤ n.toNat)

end Sys2Proof.Machine
end

