-- ==== Sys2Proof/Machine/Flags.lean ====
section
/-! DEFINITION. The one flag, `fault` (10_state.md R28), and the order of a command's three steps
(44_commands.md R170, 60_exceptions.md R207): the flag, the operand, the execution. -/

namespace Sys2Proof.Machine

/-- Step 1 of R170: while `fault` is set the command is answered FAULT and nothing else happens. -/
def unlessFault (cmd : Instr) (s : State) (go : StepResult) : StepResult :=
  if s.fault then respond cmd .fault 0 s else go

/-- Steps 1 to 3 of R170 for a command whose operand is legal or not. -/
def runCommand (cmd : Instr) (legal : Bool) (body : State → Res Arg) (s : State) : StepResult :=
  unlessFault cmd s (if legal then finish cmd (body s) else respond cmd .invalid 0 s)

end Sys2Proof.Machine
end

