-- ==== Sys2Proof/Machine/Position.lean ====
section
/-! DEFINITION. The family of position commands: POS and RSY (44_commands.md R174, R175). -/

namespace Sys2Proof.Machine

/-- POS (R174): the byte source's cursor as the reader tracks it; every operand is legal. -/
def execPos (arg : Arg) (s : State) : StepResult :=
  runCommand (.pos arg) true (fun s => .ok s.currentBytePos s) s

/-- RSY (R175): accepted in the fault state too, and never fails. -/
def execRsy (p : Arg) (s : State) : StepResult := respond (.rsy p) .ok 0 (resync p s)

end Sys2Proof.Machine
end

