-- ==== Sys2Proof/Machine/L1.lean ====
section
/-! DEFINITION. The sub-block `bitstream_reader_l1_cache`: its elementary operations (41_l1_register.md R100, R102). -/

namespace Sys2Proof.Machine

/-- `rem = W - consumedBits`, the unread bits of the register (R21). -/
def State.rem (s : State) : Nat := s.params.w - s.consumedBits

/-- The consuming half of `TAKE(n)` (R100), which is also the in-register move of a seek (43_seek.md R152). -/
def consume (n : Nat) (s : State) : State :=
  { s with cache := dropBits s.params.w s.cache n, consumedBits := s.consumedBits + n }

/-- `TAKE(n) -> v` (R100). -/
def takeBits (n : Nat) (s : State) : Res Word := .ok (peek s.params.w s.cache n) (consume n s)

/-- `LOAD_L1(word, cb)` (R102). -/
def loadL1 (word : Word) (cb : Nat) (s : State) : State := { s with cache := word, consumedBits := cb }

end Sys2Proof.Machine
end

