-- ==== Sys2Proof/Machine/L2.lean ====
section
/-! DEFINITION. The sub-block `bitstream_reader_l2_buffer`: the line buffer, the refill and the reload cascade
(42_l2_buffer.md R120 to R135). -/

namespace Sys2Proof.Machine

/-- The canonical form of the L2 buffer, the one memory inside the reader (20_memory.md R40): exactly
`L2_LINE_COUNT` lines, each a `W`-bit word. Two buffers that hold the same words are then equal data. -/
abbrev Memory.wf (p : Params) (lines : List Word) : Prop :=
  lines.length = p.lineCount ∧ lines.all (fun l => decide (l.toNat < 2 ^ p.w)) = true

/-- The byte at buffer byte address `a` (20_memory.md R45). -/
def bufferByte (p : Params) (lines : List Word) (a : Nat) : Byte :=
  (lineSlots p (lines.getD (a / p.wb) 0)).getD (a % p.wb) 0

/-- Writes bytes to buffer byte addresses 0, 1, ..: address `a` is slot `a mod WB` of line `a div WB` (20_memory.md
R45); slots past the bytes keep their old content (R122). -/
def writeLines (p : Params) (bytes : List Byte) : List Word → List Word
  | [] => []
  | l :: ls =>
    if bytes.length = 0 then l :: ls
    else
      lineOfSlots p (bytes.take p.wb ++ (lineSlots p l).drop (bytes.take p.wb).length)
        :: writeLines p (bytes.drop p.wb) ls

/-- The line move of a partial fill (R125): for `i` from `aligned` down to 1, `lines[offset + i - 1] <- lines[i - 1]`. -/
def moveLines (offset : Nat) : Nat → List Word → List Word
  | 0, ls => ls
  | i + 1, ls => moveLines offset i (ls.set (offset + i) (ls.getD i 0))

/-- Lines 0 to `offset - 1` after a partial fill: leftovers, whose content is arbitrary (R125). -/
def forgetLines (p : Params) (offset free : Nat) (ls : List Word) : List Word :=
  (List.range offset).map (fun i => anyWord p (free + i)) ++ ls.drop offset

/-- `L2_POP` (R121): the next line, normalised, becomes the register. -/
def l2Pop (s : State) : State :=
  { loadL1 (beNorm s.params (s.lines.getD s.nextLine 0)) 0 s with nextLine := s.nextLine + 1 }

/-- The un-seek of R126 and R127: `SrcSeek(-t)`, omitted when `t = 0`; a refusal raises Fault (R135). -/
def unseek (t : Nat) (s : State) : Res Unit :=
  if t = 0 then .ok () s
  else (srcSeek (-(BitVec.ofNat 64 t)) s).bind fun accepted s' =>
    if accepted then .ok () s' else .raised (raiseFault s')

/-- The bytes of a bulk read arrive in the buffer (R122). -/
def fillBuffer (bytes : List Byte) (s : State) : State := { s with lines := writeLines s.params bytes s.lines }

/-- Sets `nextLine` and `unusedLines`, as every refill does (R123, R124, R127). -/
def setIndices (next unused : Nat) (s : State) : State := { s with nextLine := next, unusedLines := unused }

/-- The move of a partial fill with `aligned` whole words (R124, R125). -/
def packLines (aligned : Nat) (s : State) : State :=
  { setIndices (s.params.lineCount - aligned) (s.params.lineCount - aligned) s with
    lines := forgetLines s.params (s.params.lineCount - aligned) s.freeCount
      (moveLines (s.params.lineCount - aligned) aligned s.lines)
    freeCount := s.freeCount + (s.params.lineCount - aligned) }

/-- `L2_REFILL` (R122 to R127): one bulk read, then the full, the partial or the degenerate fill. -/
def l2Refill (s : State) : Res Unit :=
  (srcRead (BitVec.ofNat 64 s.params.l2Bytes) s).bind fun b s1 =>
    let s2 := fillBuffer b s1
    let aligned := b.length / s.params.wb
    if b.length = s.params.l2Bytes then .ok () (l2Pop (setIndices 0 0 s2))
    else if 1 ≤ aligned then
      (unseek (b.length % s.params.wb) (packLines aligned s2)).bind fun _ s3 => .ok () (l2Pop s3)
    else
      (unseek b.length s2).bind fun _ s3 => .fail (setIndices s.params.lineCount s.params.lineCount s3)

/-- `L2_LOAD`, the document's `reloadL1FromL2` (R121, R122). -/
def l2Load (s : State) : Res Unit :=
  if s.nextLine < s.params.lineCount then .ok () (l2Pop s) else l2Refill s

/-- The byte slots of a tail load that brought `bytes`: the others hold arbitrary leftovers (R132). -/
def tailSlots (p : Params) (bytes : List Byte) (free : Nat) : List Byte :=
  bytes ++ (List.range (p.wb - bytes.length)).map fun i => Config.freeByte (free + i)

/-- The register word of a tail load (R132): normalised, then its unfilled slots masked to zero. -/
def tailWord (p : Params) (bytes : List Byte) (free : Nat) : Word :=
  tailMask p.w (beNorm p (lineOfSlots p (tailSlots p bytes free))) ((p.wb - bytes.length) * 8)

/-- The bytes of a tail load become the register, the missing ones counted as already consumed (R132). -/
def loadTail (bytes : List Byte) (s : State) : State :=
  { loadL1 (tailWord s.params bytes s.freeCount) ((s.params.wb - bytes.length) * 8) s with
    freeCount := s.freeCount + (s.params.wb - bytes.length) }

/-- `L1_TAIL_LOAD` (R130 to R132). -/
def l1TailLoad (s : State) : Res Unit :=
  (srcRead (BitVec.ofNat 64 s.params.wb) s).bind fun b s1 =>
    if b.length = 0 then .fail s1 else .ok () (loadTail b s1)

/-- `RELOAD` (R120): the cascade. -/
def reload (s : State) : Res Unit :=
  match l2Load s with
  | .ok u s' => .ok u s'
  | .fail s' => l1TailLoad s'
  | .raised s' => .raised s'
  | .stop f => .stop f
  | .refuse x => .refuse x

end Sys2Proof.Machine
end

