-- ==== Sys2Proof/Machine/Read32.lean ====
section
/-! DEFINITION. `READ32`, the 32-bit read primitive (41_l1_register.md R103 to R107), and the read of 1 to 64 bits
(44_commands.md R171, R177). -/

namespace Sys2Proof.Machine

/-- The first step of `READ32` (R103): an exhausted register is reloaded. -/
def ensureBits (s : State) : Res Unit := if s.consumedBits = s.params.w then reload s else .ok () s

/-- The straddling path (R105) for `n` bits, `n > rem`. -/
def straddle (n : Nat) (s : State) : Res Word :=
  (reload s).bind fun _ s2 =>
    if s2.rem < n - s.rem then .fail s2
    else (takeBits (n - s.rem) s2).bind fun lo s3 => .ok (combine (peek s.params.w s.cache s.rem) lo (n - s.rem)) s3

/-- `READ32(n)` (R103 to R105). -/
def read32 (n : Nat) (s : State) : Res Word :=
  (ensureBits s).bind fun _ s1 => if n ≤ s1.rem then takeBits n s1 else straddle n s1

/-- The read of `n` bits, 1 to 64: wider than 32 it is two, the high half first (R171, R177). -/
def readBits (n : Nat) (s : State) : Res Arg :=
  if n ≤ 32 then read32 n s
  else (read32 (n - 32) s).bind fun h s1 => (read32 32 s1).bind fun l s2 => .ok (combine h l 32) s2

end Sys2Proof.Machine
end

