-- ==== Sys2Proof/Machine/Reads.lean ====
section
/-! DEFINITION. The family of reads: RDU and RDS (44_commands.md R171, R172, R177). -/

namespace Sys2Proof.Machine

/-- RDU (R171). -/
def execRdu (n : Arg) (s : State) : StepResult :=
  runCommand (.rdu n) (legalWidth n) (readBits n.toNat) s

/-- RDS (R172): the unsigned read, and the sign extension of a successful result. -/
def execRds (n : Arg) (s : State) : StepResult :=
  runCommand (.rds n) (legalWidth n)
    (fun s => (readBits n.toNat s).bind fun v s' => .ok (sext v n.toNat) s') s

end Sys2Proof.Machine
end

