-- ==== Sys2Proof/Machine/Reserved.lean ====
section
/-! DEFINITION. The reserved operation codes 5, 6 and 7 (44_commands.md R176): answered INVALID, or FAULT while the
fault flag is set. -/

namespace Sys2Proof.Machine

/-- A reserved code is an invalid request (R176, R170 step 2). -/
def rejectReserved (cmd : Instr) (s : State) : StepResult := unlessFault cmd s (respond cmd .invalid 0 s)

/-- RSVD5 (R176). -/
def execRsvd5 (arg : Arg) (s : State) : StepResult := rejectReserved (.rsvd5 arg) s

/-- RSVD6 (R176). -/
def execRsvd6 (arg : Arg) (s : State) : StepResult := rejectReserved (.rsvd6 arg) s

/-- RSVD7 (R176). -/
def execRsvd7 (arg : Arg) (s : State) : StepResult := rejectReserved (.rsvd7 arg) s

end Sys2Proof.Machine
end

