-- ==== Sys2Proof/Machine/SeekCalc.lean ====
section
/-! DEFINITION. The sub-block `bitstream_seek_address_calc`: SEEK_CALC and SEEK (43_seek.md R150 to R158). -/

namespace Sys2Proof.Machine

/-- What SEEK_CALC answers for a count beyond the register (R151). -/
structure SeekPlan where
  wholeLines : Nat
  residual   : Nat
  skipL2     : Nat
  srcBytes   : Nat
deriving DecidableEq, Repr

/-- `SEEK_CALC(n)` beyond the register (R151), where `n > rem`. -/
def seekCalc (n : Nat) (s : State) : SeekPlan :=
  let n2 := n - s.rem
  let wholeLines := n2 / s.params.w
  let avail := s.params.lineCount - s.nextLine
  let skipL2 := min wholeLines avail
  { wholeLines := wholeLines, residual := n2 % s.params.w, skipL2 := skipL2,
    srcBytes := (wholeLines - skipL2) * s.params.wb }

/-- The L1 and L2 part of the move (R153): the register is cleared and lines are skipped. -/
def skipLines (k : Nat) (s : State) : State := { clearL1 s with nextLine := s.nextLine + k }

/-- The move beyond the register up to the residual (R153 to R155): a byte-source seek, where one is needed, comes
first, and its refusal fails with nothing changed. -/
def seekWhole (plan : SeekPlan) (s : State) : Res Unit :=
  if plan.srcBytes = 0 then .ok () (skipLines plan.skipL2 s)
  else (srcSeek (BitVec.ofNat 64 plan.srcBytes) s).bind fun accepted s1 =>
    if accepted then .ok () (skipLines plan.skipL2 s1) else .fail s1

/-- SEEK with a bound on its nested calls (R152 to R157). The bound is never met: each nested call's operand is
smaller than the one before it (R157), and the outermost bound exceeds every nested operand. -/
def seekFuel : Nat → Nat → State → Res Unit
  | 0, _, s => .fail s
  | fuel + 1, n, s =>
    if n ≤ s.rem then .ok () (consume n s)
    else
      let plan := seekCalc n s
      (seekWhole plan s).bind fun _ s1 =>
        if plan.residual = 0 then .ok () s1
        else (reload s1).bind fun _ s2 => seekFuel fuel plan.residual s2

/-- `SEEK(n)` (R150): moves the cursor forward by `n` bits. -/
def seek (n : Nat) (s : State) : Res Unit := seekFuel (s.params.w + 1) n s

end Sys2Proof.Machine
end

