-- ==== Sys2Proof/Machine/Seeks.lean ====
section
/-! DEFINITION. The family of seeks: SKB (44_commands.md R173). -/

namespace Sys2Proof.Machine

/-- SKB (R173). -/
def execSkb (n : Arg) (s : State) : StepResult :=
  runCommand (.skb n) (legalCount n) (fun s => (seek n.toNat s).bind fun _ s' => .ok 0 s') s

end Sys2Proof.Machine
end

