-- ==== Sys2Proof/Machine/SourcePort.lean ====
section
/-! DEFINITION. The family of byte-source requests: SRC.RD and SRC.SK (20_memory.md R41, R42, R54). The reader issues
them inside commands, by `srcRead` and `srcSeek`; here one stands alone on the port (notes/assumptions/7.md). It is
no command: the fault flag does not bar it and no response answers it. -/

namespace Sys2Proof.Machine

/-- The end of a lone transaction: the answer stands in the trace. -/
def answered {α : Type} (r : Res α) : StepResult :=
  match r with
  | .ok _ s => .next s
  | .fail s => .next s
  | .raised s => .next s
  | .stop f => .fault f
  | .refuse x => .refused x

/-- SRC.RD (R41, R54). -/
def execSrcRd (max : Arg) (s : State) : StepResult := answered (srcRead max s)

/-- SRC.SK (R42, R54). -/
def execSrcSk (off : Arg) (s : State) : StepResult := answered (srcSeek off s)

end Sys2Proof.Machine
end

