-- ==== Sys2Proof/Machine/Dispatch.lean ====
section
/-! DEFINITION. One arm per constructor of Instr: the meaning of every word of both ports. -/

namespace Sys2Proof.Machine

/-- What an instruction does. -/
def exec (i : Instr) (s : State) : Host.Outcome State Fault Refusal :=
  match i with
  | .rdu n => Sys2Proof.Machine.execRdu n s
  | .rds n => Sys2Proof.Machine.execRds n s
  | .skb n => Sys2Proof.Machine.execSkb n s
  | .pos a => Sys2Proof.Machine.execPos a s
  | .rsy p => Sys2Proof.Machine.execRsy p s
  | .rsvd5 a => Sys2Proof.Machine.execRsvd5 a s
  | .rsvd6 a => Sys2Proof.Machine.execRsvd6 a s
  | .rsvd7 a => Sys2Proof.Machine.execRsvd7 a s
  | .srcRd m => Sys2Proof.Machine.execSrcRd m s
  | .srcSk o => Sys2Proof.Machine.execSrcSk o s

end Sys2Proof.Machine
end

