-- ==== Sys2Proof/Machine/Step.lean ====
section
/-! DEFINITION. One step: the machine takes the oldest input and does what it says. A command runs from start to
response in one step (00_scope.md R9, 20_memory.md R49). -/

namespace Sys2Proof.Machine

/-- The machine with its oldest input taken off. -/
def State.withInbox (s : State) (rest : List Input) : State := { s with inbox := rest }

/-- One step. With no input the reader is idle and keeps all state (60_exceptions.md R211). -/
def step (s : State) : Host.Outcome State Fault Refusal :=
  match s.inbox with
  | [] => .next s
  | .command cmd :: rest => exec (decodeCommand cmd) (s.withInbox rest)
  | .request req :: rest => exec (decodeRequest req) (s.withInbox rest)
  | .reset :: rest => .next (resetReader (s.withInbox rest))
  | .resetDuring _ issued src :: rest => .next (resetMidCommand issued src (s.withInbox rest))
  | .touchSource src :: rest => .next (touchSource src (s.withInbox rest))

/-- The machine whose next input is this word of the opcode table. -/
def State.withFetchWord (s : State) (nbits w : Nat) : State := s.withInbox (tableInput nbits w :: s.inbox)

end Sys2Proof.Machine
end

