-- ==== Sys2Proof/Machine/RefillFsm.lean ====
section
/-! DEFINITION. The reload cascade as the finite-state machine of 42_l2_buffer.md R137, one byte-source transaction
in each waiting phase. It is a second description of `reload`, which alone the commands use. -/

namespace Sys2Proof.Machine

/-- The phases of R137, each with what it must remember. -/
inductive RefillPhase where
  | idle
  | pop
  | bulkRd
  | move (aligned t : Nat)
  | unseekP (t : Nat)
  | unseekD (k : Nat)
  | tailRd
  | doneOk
  | doneFail
  | faulted
deriving DecidableEq, Repr

/-- A degenerate fill leaves L2 exhausted (R127). -/
def exhaustL2 (s : State) : State := setIndices s.params.lineCount s.params.lineCount s

/-- One transition of R137. -/
def refillPhaseStep (ph : RefillPhase) (s : State) : Res RefillPhase :=
  match ph with
  | .idle => .ok (if s.nextLine < s.params.lineCount then .pop else .bulkRd) s
  | .pop => .ok .doneOk (l2Pop s)
  | .bulkRd =>
    (srcRead (BitVec.ofNat 64 s.params.l2Bytes) s).bind fun b s1 =>
      let s2 := fillBuffer b s1
      let aligned := b.length / s.params.wb
      if b.length = s.params.l2Bytes then .ok .pop (setIndices 0 0 s2)
      else if 1 ≤ aligned then .ok (.move aligned (b.length % s.params.wb)) s2
      else if 1 ≤ b.length then .ok (.unseekD b.length) s2
      else .ok .tailRd (exhaustL2 s2)
  | .move aligned t => .ok (if 1 ≤ t then .unseekP t else .pop) (packLines aligned s)
  | .unseekP t =>
    (srcSeek (-(BitVec.ofNat 64 t)) s).bind fun accepted s1 =>
      if accepted then .ok .pop s1 else .ok .faulted (raiseFault s1)
  | .unseekD k =>
    (srcSeek (-(BitVec.ofNat 64 k)) s).bind fun accepted s1 =>
      if accepted then .ok .tailRd (exhaustL2 s1) else .ok .faulted (raiseFault s1)
  | .tailRd =>
    (srcRead (BitVec.ofNat 64 s.params.wb) s).bind fun b s1 =>
      if b.length = 0 then .ok .doneFail s1 else .ok .doneOk (loadTail b s1)
  | .doneOk => .ok .doneOk s
  | .doneFail => .ok .doneFail s
  | .faulted => .ok .faulted s

/-- Runs the phases, at most `fuel` transitions; a run that is not done by then fails (`refillFsm` never meets it). -/
def refillRun : Nat → RefillPhase → State → Res Unit
  | 0, ph, s =>
    match ph with
    | .doneOk => .ok () s
    | .faulted => .raised s
    | _ => .fail s
  | fuel + 1, ph, s => (refillPhaseStep ph s).bind (refillRun fuel)

/-- The machine of R137 from `IDLE`: the longest path has five transitions. -/
def refillFsm (s : State) : Res Unit := refillRun 5 .idle s

end Sys2Proof.Machine
end

