-- ==== Sys2Proof/WellFormed.lean ====
section
/-! DEFINITION. Which words are legal: 30_encoding.md R63 to R66 for commands, 20_memory.md R43 for the requests
the reader issues. A command that is not legal is still a command with a meaning (INVALID). -/

namespace Sys2Proof

/-- The offsets a seek request of the reader may carry (20_memory.md R43): an un-seek by 1 to `WB - 1` bytes back,
or a forward seek by a positive multiple of `WB`. -/
def legalOffset (p : Params) (off : Arg) : Bool :=
  decide ((-(p.wb : Int) < off.toInt ∧ off.toInt < 0) ∨ (0 < off.toInt ∧ off.toInt % p.wb = 0))

/-- A legal word of a reader with parameters `p`. -/
def Instr.wellFormed (p : Params) : Instr → Bool
  | .rdu n => decide (1 ≤ n.toNat ∧ n.toNat ≤ 64)
  | .rds n => decide (1 ≤ n.toNat ∧ n.toNat ≤ 64)
  | .skb n => decide (1 ≤ n.toNat)
  | .pos _ => true
  | .rsy _ => true
  | .rsvd5 _ => false
  | .rsvd6 _ => false
  | .rsvd7 _ => false
  | .srcRd max => decide (max.toNat = p.l2Bytes ∨ max.toNat = p.wb)
  | .srcSk off => legalOffset p off

end Sys2Proof
end

