-- ==== Sys2Proof/Safety.lean ====
section
/-! DEFINITION. The terms claims are stated in: the invariants of 10_state.md R22 and R31, the derived cursor of R32,
the stream as a bit string (20_memory.md R44), a reader in step with a reference byte source, and what cannot be
told apart from outside. -/

namespace Sys2Proof.Machine

/-- The zero-tail invariant (R22): the `consumedBits` least significant bits of `cache` are zero. -/
abbrev State.zeroTail (s : State) : Prop := ∀ i < s.consumedBits, s.cache.getLsbD i = false

/-- The invariant of the reader: the storage of every element is what it is at all times, and the legal ranges and
the zero tail hold while `fault` is clear (R22, R31). -/
structure State.Inv (s : State) : Prop where
  params   : s.params.wf
  memory   : Memory.wf s.params s.lines
  cache    : s.cache.toNat < 2 ^ s.params.w
  consumed : s.fault = false → s.consumedBits ≤ s.params.w
  next     : s.fault = false → s.nextLine ≤ s.params.lineCount
  unused   : s.fault = false → s.unusedLines ≤ s.params.lineCount
  zeroTail : s.fault = false → s.zeroTail

/-- `logicalBitPos` (R32). -/
def State.logicalBitPos (s : State) : Int :=
  8 * s.currentBytePos.toNat - s.params.w * (s.params.lineCount - s.nextLine : Int)
    - (s.params.w - s.consumedBits : Int)

/-! The stream (20_memory.md R44). -/

/-- The bits of a byte in stream order: stream bit `i` of a byte is its bit `7 - i`. -/
def byteBits (b : Byte) : List Bool := (List.range 8).map fun i => b.getLsbD (7 - i)

/-- The stream of these bytes as a bit string. -/
def streamBits (bytes : List Byte) : List Bool := bytes.flatMap byteBits

/-- The unsigned integer with these binary digits, the most significant first. -/
def bitsValue (bits : List Bool) : Nat := bits.foldl (fun acc b => 2 * acc + b.toNat) 0

/-- The `n` most significant bits of a `w`-bit word, in stream order. -/
def topBits (w n : Nat) (x : Word) : List Bool := (List.range n).map fun i => x.getLsbD (w - 1 - i)

/-- The unread bits the reader holds: those of the register, then those of the lines not yet promoted (R20, R25). -/
def State.heldBits (s : State) : List Bool :=
  topBits s.params.w s.rem s.cache
    ++ (s.lines.drop s.nextLine).flatMap fun l => topBits s.params.w s.params.w (beNorm s.params l)

/-- The reader is in step with the reference byte source over `bytes`: it stands at stream bit `pos`, stream offset 0
being byte `base`, where the byte source stood at reset (70_reset_and_hazards.md R222); the byte source's cursor is
where `currentBytePos` says (R54), and the bits the reader holds are the stream's bits from `pos` up to that cursor. -/
structure State.InStep (bytes : List Byte) (base pos : Nat) (s : State) : Prop where
  inv     : s.Inv
  noFault : s.fault = false
  size    : bytes.length < 2 ^ 60
  source  : s.source = .mem bytes (base + s.currentBytePos.toNat)
  inside  : base + s.currentBytePos.toNat ≤ bytes.length
  cursor  : pos + s.heldBits.length = 8 * s.currentBytePos.toNat
  held    : s.heldBits = ((streamBits (bytes.drop base)).drop pos).take s.heldBits.length

/-! What cannot be told apart (10_state.md R24, R26; 93_implementation_defined.md U5, U7, U8, U10). -/

/-- Two machines that agree on everything but what the spec calls arbitrary or unobservable: lines below `nextLine`,
`unusedLines`, the count of free values taken, and, while `fault` is set, every element of the reader but `fault`. -/
structure State.Alike (s s' : State) : Prop where
  inv     : s.Inv
  inv'    : s'.Inv
  params  : s'.params = s.params
  fault   : s'.fault = s.fault
  source  : s'.source = s.source
  inbox   : s'.inbox = s.inbox
  trace   : s'.trace = s.trace
  cache   : s.fault = false → s'.cache = s.cache
  consume : s.fault = false → s'.consumedBits = s.consumedBits
  next    : s.fault = false → s'.nextLine = s.nextLine
  bytePos : s.fault = false → s'.currentBytePos = s.currentBytePos
  lines   : s.fault = false → s'.lines.drop s.nextLine = s.lines.drop s.nextLine

/-! A byte source that keeps its contract by the answers it will give (20_memory.md R41, R53). -/

/-- The coming read answers are none of them longer than the request each meets, in commands: the first is a bulk
read's, and after a bulk answer of less than a word comes a tail read's (42_l2_buffer.md R122, R127, R130). -/
def legalAnswers (p : Params) : List (List Byte) → Bool
  | [] => true
  | [b] => decide (b.length ≤ p.l2Bytes)
  | b :: c :: reads =>
    decide (b.length ≤ p.l2Bytes) &&
      if b.length < p.wb then decide (c.length ≤ p.wb) && legalAnswers p reads else legalAnswers p (c :: reads)

/-! Reading the trace. -/

/-- The machine after these events were observed. -/
def State.emit (s : State) (evs : List Event) : State := { s with trace := s.trace ++ evs }

/-- The one response of a command (44_commands.md R170). -/
def answer (cmd : Instr) (st : Status) (data : Arg) : Event := .response cmd { status := st, data := data }

/-- The end an operation inside a command makes of it: FAULT where it raised Fault, the stop where it stopped; none
where the command goes on with its value or its failure. -/
def Res.ending {α : Type} (cmd : Instr) : Res α → Option StepResult
  | .ok _ _ => none
  | .fail _ => none
  | .raised s => some (.next (s.emit [answer cmd .fault 0]))
  | .stop f => some (.fault f)
  | .refuse x => some (.refused x)

/-- The transactions among the events, in order (00_scope.md R10). -/
def transactionsOf (evs : List Event) : List Transaction :=
  evs.filterMap fun
    | .transaction t => some t
    | .response _ _ => none

/-- The request word of a transaction, as the word it has on the byte-source port (30_encoding.md R69). -/
def Transaction.request : Transaction → Instr
  | .read max _ => .srcRd max
  | .seek off _ => .srcSk off

end Sys2Proof.Machine
end

