-- ==== Sys2Proof/Certificates/Slice0/Obligations.lean ====
section
/-! DEFINITION. The statements for the provers. -/

open Sys2Proof Sys2Proof.Machine

/-! Encodings (30_encoding.md). -/

/-- Words written out from the spec's layout decode to what they stand for (R71's examples, 95_test_vectors.md 3.5). -/
def Obligations.SpecWordsDecode : Prop :=
  decodeWord .command 0x00000000000000040 = .instr (.rdu 64) ∧
  decodeWord .command 0x1000000000000000C = .instr (.rds 12) ∧
  decodeWord .command 0x20000000000000048 = .instr (.skb 72) ∧
  decodeWord .command 0x3DEADBEEF00000000 = .instr (.pos 0xDEADBEEF00000000) ∧
  decodeWord .command 0x40000000000000002 = .instr (.rsy 2) ∧
  decodeWord .command 0x50000000000000000 = .instr (.rsvd5 0) ∧
  decodeWord .command 0x60000000000000001 = .instr (.rsvd6 1) ∧
  decodeWord .command 0x7FFFFFFFFFFFFFFFF = .instr (.rsvd7 0xFFFFFFFFFFFFFFFF) ∧
  decodeWord .command 0x80000000000000000 = .rejected .commandTooWide ∧
  decodeWord .source 0x00000000000001000 = .instr (.srcRd 4096) ∧
  decodeWord .source 0x1FFFFFFFFFFFFFFFD = .instr (.srcSk (-3)) ∧
  decodeWord .source 0x20000000000000000 = .rejected .requestTooWide

/-- Decoding an encoded instruction on its own port gives it back, with every operand at every value. -/
def Obligations.DecodeOfEncodeIsIdentity : Prop :=
  ∀ i : Instr, decodeWord i.port (encode i) = .instr i

/-- A number that decodes on a port is the encoding of what it decodes to: each word has one meaning. -/
def Obligations.EncodeOfDecodeIsIdentity : Prop :=
  ∀ (port : Port) (n : Nat) (i : Instr), decodeWord port n = .instr i → i.port = port ∧ encode i = n

/-- The fields and the operation codes of a command word (R61, R62): `op = cmd[66:64]`, `arg = cmd[63:0]`. -/
def Obligations.OperationCodes : Prop :=
  ∀ (op arg : Nat) (_ : op < 8) (_ : arg < 2 ^ 64),
    decodeWord .command (op * 2 ^ 64 + arg) = .instr
      (if op = 0 then .rdu (BitVec.ofNat 64 arg)
       else if op = 1 then .rds (BitVec.ofNat 64 arg)
       else if op = 2 then .skb (BitVec.ofNat 64 arg)
       else if op = 3 then .pos (BitVec.ofNat 64 arg)
       else if op = 4 then .rsy (BitVec.ofNat 64 arg)
       else if op = 5 then .rsvd5 (BitVec.ofNat 64 arg)
       else if op = 6 then .rsvd6 (BitVec.ofNat 64 arg)
       else .rsvd7 (BitVec.ofNat 64 arg))

/-- The response word (R67): `status = rsp[65:64]` with the codes of R68, `data = rsp[63:0]`. -/
def Obligations.ResponseWordFields : Prop :=
  ∀ r : Response,
    r.word.toNat = (match r.status with | .ok => 0 | .fail => 1 | .invalid => 2 | .fault => 3) * 2 ^ 64 + r.data.toNat

/-! bit_extract_and_mask (40_bit_extract_and_mask.md). -/

/-- SELMASK (R80). -/
def Obligations.SelectionMaskIsTheTopBits : Prop :=
  ∀ (p : Params) (n : Nat), n ≤ p.w →
    (selMask p.w n).toNat = 2 ^ p.w - 2 ^ (p.w - n) ∧
    ∀ i, (selMask p.w n).getLsbD i = decide (p.w - n ≤ i ∧ i < p.w)

/-- PEEK (R81). -/
def Obligations.PeekReturnsTheTopBits : Prop :=
  ∀ (p : Params) (c : Word) (n : Nat), c.toNat < 2 ^ p.w → 1 ≤ n → n ≤ p.w →
    (peek p.w c n).toNat = c.toNat / 2 ^ (p.w - n) ∧ (peek p.w c n).toNat < 2 ^ n ∧ peek p.w c p.w = c

/-- DROP (R82): the top `n` bits leave, the rest moves up, zeros enter; a full-width drop is zero. -/
def Obligations.DropShiftsZerosIn : Prop :=
  ∀ (p : Params) (c : Word) (n : Nat), c.toNat < 2 ^ p.w → n ≤ p.w →
    (∀ i, (dropBits p.w c n).getLsbD i = (decide (n ≤ i ∧ i < p.w) && c.getLsbD (i - n))) ∧
    dropBits p.w c p.w = 0 ∧ dropBits p.w c 0 = c

/-- BE_NORM of a line stored in either lane order (R83, 20_memory.md R45): the earliest byte is the most significant. -/
def Obligations.NormalisationUndoesTheLaneOrder : Prop :=
  ∀ (p : Params) (bs : List Byte), bs.length = p.wb →
    (beNorm p (lineOfSlots p bs)).toNat < 2 ^ p.w ∧
    (∀ j, (h : j < bs.length) →
      (beNorm p (lineOfSlots p bs)).extractLsb' (8 * (p.wb - 1 - j)) 8 = bs[j]) ∧
    (∀ x : Word, x.toNat < 2 ^ p.w →
      beNorm p x = if p.laneLittle then byteSwap p.wb x else x)

/-- TAILMASK (R84). -/
def Obligations.TailMaskClearsTheConsumedBits : Prop :=
  ∀ (p : Params) (c : Word) (cb : Nat), c.toNat < 2 ^ p.w → cb ≤ p.w →
    ∀ i, (tailMask p.w c cb).getLsbD i = (decide (cb ≤ i) && c.getLsbD i)

/-- COMBINE (R85). -/
def Obligations.CombineJoinsTwoParts : Prop :=
  ∀ (hiBits loBits : Arg) (hi loWidth : Nat), hiBits.toNat < 2 ^ hi → loBits.toNat < 2 ^ loWidth →
    hi + loWidth ≤ 64 →
    (combine hiBits loBits loWidth).toNat = hiBits.toNat * 2 ^ loWidth + loBits.toNat ∧
    (combine hiBits loBits loWidth).toNat < 2 ^ (hi + loWidth)

/-- SEXT (R86). -/
def Obligations.SignExtensionIsTwosComplement : Prop :=
  ∀ (v : Arg) (n : Nat), 1 ≤ n → n ≤ 64 → v.toNat < 2 ^ n →
    (v.getLsbD (n - 1) = false → sext v n = v) ∧
    (v.getLsbD (n - 1) = true → sext v n = v ||| BitVec.ofNat 64 (2 ^ 64 - 2 ^ n)) ∧
    (sext v n).toInt = if v.toNat < 2 ^ (n - 1) then (v.toNat : Int) else (v.toNat : Int) - 2 ^ n

/-! The L2 buffer and the reload cascade (42_l2_buffer.md). -/

/-- Bytes written to the buffer are read back at their addresses, and every other address keeps its byte (R122,
20_memory.md R45). -/
def Obligations.BufferWriteThenRead : Prop :=
  ∀ (p : Params) (bytes : List Byte) (ls : List Word), p.wf → Memory.wf p ls → bytes.length ≤ p.l2Bytes →
    Memory.wf p (writeLines p bytes ls) ∧
    (∀ a, (h : a < bytes.length) → bufferByte p (writeLines p bytes ls) a = bytes[a]) ∧
    (∀ a, bytes.length ≤ a → bufferByte p (writeLines p bytes ls) a = bufferByte p ls a)

/-- A full fill (R123): one bulk read, the first line popped. -/
def Obligations.FullFill : Prop :=
  ∀ (s : State) (b : List Byte) (src : ByteSource), s.Inv → s.nextLine = s.params.lineCount →
    s.source.read s.params.l2Bytes = some (b, src) → b.length = s.params.l2Bytes →
    ∃ t, reload s = .ok () t ∧ t.nextLine = 1 ∧ t.unusedLines = 0 ∧ t.consumedBits = 0 ∧
      t.cache.toNat = ofBytesBE (b.take s.params.wb) ∧
      (∀ a, (h : a < b.length) → bufferByte s.params t.lines a = b[a]) ∧
      t.currentBytePos = s.currentBytePos + BitVec.ofNat 64 s.params.l2Bytes ∧ t.source = src ∧
      t.trace = s.trace ++ [.transaction (.read (BitVec.ofNat 64 s.params.l2Bytes) b)] ∧
      t.params = s.params ∧ t.fault = s.fault ∧ t.inbox = s.inbox

/-- A partial fill with its un-seek accepted (R124, R126, R128): the whole words stand at the end of the buffer in
order, the trailing bytes are handed back, the first word is popped. -/
def Obligations.PartialFill : Prop :=
  ∀ (s : State) (b : List Byte) (src src2 : ByteSource), s.Inv → s.nextLine = s.params.lineCount →
    s.source.read s.params.l2Bytes = some (b, src) → s.params.wb ≤ b.length → b.length < s.params.l2Bytes →
    (if b.length % s.params.wb = 0 then src2 = src
     else src.seek (-((b.length % s.params.wb : Nat) : Int)) = some (true, src2)) →
    ∃ t, reload s = .ok () t ∧
      t.unusedLines = s.params.lineCount - b.length / s.params.wb ∧ t.nextLine = t.unusedLines + 1 ∧
      t.consumedBits = 0 ∧ t.cache.toNat = ofBytesBE (b.take s.params.wb) ∧
      (∀ a, (h : a < b.length) → a < b.length / s.params.wb * s.params.wb →
        bufferByte s.params t.lines (t.unusedLines * s.params.wb + a) = b[a]) ∧
      t.currentBytePos = s.currentBytePos + BitVec.ofNat 64 (b.length / s.params.wb * s.params.wb) ∧
      t.source = src2 ∧
      t.trace = s.trace ++ .transaction (.read (BitVec.ofNat 64 s.params.l2Bytes) b) ::
        (if b.length % s.params.wb = 0 then []
         else [.transaction (.seek (-(BitVec.ofNat 64 (b.length % s.params.wb))) true)]) ∧
      t.params = s.params ∧ t.fault = s.fault ∧ t.inbox = s.inbox

/-- A degenerate fill with its un-seek accepted, and the tail load after it (R127, R130, R132): the register holds
the bytes at its top, the rest counted as consumed; the buffer keeps every byte the bulk read did not write. -/
def Obligations.DegenerateFillThenTailLoad : Prop :=
  ∀ (s : State) (b b' : List Byte) (src src2 src3 : ByteSource), s.Inv → s.nextLine = s.params.lineCount →
    s.source.read s.params.l2Bytes = some (b, src) → b.length < s.params.wb →
    (if b.length = 0 then src2 = src else src.seek (-(b.length : Int)) = some (true, src2)) →
    src2.read s.params.wb = some (b', src3) → 1 ≤ b'.length → b'.length ≤ s.params.wb →
    ∃ t, reload s = .ok () t ∧ t.nextLine = s.params.lineCount ∧ t.unusedLines = s.params.lineCount ∧
      t.consumedBits = (s.params.wb - b'.length) * 8 ∧
      t.cache.toNat = ofBytesBE b' * 2 ^ ((s.params.wb - b'.length) * 8) ∧
      (∀ a, b.length ≤ a → bufferByte s.params t.lines a = bufferByte s.params s.lines a) ∧
      t.currentBytePos = s.currentBytePos + BitVec.ofNat 64 b'.length ∧ t.source = src3 ∧
      t.trace = s.trace ++ .transaction (.read (BitVec.ofNat 64 s.params.l2Bytes) b) ::
        (if b.length = 0 then [] else [.transaction (.seek (-(BitVec.ofNat 64 b.length)) true)]) ++
        [.transaction (.read (BitVec.ofNat 64 s.params.wb) b')] ∧
      t.params = s.params ∧ t.fault = s.fault ∧ t.inbox = s.inbox

/-- A true end of the stream (R131, R133): both reads answer nothing, RELOAD fails, and but for `unusedLines`
nothing of the reader has changed. -/
def Obligations.ReloadFailsAtEndOfStream : Prop :=
  ∀ (s : State) (src src2 : ByteSource), s.Inv → s.nextLine = s.params.lineCount →
    s.source.read s.params.l2Bytes = some ([], src) → src.read s.params.wb = some ([], src2) →
    reload s = .fail
      { s with
        unusedLines := s.params.lineCount, source := src2,
        trace := s.trace ++ [.transaction (.read (BitVec.ofNat 64 s.params.l2Bytes) []),
          .transaction (.read (BitVec.ofNat 64 s.params.wb) [])] }

/-- A RELOAD that fails has left the register and the tracked cursor as they were, and L2 exhausted (R120, R127, R131). -/
def Obligations.FailedReloadKeepsTheRegister : Prop :=
  ∀ s t : State, reload s = .fail t →
    t.cache = s.cache ∧ t.consumedBits = s.consumedBits ∧ t.currentBytePos = s.currentBytePos ∧
    t.nextLine = s.params.lineCount ∧ t.fault = s.fault ∧ t.params = s.params ∧ t.inbox = s.inbox

/-- A refused un-seek (R135, 60_exceptions.md R204), wherever it meets a RELOAD: RELOAD ends raised, the flag set.
And where that RELOAD's bulk read is the next thing a command asks of the byte source, the command stops there and is
answered FAULT: RDU and RDS of more bits than the register holds (an exhausted register, a straddling read, and the
second half of a wide read whose first half the register covers), SKB at the reload for its residual.
`ReloadEndsTheCommand` covers every RELOAD of a command. -/
def Obligations.RefusedUnseekRaisesFault : Prop :=
  (∀ (s : State) (b : List Byte) (src src2 : ByteSource), s.Inv → s.nextLine = s.params.lineCount →
    s.source.read s.params.l2Bytes = some (b, src) → b.length < s.params.l2Bytes → b.length % s.params.wb ≠ 0 →
    src.seek (-((b.length % s.params.wb : Nat) : Int)) = some (false, src2) →
    ∃ u, reload s = .raised u ∧ u.fault = true ∧ u.source = src2 ∧ u.params = s.params ∧ u.inbox = s.inbox ∧
      u.trace = s.trace ++ [.transaction (.read (BitVec.ofNat 64 s.params.l2Bytes) b),
        .transaction (.seek (-(BitVec.ofNat 64 (b.length % s.params.wb))) false)]) ∧
  (∀ (s : State) (n : Arg) (b : List Byte) (src src2 : ByteSource), s.Inv → s.fault = false →
    s.rem < n.toNat → n.toNat ≤ 64 → s.nextLine = s.params.lineCount →
    s.source.read s.params.l2Bytes = some (b, src) → b.length < s.params.l2Bytes → b.length % s.params.wb ≠ 0 →
    src.seek (-((b.length % s.params.wb : Nat) : Int)) = some (false, src2) →
    ∀ cmd ∈ [Instr.rdu n, .rds n],
      ∃ t, exec cmd s = .next t ∧ t.fault = true ∧ t.source = src2 ∧ t.params = s.params ∧ t.inbox = s.inbox ∧
        t.trace = s.trace ++ [.transaction (.read (BitVec.ofNat 64 s.params.l2Bytes) b),
          .transaction (.seek (-(BitVec.ofNat 64 (b.length % s.params.wb))) false), answer cmd .fault 0]) ∧
  (∀ (s s1 : State) (n : Arg) (b : List Byte) (src src2 : ByteSource), s.Inv → s.fault = false → s.rem < n.toNat →
    seekWhole (seekCalc n.toNat s) s = .ok () s1 → (seekCalc n.toNat s).residual ≠ 0 →
    s1.nextLine = s.params.lineCount →
    s1.source.read s.params.l2Bytes = some (b, src) → b.length < s.params.l2Bytes → b.length % s.params.wb ≠ 0 →
    src.seek (-((b.length % s.params.wb : Nat) : Int)) = some (false, src2) →
    ∃ t, exec (.skb n) s = .next t ∧ t.fault = true ∧ t.source = src2 ∧ t.params = s.params ∧ t.inbox = s.inbox ∧
      t.trace = s1.trace ++ [.transaction (.read (BitVec.ofNat 64 s.params.l2Bytes) b),
        .transaction (.seek (-(BitVec.ofNat 64 (b.length % s.params.wb))) false), answer (.skb n) .fault 0])

/-- The refill machine of R137 does what RELOAD does. -/
def Obligations.RefillMachineIsReload : Prop := ∀ s : State, refillFsm s = reload s

/-! What a command does to the outside (20_memory.md, 44_commands.md R170, 70_reset_and_hazards.md R232). -/

/-- A command that ends has issued transactions and then given exactly one response, whose data is zero unless its
status is OK (R170, 20_memory.md R49, 30_encoding.md R68). -/
def Obligations.OneResponseAfterTheTransactions : Prop :=
  ∀ (i : Instr) (s t : State), i.port = .command → exec i s = .next t →
    ∃ (ts : List Transaction) (st : Status) (d : Arg),
      t.trace = s.trace ++ ts.map .transaction ++ [answer i st d] ∧ (st ≠ .ok → d = 0)

/-- The frame of the commands that read and seek, of POS and of the reserved codes: parameters and inputs stay; the
flag stays unless the answer is FAULT; without a read transaction the buffer and `unusedLines` stay, and without any
transaction the byte source and the tracked cursor too (44_commands.md R171, R173). -/
def Obligations.CommandFrame : Prop :=
  ∀ (i : Instr) (s t : State) (evs : List Event), i.port = .command → (∀ p, i ≠ .rsy p) → exec i s = .next t →
    t.trace = s.trace ++ evs →
    t.params = s.params ∧ t.inbox = s.inbox ∧
    (t.fault = s.fault ∨ t.fault = true ∧ answer i .fault 0 ∈ evs) ∧
    ((∀ m b, .read m b ∉ transactionsOf evs) → t.lines = s.lines ∧ t.unusedLines = s.unusedLines) ∧
    (transactionsOf evs = [] → t.source = s.source ∧ t.currentBytePos = s.currentBytePos)

/-- The only requests a command issues (20_memory.md R43): reads of `L2_BYTES` and of `WB`, un-seeks of 1 to `WB - 1`
bytes, forward seeks by a positive multiple of `WB`; none of them is a zero read or a zero seek. -/
def Obligations.OnlyLegalRequestsAreIssued : Prop :=
  ∀ (i : Instr) (s t : State) (evs : List Event), s.Inv → i.port = .command → exec i s = .next t →
    t.trace = s.trace ++ evs → ∀ x ∈ transactionsOf evs, x.request.wellFormed s.params

/-- The transactions of a command are bounded (R232). -/
def Obligations.TransactionsAreBounded : Prop :=
  ∀ (i : Instr) (s t : State) (evs : List Event), i.port = .command → exec i s = .next t →
    t.trace = s.trace ++ evs →
    (transactionsOf evs).length ≤
      match i with
      | .rdu _ => 12
      | .rds _ => 12
      | .skb _ => 1 + 3 * (1 + s.params.w / 8)
      | _ => 0

/-- Every word completes over a byte source that answers it (R232): the reference byte source, in every state; and,
for a command, any byte source that has as many answers left as a command can need, each of legal length for the
request it meets. A lone request word (the model's own reading, DESIGN CHOICE, notes/assumptions/7.md) needs one. -/
def Obligations.EveryWordCompletes : Prop :=
  (∀ (i : Instr) (s : State) (bytes : List Byte) (c : Nat), s.source = .mem bytes c → ∃ t, exec i s = .next t) ∧
  (∀ (i : Instr) (s : State) (reads : List (List Byte)) (seeks : List Bool), i.port = .command → s.params.wf →
    s.source = .scripted reads seeks → legalAnswers s.params reads = true →
    1 + 3 * (1 + s.params.w / 8) ≤ reads.length → 1 + 3 * (1 + s.params.w / 8) ≤ seeks.length →
    ∃ t, exec i s = .next t) ∧
  (∀ (max : Arg) (s : State) (b : List Byte) (reads : List (List Byte)) (seeks : List Bool),
    s.source = .scripted (b :: reads) seeks → b.length ≤ max.toNat → ∃ t, exec (.srcRd max) s = .next t) ∧
  (∀ (off : Arg) (s : State) (ok : Bool) (reads : List (List Byte)) (seeks : List Bool),
    s.source = .scripted reads (ok :: seeks) → ∃ t, exec (.srcSk off) s = .next t)

/-- A RELOAD that raises Fault or stops is the end of the command it is in, wherever in the command it stands (R135,
60_exceptions.md R204; 20_memory.md R50, R53): READ32's entry reload, its straddling reload, and the one after the
entry reload; the only READ32 of a narrow read and either one of a wide read; the forward seek of SKB, the reload for
its residual, and any reload of a nested SEEK. -/
def Obligations.ReloadEndsTheCommand : Prop :=
  (∀ (cmd : Instr) (s : State) (n : Nat) (r : StepResult), s.rem < n →
    (reload s).ending cmd = some r → (read32 n s).ending cmd = some r) ∧
  (∀ (cmd : Instr) (s s1 : State) (n : Nat) (r : StepResult), s.consumedBits = s.params.w → reload s = .ok () s1 →
    s1.rem < n → (reload s1).ending cmd = some r → (read32 n s).ending cmd = some r) ∧
  (∀ (s : State) (n : Arg) (r : StepResult), s.fault = false → 1 ≤ n.toNat → n.toNat ≤ 64 →
    ∀ cmd ∈ [Instr.rdu n, .rds n],
      (n.toNat ≤ 32 → (read32 n.toNat s).ending cmd = some r → exec cmd s = r) ∧
      (33 ≤ n.toNat → (read32 (n.toNat - 32) s).ending cmd = some r → exec cmd s = r) ∧
      (∀ (h : Word) (s1 : State), 33 ≤ n.toNat → read32 (n.toNat - 32) s = .ok h s1 →
        (read32 32 s1).ending cmd = some r → exec cmd s = r)) ∧
  (∀ (s : State) (n : Arg) (r : StepResult), s.fault = false → s.rem < n.toNat →
    ((seekWhole (seekCalc n.toNat s) s).ending (.skb n) = some r → exec (.skb n) s = r) ∧
    (∀ s1 : State, seekWhole (seekCalc n.toNat s) s = .ok () s1 → (seekCalc n.toNat s).residual ≠ 0 →
      ((reload s1).ending (.skb n) = some r → exec (.skb n) s = r) ∧
      (∀ s2 : State, reload s1 = .ok () s2 → (seek (seekCalc n.toNat s).residual s2).ending (.skb n) = some r →
        exec (.skb n) s = r)))

/-! Seeking (43_seek.md). -/

/-- SEEK_CALC (R151): its identity and its ranges. -/
def Obligations.SeekCalcIdentity : Prop :=
  ∀ (s : State) (n : Nat), s.rem < n → n < 2 ^ 64 →
    n = s.rem + s.params.w * (seekCalc n s).skipL2 + 8 * (seekCalc n s).srcBytes + (seekCalc n s).residual ∧
    (seekCalc n s).wholeLines = (n - s.rem) / s.params.w ∧
    (seekCalc n s).residual < s.params.w ∧
    (seekCalc n s).skipL2 = min (seekCalc n s).wholeLines (s.params.lineCount - s.nextLine) ∧
    (seekCalc n s).srcBytes % s.params.wb = 0 ∧ (seekCalc n s).srcBytes < 2 ^ 61

/-- SKB inside the register (R152). -/
def Obligations.SeekInsideTheRegister : Prop :=
  ∀ (s : State) (n : Arg), s.fault = false → 1 ≤ n.toNat → n.toNat ≤ s.rem →
    exec (.skb n) s = .next (({ s with
      cache := dropBits s.params.w s.cache n.toNat,
      consumedBits := s.consumedBits + n.toNat } : State).emit [answer (.skb n) .ok 0])

/-- SKB to a word boundary inside L2 (R153): lines are skipped unread, with no transaction. -/
def Obligations.SeekToALineInTheBuffer : Prop :=
  ∀ (s : State) (n : Arg) (k : Nat), s.fault = false → 1 ≤ k → s.nextLine + k ≤ s.params.lineCount →
    n.toNat = s.rem + s.params.w * k →
    exec (.skb n) s = .next (({ s with
      cache := 0, consumedBits := s.params.w, nextLine := s.nextLine + k } : State).emit [answer (.skb n) .ok 0])

/-- SKB past L2 to a word boundary with the byte source accepting (R154, R160): one forward seek. -/
def Obligations.SeekThroughTheByteSource : Prop :=
  ∀ (s : State) (n : Arg) (m : Nat) (src : ByteSource), s.Inv → s.fault = false → 1 ≤ m →
    n.toNat = s.rem + s.params.w * (s.params.lineCount - s.nextLine + m) →
    s.source.seek ((m * s.params.wb : Nat) : Int) = some (true, src) →
    exec (.skb n) s = .next (({ s with
      cache := 0, consumedBits := s.params.w, nextLine := s.params.lineCount, source := src,
      currentBytePos := s.currentBytePos + BitVec.ofNat 64 (m * s.params.wb) } : State).emit
        [.transaction (.seek (BitVec.ofNat 64 (m * s.params.wb)) true), answer (.skb n) .ok 0])

/-- A refused forward seek (R155): FAIL, and nothing of the reader has changed. -/
def Obligations.RefusedForwardSeekChangesNothing : Prop :=
  ∀ (s : State) (n : Arg) (src : ByteSource), s.Inv → s.fault = false → s.rem < n.toNat →
    s.params.lineCount - s.nextLine < (n.toNat - s.rem) / s.params.w →
    s.source.seek ((((n.toNat - s.rem) / s.params.w - (s.params.lineCount - s.nextLine)) * s.params.wb : Nat) : Int)
      = some (false, src) →
    exec (.skb n) s = .next (({ s with source := src } : State).emit
      [.transaction (.seek (BitVec.ofNat 64
          (((n.toNat - s.rem) / s.params.w - (s.params.lineCount - s.nextLine)) * s.params.wb)) false),
        answer (.skb n) .fail 0])

/-- SEEK is the recursion of R156, for every count and every state: the model's bound on nested calls is never met
(R157). -/
def Obligations.SeekIsItsRecursion : Prop :=
  ∀ (n : Nat) (s : State),
    seek n s =
      if n ≤ s.rem then .ok () (consume n s)
      else (seekWhole (seekCalc n s) s).bind fun _ s1 =>
        if (seekCalc n s).residual = 0 then .ok () s1
        else (reload s1).bind fun _ s2 => seek (seekCalc n s).residual s2

/-! Commands (44_commands.md). -/

/-- While `fault` is set every command but RSY is answered FAULT and nothing else happens (R170 step 1, 10_state.md R28). -/
def Obligations.FaultFlagBarsEveryCommandButRsy : Prop :=
  ∀ (i : Instr) (s : State), i.port = .command → (∀ p, i ≠ .rsy p) → s.fault = true →
    exec i s = .next (s.emit [answer i .fault 0])

/-- Invalid requests (60_exceptions.md R205): the causes, exactly, and that nothing else happens. -/
def Obligations.InvalidRequestsAreRejected : Prop :=
  (∀ (s : State) (n : Arg), s.fault = false → (n.toNat = 0 ∨ 65 ≤ n.toNat) →
    exec (.rdu n) s = .next (s.emit [answer (.rdu n) .invalid 0]) ∧
    exec (.rds n) s = .next (s.emit [answer (.rds n) .invalid 0])) ∧
  (∀ s : State, s.fault = false → exec (.skb 0) s = .next (s.emit [answer (.skb 0) .invalid 0])) ∧
  (∀ (s : State) (a : Arg) (i : Instr), s.fault = false → i ∈ [Instr.rsvd5 a, .rsvd6 a, .rsvd7 a] →
    exec i s = .next (s.emit [answer i .invalid 0])) ∧
  (∀ (i : Instr) (s t : State) (evs : List Event) (d : Arg), exec i s = .next t →
    t.trace = s.trace ++ evs ++ [answer i .invalid d] →
    (∃ n, (i = .rdu n ∨ i = .rds n) ∧ (n.toNat = 0 ∨ 65 ≤ n.toNat)) ∨ i = .skb 0 ∨
    (∃ a, i = .rsvd5 a ∨ i = .rsvd6 a ∨ i = .rsvd7 a))

/-- The reserved codes (R176): INVALID, or FAULT while the flag is set, and no other effect. -/
def Obligations.ReservedCodesHaveNoEffect : Prop :=
  ∀ (s : State) (a : Arg) (i : Instr), i ∈ [Instr.rsvd5 a, .rsvd6 a, .rsvd7 a] →
    exec i s = .next (s.emit [answer i (if s.fault then .fault else .invalid) 0])

/-- POS (R174): the tracked cursor, whatever the operand; it writes nothing. -/
def Obligations.PosReturnsTheTrackedCursor : Prop :=
  ∀ (s : State) (a : Arg),
    exec (.pos a) s = .next (s.emit
      [if s.fault then answer (.pos a) .fault 0 else answer (.pos a) .ok s.currentBytePos])

/-- RSY (R175): the caches and the flag as after reset, the position from the host, OK in every state; `lines`, the
byte source and everything else stay, and no transaction is issued. -/
def Obligations.RsyResynchronises : Prop :=
  ∀ (s : State) (p : Arg),
    exec (.rsy p) s = .next (({ s with
      cache := 0, consumedBits := s.params.w, nextLine := s.params.lineCount, unusedLines := 0,
      currentBytePos := p, fault := false } : State).emit [answer (.rsy p) .ok 0])

/-- RDS (R172): RDU of the same width, its OK result sign-extended. -/
def Obligations.RdsIsRduSignExtended : Prop :=
  ∀ (n : Arg) (s u : State) (st : Status) (d : Arg),
    exec (.rdu n) s = .next (u.emit [answer (.rdu n) st d]) →
    exec (.rds n) s = .next (u.emit [answer (.rds n) st (if st = .ok then sext d n.toNat else 0)])

/-- SRC.RD (20_memory.md R41, R54): the answer is in the trace, the tracked cursor follows, nothing else changes; the
reference byte source answers `min(max, len - p)` bytes (R52). That a request word stands alone on the port is the
model's reading (DESIGN CHOICE, notes/assumptions/7.md). -/
def Obligations.SourceReadTransaction : Prop :=
  (∀ (s : State) (max : Arg) (b : List Byte) (src : ByteSource),
    s.source.read max.toNat = some (b, src) → b.length ≤ max.toNat →
    exec (.srcRd max) s = .next (({ s with
      source := src, currentBytePos := s.currentBytePos + BitVec.ofNat 64 b.length } : State).emit
        [.transaction (.read max b)])) ∧
  (∀ (bytes : List Byte) (c max : Nat), c ≤ bytes.length →
    ∃ b, (ByteSource.mem bytes c).read max = some (b, .mem bytes (c + b.length)) ∧
      b.length = min max (bytes.length - c) ∧ ∀ j, (h : j < b.length) → b[j]? = bytes[c + j]?)

/-- SRC.SK (20_memory.md R42, R54): accepted, the tracked cursor follows; refused, nothing of the reader changes; the
reference byte source accepts exactly the targets inside its data (R52). That a request word stands alone on the port
is the model's reading (DESIGN CHOICE, notes/assumptions/7.md). -/
def Obligations.SourceSeekTransaction : Prop :=
  (∀ (s : State) (off : Arg) (ok : Bool) (src : ByteSource), s.source.seek off.toInt = some (ok, src) →
    exec (.srcSk off) s = .next (({ s with
      source := src,
      currentBytePos := if ok then s.currentBytePos + off else s.currentBytePos } : State).emit
        [.transaction (.seek off ok)])) ∧
  (∀ (bytes : List Byte) (c : Nat) (off : Int), c ≤ bytes.length →
    ∃ c', (ByteSource.mem bytes c).seek off = some (decide (0 ≤ (c : Int) + off ∧ (c : Int) + off ≤ bytes.length), .mem bytes c') ∧
      (c' : Int) = if 0 ≤ (c : Int) + off ∧ (c : Int) + off ≤ bytes.length then (c : Int) + off else c)

/-- The stops (20_memory.md R50, R53; notes/assumptions/11.md): a request that is never answered is stuck, an answer
longer than asked has no meaning. First for the lone requests, which are the model's reading (DESIGN CHOICE,
notes/assumptions/7.md); then for each request of a RELOAD; then for RDU, RDS and SKB at their first request, and
for SKB at the bulk read of its residual. `ReloadEndsTheCommand` covers every RELOAD of a command. -/
def Obligations.SourceStops : Prop :=
  (∀ (s : State) (max : Arg), s.source.read max.toNat = none → exec (.srcRd max) s = .fault .sourceNeverAnswers) ∧
  (∀ (s : State) (off : Arg), s.source.seek off.toInt = none → exec (.srcSk off) s = .fault .sourceNeverAnswers) ∧
  (∀ (s : State) (max : Arg) (b : List Byte) (src : ByteSource), s.source.read max.toNat = some (b, src) →
    max.toNat < b.length → exec (.srcRd max) s = .refused .answerTooLong) ∧
  (∀ s : State, s.Inv → s.nextLine = s.params.lineCount →
    (s.source.read s.params.l2Bytes = none → reload s = .stop .sourceNeverAnswers) ∧
    (∀ b src, s.source.read s.params.l2Bytes = some (b, src) →
      (s.params.l2Bytes < b.length → reload s = .refuse .answerTooLong) ∧
      (b.length < s.params.l2Bytes → b.length % s.params.wb ≠ 0 →
        src.seek (-((b.length % s.params.wb : Nat) : Int)) = none → reload s = .stop .sourceNeverAnswers) ∧
      (∀ src2, b.length < s.params.wb →
        (if b.length = 0 then src2 = src else src.seek (-(b.length : Int)) = some (true, src2)) →
        (src2.read s.params.wb = none → reload s = .stop .sourceNeverAnswers) ∧
        (∀ b' src3, src2.read s.params.wb = some (b', src3) → s.params.wb < b'.length →
          reload s = .refuse .answerTooLong)))) ∧
  (∀ (s : State) (n : Arg), s.Inv → s.fault = false → s.rem < n.toNat → n.toNat ≤ 64 →
    s.nextLine = s.params.lineCount → ∀ cmd ∈ [Instr.rdu n, .rds n],
      (s.source.read s.params.l2Bytes = none → exec cmd s = .fault .sourceNeverAnswers) ∧
      (∀ b src, s.source.read s.params.l2Bytes = some (b, src) → s.params.l2Bytes < b.length →
        exec cmd s = .refused .answerTooLong)) ∧
  (∀ (s : State) (n : Arg), s.Inv → s.fault = false → s.rem < n.toNat →
    s.params.lineCount - s.nextLine < (n.toNat - s.rem) / s.params.w →
    s.source.seek ((((n.toNat - s.rem) / s.params.w - (s.params.lineCount - s.nextLine)) * s.params.wb : Nat) : Int)
      = none →
    exec (.skb n) s = .fault .sourceNeverAnswers) ∧
  (∀ (s s1 : State) (n : Arg), s.Inv → s.fault = false → s.rem < n.toNat →
    seekWhole (seekCalc n.toNat s) s = .ok () s1 → (seekCalc n.toNat s).residual ≠ 0 →
    s1.nextLine = s.params.lineCount →
    (s1.source.read s.params.l2Bytes = none → exec (.skb n) s = .fault .sourceNeverAnswers) ∧
    (∀ b src, s1.source.read s.params.l2Bytes = some (b, src) → s.params.l2Bytes < b.length →
      exec (.skb n) s = .refused .answerTooLong))

/-! Reads from what the reader holds, and reads that fail (41_l1_register.md, 44_commands.md R177, R178). -/

/-- The fast path (R104): the top bits, and nothing but the register changes. -/
def Obligations.ReadFromTheRegister : Prop :=
  ∀ (s : State) (n : Arg), s.Inv → s.fault = false → 1 ≤ n.toNat → n.toNat ≤ 32 → n.toNat ≤ s.rem →
    exec (.rdu n) s = .next (({ s with
      cache := BitVec.ofNat 64 (s.cache.toNat * 2 ^ n.toNat % 2 ^ s.params.w),
      consumedBits := s.consumedBits + n.toNat } : State).emit
        [answer (.rdu n) .ok (BitVec.ofNat 64 (s.cache.toNat / 2 ^ (s.params.w - n.toNat)))])

/-- A read of bits the reader holds (R133's first case) returns them, consumes exactly them, issues no transaction
and changes nothing but the register and `nextLine`: the frame of RDU and RDS away from a refill. -/
def Obligations.BufferedReadFrame : Prop :=
  ∀ (s : State) (n : Arg), s.Inv → s.fault = false → 1 ≤ n.toNat → n.toNat ≤ 64 →
    n.toNat ≤ s.heldBits.length →
    ∃ t : State, t.heldBits = s.heldBits.drop n.toNat ∧ t.logicalBitPos = s.logicalBitPos + n.toNat ∧
      t = { s with cache := t.cache, consumedBits := t.consumedBits, nextLine := t.nextLine } ∧
      exec (.rdu n) s = .next (t.emit [answer (.rdu n) .ok (BitVec.ofNat 64 (bitsValue (s.heldBits.take n.toNat)))]) ∧
      exec (.rds n) s = .next (t.emit
        [answer (.rds n) .ok (sext (BitVec.ofNat 64 (bitsValue (s.heldBits.take n.toNat))) n.toNat)])

/-- A straddling read of at most 32 bits fails in two ways (R106): the reload fails and the register, the position
and the bits held are as before; or the new register is too short and is kept whole. -/
def Obligations.StraddlingReadFailures : Prop :=
  ∀ (s u : State) (n : Arg), s.Inv → s.fault = false → 1 ≤ s.rem → s.rem < n.toNat → n.toNat ≤ 32 →
    (reload s = .fail u →
      exec (.rdu n) s = .next (u.emit [answer (.rdu n) .fail 0]) ∧ u.cache = s.cache ∧
      u.consumedBits = s.consumedBits ∧ u.nextLine = s.nextLine ∧ u.currentBytePos = s.currentBytePos ∧
      u.heldBits = s.heldBits ∧ u.logicalBitPos = s.logicalBitPos) ∧
    (reload s = .ok () u → u.rem < n.toNat - s.rem →
      exec (.rdu n) s = .next (u.emit [answer (.rdu n) .fail 0]))

/-- Wide reads (R177): the high `n - 32` bits, then 32; whichever fails first decides, and a first part that was read
stays consumed. -/
def Obligations.WideReadIsTwoReads : Prop :=
  ∀ (s u v : State) (n : Arg) (h l : Word), s.fault = false → 33 ≤ n.toNat → n.toNat ≤ 64 →
    (read32 (n.toNat - 32) s = .fail u → exec (.rdu n) s = .next (u.emit [answer (.rdu n) .fail 0])) ∧
    (read32 (n.toNat - 32) s = .ok h u → read32 32 u = .fail v →
      exec (.rdu n) s = .next (v.emit [answer (.rdu n) .fail 0])) ∧
    (s.Inv → read32 (n.toNat - 32) s = .ok h u → read32 32 u = .ok l v →
      exec (.rdu n) s = .next (v.emit [answer (.rdu n) .ok (BitVec.ofNat 64 (h.toNat * 2 ^ 32 + l.toNat))]))

/-! The whole machine. -/

/-- The state after reset (10_state.md R30), for all parameters and any byte source. -/
def Obligations.ResetValues : Prop :=
  ∀ (p : Params) (src : ByteSource),
    (State.resetWith p src).cache = 0 ∧ (State.resetWith p src).consumedBits = p.w ∧
    (State.resetWith p src).lines = List.replicate p.lineCount 0 ∧
    (State.resetWith p src).nextLine = p.lineCount ∧ (State.resetWith p src).unusedLines = 0 ∧
    (State.resetWith p src).currentBytePos = 0 ∧ (State.resetWith p src).fault = false

/-- The reset state meets the invariant and is in step with any reference byte source, wherever that stands. -/
def Obligations.ResetIsInStep : Prop :=
  State.reset.Inv ∧ ∀ (p : Params) (bytes : List Byte) (c : Nat), p.wf → c ≤ bytes.length → bytes.length < 2 ^ 60 →
    (State.resetWith p (.mem bytes c)).Inv ∧ (State.resetWith p (.mem bytes c)).InStep bytes c 0

/-- Every step keeps the invariant (10_state.md R22, R31; 41_l1_register.md R108): the zero tail, the ranges, the
canonical form of the buffer. -/
def Obligations.StepKeepsTheInvariant : Prop :=
  ∀ s t : State, s.Inv → step s = .next t → t.Inv

/-- No step changes a parameter (10_state.md R29 b). -/
def Obligations.ParametersAreFixed : Prop :=
  ∀ s t : State, step s = .next t → t.params = s.params

/-- What clears the fault flag (10_state.md R28): RSY and reset only. The list `inbox` they come in is the model's
(notes/assumptions/4.md). -/
def Obligations.OnlyRsyAndResetClearTheFault : Prop :=
  ∀ s t : State, step s = .next t → s.fault = true → t.fault = false →
    (∃ cmd p rest, s.inbox = .command cmd :: rest ∧ decodeCommand cmd = .rsy p) ∨
    (∃ rest, s.inbox = .reset :: rest) ∨
    (∃ cmd ts src rest, s.inbox = .resetDuring cmd ts src :: rest)

/-- What sets the fault flag (10_state.md R28): a refused backward seek inside a read or a seek command, which is
then answered FAULT. The list `inbox` the command comes in is the model's (notes/assumptions/4.md). -/
def Obligations.OnlyARefusedUnseekSetsTheFault : Prop :=
  ∀ s t : State, s.Inv → step s = .next t → s.fault = false → t.fault = true →
    ∃ (cmd : BitVec 67) (rest : List Input) (evs : List Event) (off : Arg),
      s.inbox = .command cmd :: rest ∧ off.toInt < 0 ∧
      t.trace = s.trace ++ evs ++
        [.transaction (.seek off false), answer (decodeCommand cmd) .fault 0] ∧
      ((∃ n, decodeCommand cmd = .rdu n) ∨ (∃ n, decodeCommand cmd = .rds n) ∨ (∃ n, decodeCommand cmd = .skb n))

/-- What the outside does besides issuing words: reset between commands and during one (70_reset_and_hazards.md R220,
R223): the reset state, no response, and no transaction of the reset's own, the byte source where it stood, or where
the interrupted command left it; and touching the byte source (R226), of which no state of the reader notices. That
these are inputs of the list `inbox` is the model's (notes/assumptions/4.md, 9.md, 10.md). -/
def Obligations.OutsideEvents : Prop :=
  ∀ (s : State) (rest : List Input),
    (s.inbox = .reset :: rest →
      step s = .next { State.resetWith s.params s.source with
        inbox := rest, trace := s.trace, freeCount := s.freeCount }) ∧
    (∀ (cmd : BitVec 67) (issued : List Transaction) (src : ByteSource),
      s.inbox = .resetDuring cmd issued src :: rest →
      step s = .next { State.resetWith s.params src with
        inbox := rest, trace := s.trace ++ issued.map .transaction, freeCount := s.freeCount }) ∧
    (∀ src : ByteSource, s.inbox = .touchSource src :: rest → step s = .next { s with inbox := rest, source := src })

/-- A step takes the oldest input off and runs what its word decodes to. That a command runs from start to response
in one step is R9 of 00_scope.md and R49 of 20_memory.md, and that a reader without a command is idle is R211 of
60_exceptions.md; that the words wait in a list `inbox` (DESIGN CHOICE, notes/assumptions/4.md) and that a request
word may stand there alone (DESIGN CHOICE, notes/assumptions/7.md) are the model's. -/
def Obligations.StepRunsTheDecodedWord : Prop :=
  (∀ (i : Instr) (s : State) (rest : List Input), i.port = .command →
    s.inbox = .command (BitVec.ofNat 67 (encode i)) :: rest → step s = exec i { s with inbox := rest }) ∧
  (∀ (i : Instr) (s : State) (rest : List Input), i.port = .source →
    s.inbox = .request (BitVec.ofNat 65 (encode i)) :: rest → step s = exec i { s with inbox := rest }) ∧
  (∀ (s : State) (cmd : BitVec 67) (rest : List Input),
    s.inbox = .command cmd :: rest → step s = exec (decodeCommand cmd) { s with inbox := rest }) ∧
  (∀ (s : State) (req : BitVec 65) (rest : List Input),
    s.inbox = .request req :: rest → step s = exec (decodeRequest req) { s with inbox := rest }) ∧
  (∀ s : State, s.inbox = [] → step s = .next s)

/-- Nothing the spec leaves arbitrary reaches an output (10_state.md R24, R26; 93_implementation_defined.md U5, U7,
U8, U10): two machines that differ only there end every step alike, with the same trace, or stop alike. -/
def Obligations.ArbitraryStateNeverReachesAnOutput : Prop :=
  ∀ s s' : State, s.Alike s' →
    (∀ t, step s = .next t → ∃ t', step s' = .next t' ∧ t.Alike t') ∧
    (∀ f, step s = .fault f → step s' = .fault f) ∧
    (∀ r, step s = .refused r → step s' = .refused r)

/-! The reader against the stream (95_test_vectors.md 5, properties 1 to 3, 5 and 7). -/

/-- A read inside the stream returns the stream's bits and moves the cursor by its width (41_l1_register.md R109,
44_commands.md R171). -/
def Obligations.ReadReturnsTheStream : Prop :=
  ∀ (s : State) (bytes : List Byte) (base pos : Nat) (n : Arg), s.InStep bytes base pos → 1 ≤ n.toNat →
    n.toNat ≤ 64 → pos + n.toNat ≤ 8 * (bytes.length - base) →
    ∃ (t : State) (ts : List Transaction), exec (.rdu n) s = .next t ∧ t.InStep bytes base (pos + n.toNat) ∧
      t.trace = s.trace ++ ts.map .transaction ++
        [answer (.rdu n) .ok (BitVec.ofNat 64 (bitsValue (((streamBits (bytes.drop base)).drop pos).take n.toNat)))] ∧
      t.params = s.params ∧ t.inbox = s.inbox

/-- A signed read inside the stream (R172). -/
def Obligations.SignedReadReturnsTheStream : Prop :=
  ∀ (s : State) (bytes : List Byte) (base pos : Nat) (n : Arg), s.InStep bytes base pos → 1 ≤ n.toNat →
    n.toNat ≤ 64 → pos + n.toNat ≤ 8 * (bytes.length - base) →
    ∃ (t : State) (ts : List Transaction), exec (.rds n) s = .next t ∧ t.InStep bytes base (pos + n.toNat) ∧
      t.trace = s.trace ++ ts.map .transaction ++
        [answer (.rds n) .ok
          (sext (BitVec.ofNat 64 (bitsValue (((streamBits (bytes.drop base)).drop pos).take n.toNat))) n.toNat)] ∧
      t.params = s.params ∧ t.inbox = s.inbox

/-- A seek inside the stream succeeds and moves the cursor by exactly its count (43_seek.md R150). -/
def Obligations.SeekMovesTheCursor : Prop :=
  ∀ (s : State) (bytes : List Byte) (base pos : Nat) (n : Arg), s.InStep bytes base pos → 1 ≤ n.toNat →
    pos + n.toNat ≤ 8 * (bytes.length - base) →
    ∃ (t : State) (ts : List Transaction), exec (.skb n) s = .next t ∧ t.InStep bytes base (pos + n.toNat) ∧
      t.trace = s.trace ++ ts.map .transaction ++ [answer (.skb n) .ok 0] ∧
      t.params = s.params ∧ t.inbox = s.inbox

/-- A read or a seek past the end of the stream fails, and the reader stays in step, at or after where it stood and
not past the end (44_commands.md R178, 43_seek.md R158, R160). -/
def Obligations.PastTheEndFails : Prop :=
  ∀ (s : State) (bytes : List Byte) (base pos : Nat) (n : Arg) (i : Instr), s.InStep bytes base pos →
    8 * (bytes.length - base) < pos + n.toNat →
    (i = .skb n ∨ n.toNat ≤ 64 ∧ (i = .rdu n ∨ i = .rds n)) →
    ∃ (t : State) (ts : List Transaction) (pos' : Nat), exec i s = .next t ∧ t.InStep bytes base pos' ∧
      pos ≤ pos' ∧ pos' ≤ 8 * (bytes.length - base) ∧
      t.trace = s.trace ++ ts.map .transaction ++ [answer i .fail 0]

/-- In step, the stream position is `logicalBitPos` and POS returns the byte source's cursor (10_state.md R32, R27). -/
def Obligations.InStepPositions : Prop :=
  ∀ (s : State) (bytes : List Byte) (base pos : Nat) (a : Arg), s.InStep bytes base pos →
    s.logicalBitPos = pos ∧ pos ≤ 8 * (bytes.length - base) ∧
    ∃ c, s.source = .mem bytes (base + c) ∧
      exec (.pos a) s = .next (s.emit [answer (.pos a) .ok (BitVec.ofNat 64 c)])

/-- Two readers of any width, buffer size and lane order that stand at the same bit of the same stream answer every
command but POS alike (property 7), with the same status and data, and both stay in step: at the same bit unless the
answer is FAIL, and `n` bits on after an RDU, RDS or SKB of `n` that is answered OK. POS values do differ with the
parameters (property 7); RSY, which restates the position, answers OK in every state (`RsyResynchronises`). -/
def Obligations.ParametersDoNotChangeAnswers : Prop :=
  ∀ (s s' : State) (bytes : List Byte) (base pos : Nat) (i : Instr), s.InStep bytes base pos →
    s'.InStep bytes base pos → i.port = .command → (∀ a, i ≠ .pos a ∧ i ≠ .rsy a) →
    ∃ (t t' : State) (st : Status) (d : Arg) (ts ts' : List Transaction) (q q' : Nat),
      exec i s = .next t ∧ exec i s' = .next t' ∧
      t.trace = s.trace ++ ts.map .transaction ++ [answer i st d] ∧
      t'.trace = s'.trace ++ ts'.map .transaction ++ [answer i st d] ∧
      t.InStep bytes base q ∧ t'.InStep bytes base q' ∧ (st ≠ .fail → q = q') ∧
      ∀ n : Arg, i = .rdu n ∨ i = .rds n ∨ i = .skb n →
        (st = .ok → q = pos + n.toNat) ∧ (pos + n.toNat ≤ 8 * (bytes.length - base) → st ≠ .fail)
end

