-- ==== Sys2Proof/Laws/BitExtract.lean ====
section
/-! SUPPORT. Arithmetic of the word functions and of the byte layout of a line: each as a fact about numbers or about
lists of bytes. -/

namespace Sys2Proof

namespace Params

theorem w_cases (p : Params) : p.w = 32 ∧ p.wb = 4 ∨ p.w = 64 ∧ p.wb = 8 := by
  obtain ⟨width, _, _⟩ := p
  cases width
  · exact .inl (by simp [Params.wb, Params.w, WordWidth.bits])
  · exact .inr (by simp [Params.wb, Params.w, WordWidth.bits])

theorem w_eq (p : Params) : p.w = 8 * p.wb := by rcases p.w_cases with ⟨h, h'⟩ | ⟨h, h'⟩ <;> omega
theorem w_le (p : Params) : p.w ≤ 64 := by rcases p.w_cases with ⟨h, _⟩ | ⟨h, _⟩ <;> omega
theorem le_w (p : Params) : 32 ≤ p.w := by rcases p.w_cases with ⟨h, _⟩ | ⟨h, _⟩ <;> omega
theorem wb_le (p : Params) : p.wb ≤ 8 := by rcases p.w_cases with ⟨_, h⟩ | ⟨_, h⟩ <;> omega
theorem le_wb (p : Params) : 4 ≤ p.wb := by rcases p.w_cases with ⟨_, h⟩ | ⟨_, h⟩ <;> omega

/-- `L2_BYTES = L2_LINE_COUNT * WB` (R7). -/
theorem l2Bytes_eq {p : Params} (h : p.wf) : p.l2Bytes = p.lineCount * p.wb :=
  (Nat.div_mul_cancel (Nat.dvd_of_mod_eq_zero h.2.1)).symm

theorem lineCount_pos {p : Params} (h : p.wf) : 1 ≤ p.lineCount := by
  have h1 := l2Bytes_eq h
  have h2 := h.1
  rcases Nat.eq_zero_or_pos p.lineCount with h0 | h0
  · rw [h0] at h1; omega
  · exact h0

theorem two_pow_w_le (p : Params) : 2 ^ p.w ≤ 2 ^ 64 := Nat.pow_le_pow_right (by decide) p.w_le

theorem two_pow_w_eq (p : Params) : 2 ^ p.w = 256 ^ p.wb := by rw [w_eq, Nat.pow_mul]

end Params

namespace Machine

theorem toNat_ofNat_of_lt {n : Nat} (h : n < 2 ^ 64) : (BitVec.ofNat 64 n).toNat = n := by
  rw [BitVec.toNat_ofNat, Nat.mod_eq_of_lt h]

/-! Shifts. -/

theorem shlW_toNat {w : Nat} (hw : w ≤ 64) (x : Word) (k : Nat) : (shlW w x k).toNat = x.toNat * 2 ^ k % 2 ^ w :=
  toNat_ofNat_of_lt (Nat.lt_of_lt_of_le (Nat.mod_lt _ (Nat.two_pow_pos w)) (Nat.pow_le_pow_right (by decide) hw))

theorem shrW_toNat (x : Word) (k : Nat) : (shrW x k).toNat = x.toNat / 2 ^ k :=
  toNat_ofNat_of_lt (Nat.lt_of_le_of_lt (Nat.div_le_self _ _) x.isLt)

theorem shlW_lt {w : Nat} (hw : w ≤ 64) (x : Word) (k : Nat) : (shlW w x k).toNat < 2 ^ w := by
  rw [shlW_toNat hw]; exact Nat.mod_lt _ (Nat.two_pow_pos w)

/-- A left shift feeds zeros in at the least significant end: with `c` zeros already there, `n + c` afterwards. -/
theorem shlW_low_zero {w c n : Nat} (hw : w ≤ 64) {x : Word} (hx : ∀ i < c, x.getLsbD i = false) {i : Nat}
    (hi : i < c + n) : (shlW w x n).getLsbD i = false := by
  rw [BitVec.getLsbD, shlW_toNat hw, Nat.testBit_mod_two_pow, Nat.testBit_mul_two_pow]
  by_cases h : n ≤ i
  · have := hx (i - n) (by omega)
    rw [BitVec.getLsbD] at this
    simp [this]
  · simp [h]

theorem and_lt_two_pow {w : Nat} {x y : Word} (hx : x.toNat < 2 ^ w) : (x &&& y).toNat < 2 ^ w := by
  rw [BitVec.toNat_and]; exact Nat.lt_of_le_of_lt Nat.and_le_left hx

theorem dropBits_lt (p : Params) (c : Word) (n : Nat) : (dropBits p.w c n).toNat < 2 ^ p.w := shlW_lt p.w_le c n

theorem tailMask_lt (p : Params) {c : Word} (h : c.toNat < 2 ^ p.w) (cb : Nat) :
    (tailMask p.w c cb).toNat < 2 ^ p.w := and_lt_two_pow h

/-- The tail mask leaves the `cb` least significant bits zero. -/
theorem tailMask_low_zero (p : Params) (c : Word) {cb i : Nat} (h : cb ≤ p.w) (hi : i < cb) :
    (tailMask p.w c cb).getLsbD i = false := by
  have hm : (selMask p.w (p.w - cb)).getLsbD i = false := by
    refine shlW_low_zero (c := 0) p.w_le (fun j hj => absurd hj (by omega)) (i := i) ?_
    omega
  simp [tailMask, hm]

/-- The tail mask clears the `cb` least significant bits and keeps the others. -/
theorem tailMask_toNat (p : Params) {c : Word} (hc : c.toNat < 2 ^ p.w) {cb : Nat} (h : cb ≤ p.w) :
    (tailMask p.w c cb).toNat = c.toNat / 2 ^ cb * 2 ^ cb := by
  have hw := p.w_le
  have hm : (BitVec.ofNat 64 (2 ^ (p.w - cb) - 1)).toNat = 2 ^ (p.w - cb) - 1 :=
    toNat_ofNat_of_lt (by have := Nat.pow_le_pow_right (n := 2) (by decide) (show p.w - cb ≤ 64 by omega); have := Nat.two_pow_pos (p.w - cb); omega)
  rw [tailMask, BitVec.toNat_and, selMask, shlW_toNat hw, hm, show p.w - (p.w - cb) = cb by omega]
  apply Nat.eq_of_testBit_eq
  intro i
  rw [Nat.testBit_and, Nat.testBit_mod_two_pow, Nat.testBit_mul_two_pow, Nat.testBit_mul_two_pow,
    Nat.testBit_two_pow_sub_one, Nat.testBit_div_two_pow]
  by_cases h1 : cb ≤ i
  · by_cases h2 : i < p.w
    · rw [Nat.sub_add_cancel h1]
      simp [h1, h2]; omega
    · have : c.toNat.testBit i = false :=
        Nat.testBit_lt_two_pow (Nat.lt_of_lt_of_le hc (Nat.pow_le_pow_right (by decide) (by omega)))
      rw [Nat.sub_add_cancel h1, this]; simp
  · simp [h1]

/-! Bytes. -/

@[simp] theorem bytesLE_length (n x : Nat) : (bytesLE n x).length = n := by
  induction n generalizing x with
  | zero => rfl
  | succ n ih => simp [bytesLE, ih]

theorem ofBytesLE_lt (bs : List Byte) : ofBytesLE bs < 256 ^ bs.length := by
  induction bs with
  | nil => simp [ofBytesLE]
  | cons b bs ih =>
    have := b.isLt
    simp only [ofBytesLE, List.length_cons, Nat.pow_succ]
    omega

theorem bytesLE_ofBytesLE (bs : List Byte) : bytesLE bs.length (ofBytesLE bs) = bs := by
  induction bs with
  | nil => rfl
  | cons b bs ih =>
    have hb := b.isLt
    have h1 : (b.toNat + 256 * ofBytesLE bs) / 256 = ofBytesLE bs := by omega
    have h2 : BitVec.ofNat 8 (b.toNat + 256 * ofBytesLE bs) = b := by
      apply BitVec.eq_of_toNat_eq
      rw [BitVec.toNat_ofNat]
      omega
    simp [ofBytesLE, bytesLE, h1, h2, ih]

theorem ofBytesLE_bytesLE (n x : Nat) : ofBytesLE (bytesLE n x) = x % 256 ^ n := by
  induction n generalizing x with
  | zero => simp [bytesLE, ofBytesLE, Nat.mod_one]
  | succ n ih =>
    have h : x % 256 ^ (n + 1) = x % 256 + 256 * (x / 256 % 256 ^ n) := by rw [Nat.pow_succ', Nat.mod_mul]
    rw [bytesLE, ofBytesLE, ih, BitVec.toNat_ofNat, h]

theorem ofBytesBE_lt (bs : List Byte) : ofBytesBE bs < 256 ^ bs.length := by
  have := ofBytesLE_lt bs.reverse
  rwa [List.length_reverse] at this

theorem ofBytesLE_append (xs ys : List Byte) : ofBytesLE (xs ++ ys) = ofBytesLE xs + 256 ^ xs.length * ofBytesLE ys := by
  induction xs with
  | nil => simp [ofBytesLE]
  | cons x xs ih =>
    simp only [List.cons_append, ofBytesLE, ih, List.length_cons, Nat.pow_succ', Nat.mul_assoc, Nat.mul_add]
    omega

theorem ofBytesBE_append (xs ys : List Byte) : ofBytesBE (xs ++ ys) = ofBytesBE xs * 256 ^ ys.length + ofBytesBE ys := by
  simp only [ofBytesBE, List.reverse_append, ofBytesLE_append, List.length_reverse]
  rw [Nat.mul_comm, Nat.add_comm]

/-! Lines. -/

@[simp] theorem lineSlots_length (p : Params) (x : Word) : (lineSlots p x).length = p.wb := by
  unfold lineSlots; split <;> simp

theorem ofBytes_lt_two_pow {p : Params} {bs : List Byte} (h : bs.length = p.wb) :
    ofBytesLE bs < 2 ^ p.w ∧ ofBytesBE bs < 2 ^ p.w := by
  rw [p.two_pow_w_eq, ← h]; exact ⟨ofBytesLE_lt bs, ofBytesBE_lt bs⟩

theorem lineOfSlots_toNat {p : Params} {bs : List Byte} (h : bs.length = p.wb) :
    (lineOfSlots p bs).toNat = if p.laneLittle then ofBytesLE bs else ofBytesBE bs := by
  have := ofBytes_lt_two_pow h
  have := p.two_pow_w_le
  apply toNat_ofNat_of_lt
  split <;> omega

theorem lineOfSlots_lt {p : Params} {bs : List Byte} (h : bs.length = p.wb) :
    (lineOfSlots p bs).toNat < 2 ^ p.w := by
  have := ofBytes_lt_two_pow h
  rw [lineOfSlots_toNat h]
  split <;> omega

/-- Reading the slots of a line built from slots gives them back. -/
theorem lineSlots_lineOfSlots {p : Params} {bs : List Byte} (h : bs.length = p.wb) :
    lineSlots p (lineOfSlots p bs) = bs := by
  unfold lineSlots
  rw [lineOfSlots_toNat h, ← h]
  split
  · exact bytesLE_ofBytesLE bs
  · have := bytesLE_ofBytesLE bs.reverse
    rw [List.length_reverse] at this
    rw [ofBytesBE, this, List.reverse_reverse]

/-- Building a line from its own slots gives it back. -/
theorem lineOfSlots_lineSlots {p : Params} {x : Word} (h : x.toNat < 2 ^ p.w) : lineOfSlots p (lineSlots p x) = x := by
  have hx : x.toNat % 256 ^ p.wb = x.toNat := Nat.mod_eq_of_lt (p.two_pow_w_eq ▸ h)
  apply BitVec.eq_of_toNat_eq
  rw [lineOfSlots_toNat (lineSlots_length p x)]
  unfold lineSlots
  split
  · rw [ofBytesLE_bytesLE, hx]
  · rw [ofBytesBE, List.reverse_reverse, ofBytesLE_bytesLE, hx]

/-- Normalising a stored line puts its first slot at the most significant end, whatever the lane order (R83). -/
theorem beNorm_lineOfSlots {p : Params} {bs : List Byte} (h : bs.length = p.wb) :
    (beNorm p (lineOfSlots p bs)).toNat = ofBytesBE bs := by
  have h1 := ofBytes_lt_two_pow h
  have h2 := p.two_pow_w_le
  have h3 := lineOfSlots_toNat h
  unfold beNorm
  split
  · next hl =>
    rw [if_pos hl] at h3
    rw [byteSwap, h3, ← h, bytesLE_ofBytesLE]
    exact toNat_ofNat_of_lt (by omega)
  · next hl => rw [h3, if_neg hl]

theorem beNorm_lt {p : Params} {x : Word} (h : x.toNat < 2 ^ p.w) : (beNorm p x).toNat < 2 ^ p.w := by
  rw [← lineOfSlots_lineSlots h, beNorm_lineOfSlots (lineSlots_length p x)]
  exact (ofBytes_lt_two_pow (lineSlots_length p x)).2

end Machine
end Sys2Proof
end

