-- ==== Sys2Proof/Laws/State.lean ====
section
/-! SUPPORT. What each named update of the state does to each field: one lemma per field and update, true by rfl. -/

namespace Sys2Proof.Machine

/-! `log` -/

@[simp] theorem log_params (s : State) (t : Transaction) : (s.log t).params = s.params := rfl
@[simp] theorem log_cache (s : State) (t : Transaction) : (s.log t).cache = s.cache := rfl
@[simp] theorem log_consumedBits (s : State) (t : Transaction) : (s.log t).consumedBits = s.consumedBits := rfl
@[simp] theorem log_lines (s : State) (t : Transaction) : (s.log t).lines = s.lines := rfl
@[simp] theorem log_nextLine (s : State) (t : Transaction) : (s.log t).nextLine = s.nextLine := rfl
@[simp] theorem log_unusedLines (s : State) (t : Transaction) : (s.log t).unusedLines = s.unusedLines := rfl
@[simp] theorem log_currentBytePos (s : State) (t : Transaction) : (s.log t).currentBytePos = s.currentBytePos := rfl
@[simp] theorem log_fault (s : State) (t : Transaction) : (s.log t).fault = s.fault := rfl
@[simp] theorem log_source (s : State) (t : Transaction) : (s.log t).source = s.source := rfl
@[simp] theorem log_inbox (s : State) (t : Transaction) : (s.log t).inbox = s.inbox := rfl
@[simp] theorem log_trace (s : State) (t : Transaction) : (s.log t).trace = s.trace ++ [.transaction t] := rfl
@[simp] theorem log_freeCount (s : State) (t : Transaction) : (s.log t).freeCount = s.freeCount := rfl

/-! `emit` -/

@[simp] theorem emit_params (s : State) (evs : List Event) : (s.emit evs).params = s.params := rfl
@[simp] theorem emit_cache (s : State) (evs : List Event) : (s.emit evs).cache = s.cache := rfl
@[simp] theorem emit_consumedBits (s : State) (evs : List Event) : (s.emit evs).consumedBits = s.consumedBits := rfl
@[simp] theorem emit_lines (s : State) (evs : List Event) : (s.emit evs).lines = s.lines := rfl
@[simp] theorem emit_nextLine (s : State) (evs : List Event) : (s.emit evs).nextLine = s.nextLine := rfl
@[simp] theorem emit_unusedLines (s : State) (evs : List Event) : (s.emit evs).unusedLines = s.unusedLines := rfl
@[simp] theorem emit_currentBytePos (s : State) (evs : List Event) :
    (s.emit evs).currentBytePos = s.currentBytePos := rfl
@[simp] theorem emit_fault (s : State) (evs : List Event) : (s.emit evs).fault = s.fault := rfl
@[simp] theorem emit_source (s : State) (evs : List Event) : (s.emit evs).source = s.source := rfl
@[simp] theorem emit_inbox (s : State) (evs : List Event) : (s.emit evs).inbox = s.inbox := rfl
@[simp] theorem emit_trace (s : State) (evs : List Event) : (s.emit evs).trace = s.trace ++ evs := rfl
@[simp] theorem emit_freeCount (s : State) (evs : List Event) : (s.emit evs).freeCount = s.freeCount := rfl

/-! `withInbox` -/

@[simp] theorem withInbox_params (s : State) (rest : List Input) : (s.withInbox rest).params = s.params := rfl
@[simp] theorem withInbox_cache (s : State) (rest : List Input) : (s.withInbox rest).cache = s.cache := rfl
@[simp] theorem withInbox_consumedBits (s : State) (rest : List Input) :
    (s.withInbox rest).consumedBits = s.consumedBits := rfl
@[simp] theorem withInbox_lines (s : State) (rest : List Input) : (s.withInbox rest).lines = s.lines := rfl
@[simp] theorem withInbox_nextLine (s : State) (rest : List Input) : (s.withInbox rest).nextLine = s.nextLine := rfl
@[simp] theorem withInbox_unusedLines (s : State) (rest : List Input) :
    (s.withInbox rest).unusedLines = s.unusedLines := rfl
@[simp] theorem withInbox_currentBytePos (s : State) (rest : List Input) :
    (s.withInbox rest).currentBytePos = s.currentBytePos := rfl
@[simp] theorem withInbox_fault (s : State) (rest : List Input) : (s.withInbox rest).fault = s.fault := rfl
@[simp] theorem withInbox_source (s : State) (rest : List Input) : (s.withInbox rest).source = s.source := rfl
@[simp] theorem withInbox_inbox (s : State) (rest : List Input) : (s.withInbox rest).inbox = rest := rfl
@[simp] theorem withInbox_trace (s : State) (rest : List Input) : (s.withInbox rest).trace = s.trace := rfl
@[simp] theorem withInbox_freeCount (s : State) (rest : List Input) :
    (s.withInbox rest).freeCount = s.freeCount := rfl

/-! `consume` -/

@[simp] theorem consume_params (n : Nat) (s : State) : (consume n s).params = s.params := rfl
@[simp] theorem consume_cache (n : Nat) (s : State) : (consume n s).cache = dropBits s.params.w s.cache n := rfl
@[simp] theorem consume_consumedBits (n : Nat) (s : State) : (consume n s).consumedBits = s.consumedBits + n := rfl
@[simp] theorem consume_lines (n : Nat) (s : State) : (consume n s).lines = s.lines := rfl
@[simp] theorem consume_nextLine (n : Nat) (s : State) : (consume n s).nextLine = s.nextLine := rfl
@[simp] theorem consume_unusedLines (n : Nat) (s : State) : (consume n s).unusedLines = s.unusedLines := rfl
@[simp] theorem consume_currentBytePos (n : Nat) (s : State) : (consume n s).currentBytePos = s.currentBytePos := rfl
@[simp] theorem consume_fault (n : Nat) (s : State) : (consume n s).fault = s.fault := rfl
@[simp] theorem consume_source (n : Nat) (s : State) : (consume n s).source = s.source := rfl
@[simp] theorem consume_inbox (n : Nat) (s : State) : (consume n s).inbox = s.inbox := rfl
@[simp] theorem consume_trace (n : Nat) (s : State) : (consume n s).trace = s.trace := rfl
@[simp] theorem consume_freeCount (n : Nat) (s : State) : (consume n s).freeCount = s.freeCount := rfl

/-! `loadL1` -/

@[simp] theorem loadL1_params (x : Word) (cb : Nat) (s : State) : (loadL1 x cb s).params = s.params := rfl
@[simp] theorem loadL1_cache (x : Word) (cb : Nat) (s : State) : (loadL1 x cb s).cache = x := rfl
@[simp] theorem loadL1_consumedBits (x : Word) (cb : Nat) (s : State) : (loadL1 x cb s).consumedBits = cb := rfl
@[simp] theorem loadL1_lines (x : Word) (cb : Nat) (s : State) : (loadL1 x cb s).lines = s.lines := rfl
@[simp] theorem loadL1_nextLine (x : Word) (cb : Nat) (s : State) : (loadL1 x cb s).nextLine = s.nextLine := rfl
@[simp] theorem loadL1_unusedLines (x : Word) (cb : Nat) (s : State) :
    (loadL1 x cb s).unusedLines = s.unusedLines := rfl
@[simp] theorem loadL1_currentBytePos (x : Word) (cb : Nat) (s : State) :
    (loadL1 x cb s).currentBytePos = s.currentBytePos := rfl
@[simp] theorem loadL1_fault (x : Word) (cb : Nat) (s : State) : (loadL1 x cb s).fault = s.fault := rfl
@[simp] theorem loadL1_source (x : Word) (cb : Nat) (s : State) : (loadL1 x cb s).source = s.source := rfl
@[simp] theorem loadL1_inbox (x : Word) (cb : Nat) (s : State) : (loadL1 x cb s).inbox = s.inbox := rfl
@[simp] theorem loadL1_trace (x : Word) (cb : Nat) (s : State) : (loadL1 x cb s).trace = s.trace := rfl
@[simp] theorem loadL1_freeCount (x : Word) (cb : Nat) (s : State) : (loadL1 x cb s).freeCount = s.freeCount := rfl

/-! `clearL1` -/

@[simp] theorem clearL1_params (s : State) : (clearL1 s).params = s.params := rfl
@[simp] theorem clearL1_cache (s : State) : (clearL1 s).cache = 0 := rfl
@[simp] theorem clearL1_consumedBits (s : State) : (clearL1 s).consumedBits = s.params.w := rfl
@[simp] theorem clearL1_lines (s : State) : (clearL1 s).lines = s.lines := rfl
@[simp] theorem clearL1_nextLine (s : State) : (clearL1 s).nextLine = s.nextLine := rfl
@[simp] theorem clearL1_unusedLines (s : State) : (clearL1 s).unusedLines = s.unusedLines := rfl
@[simp] theorem clearL1_currentBytePos (s : State) : (clearL1 s).currentBytePos = s.currentBytePos := rfl
@[simp] theorem clearL1_fault (s : State) : (clearL1 s).fault = s.fault := rfl
@[simp] theorem clearL1_source (s : State) : (clearL1 s).source = s.source := rfl
@[simp] theorem clearL1_inbox (s : State) : (clearL1 s).inbox = s.inbox := rfl
@[simp] theorem clearL1_trace (s : State) : (clearL1 s).trace = s.trace := rfl
@[simp] theorem clearL1_freeCount (s : State) : (clearL1 s).freeCount = s.freeCount := rfl

/-! `fillBuffer` -/

@[simp] theorem fillBuffer_params (b : List Byte) (s : State) : (fillBuffer b s).params = s.params := rfl
@[simp] theorem fillBuffer_cache (b : List Byte) (s : State) : (fillBuffer b s).cache = s.cache := rfl
@[simp] theorem fillBuffer_consumedBits (b : List Byte) (s : State) :
    (fillBuffer b s).consumedBits = s.consumedBits := rfl
@[simp] theorem fillBuffer_lines (b : List Byte) (s : State) :
    (fillBuffer b s).lines = writeLines s.params b s.lines := rfl
@[simp] theorem fillBuffer_nextLine (b : List Byte) (s : State) : (fillBuffer b s).nextLine = s.nextLine := rfl
@[simp] theorem fillBuffer_unusedLines (b : List Byte) (s : State) :
    (fillBuffer b s).unusedLines = s.unusedLines := rfl
@[simp] theorem fillBuffer_currentBytePos (b : List Byte) (s : State) :
    (fillBuffer b s).currentBytePos = s.currentBytePos := rfl
@[simp] theorem fillBuffer_fault (b : List Byte) (s : State) : (fillBuffer b s).fault = s.fault := rfl
@[simp] theorem fillBuffer_source (b : List Byte) (s : State) : (fillBuffer b s).source = s.source := rfl
@[simp] theorem fillBuffer_inbox (b : List Byte) (s : State) : (fillBuffer b s).inbox = s.inbox := rfl
@[simp] theorem fillBuffer_trace (b : List Byte) (s : State) : (fillBuffer b s).trace = s.trace := rfl
@[simp] theorem fillBuffer_freeCount (b : List Byte) (s : State) : (fillBuffer b s).freeCount = s.freeCount := rfl

/-! `setIndices` -/

@[simp] theorem setIndices_params (n u : Nat) (s : State) : (setIndices n u s).params = s.params := rfl
@[simp] theorem setIndices_cache (n u : Nat) (s : State) : (setIndices n u s).cache = s.cache := rfl
@[simp] theorem setIndices_consumedBits (n u : Nat) (s : State) :
    (setIndices n u s).consumedBits = s.consumedBits := rfl
@[simp] theorem setIndices_lines (n u : Nat) (s : State) : (setIndices n u s).lines = s.lines := rfl
@[simp] theorem setIndices_nextLine (n u : Nat) (s : State) : (setIndices n u s).nextLine = n := rfl
@[simp] theorem setIndices_unusedLines (n u : Nat) (s : State) : (setIndices n u s).unusedLines = u := rfl
@[simp] theorem setIndices_currentBytePos (n u : Nat) (s : State) :
    (setIndices n u s).currentBytePos = s.currentBytePos := rfl
@[simp] theorem setIndices_fault (n u : Nat) (s : State) : (setIndices n u s).fault = s.fault := rfl
@[simp] theorem setIndices_source (n u : Nat) (s : State) : (setIndices n u s).source = s.source := rfl
@[simp] theorem setIndices_inbox (n u : Nat) (s : State) : (setIndices n u s).inbox = s.inbox := rfl
@[simp] theorem setIndices_trace (n u : Nat) (s : State) : (setIndices n u s).trace = s.trace := rfl
@[simp] theorem setIndices_freeCount (n u : Nat) (s : State) : (setIndices n u s).freeCount = s.freeCount := rfl

/-! `packLines` -/

@[simp] theorem packLines_params (k : Nat) (s : State) : (packLines k s).params = s.params := rfl
@[simp] theorem packLines_cache (k : Nat) (s : State) : (packLines k s).cache = s.cache := rfl
@[simp] theorem packLines_consumedBits (k : Nat) (s : State) : (packLines k s).consumedBits = s.consumedBits := rfl
@[simp] theorem packLines_lines (k : Nat) (s : State) :
    (packLines k s).lines = forgetLines s.params (s.params.lineCount - k) s.freeCount (moveLines (s.params.lineCount - k) k s.lines) := rfl
@[simp] theorem packLines_nextLine (k : Nat) (s : State) : (packLines k s).nextLine = s.params.lineCount - k := rfl
@[simp] theorem packLines_unusedLines (k : Nat) (s : State) :
    (packLines k s).unusedLines = s.params.lineCount - k := rfl
@[simp] theorem packLines_currentBytePos (k : Nat) (s : State) :
    (packLines k s).currentBytePos = s.currentBytePos := rfl
@[simp] theorem packLines_fault (k : Nat) (s : State) : (packLines k s).fault = s.fault := rfl
@[simp] theorem packLines_source (k : Nat) (s : State) : (packLines k s).source = s.source := rfl
@[simp] theorem packLines_inbox (k : Nat) (s : State) : (packLines k s).inbox = s.inbox := rfl
@[simp] theorem packLines_trace (k : Nat) (s : State) : (packLines k s).trace = s.trace := rfl
@[simp] theorem packLines_freeCount (k : Nat) (s : State) :
    (packLines k s).freeCount = s.freeCount + (s.params.lineCount - k) := rfl

/-! `l2Pop` -/

@[simp] theorem l2Pop_params (s : State) : (l2Pop s).params = s.params := rfl
@[simp] theorem l2Pop_cache (s : State) : (l2Pop s).cache = beNorm s.params (s.lines.getD s.nextLine 0) := rfl
@[simp] theorem l2Pop_consumedBits (s : State) : (l2Pop s).consumedBits = 0 := rfl
@[simp] theorem l2Pop_lines (s : State) : (l2Pop s).lines = s.lines := rfl
@[simp] theorem l2Pop_nextLine (s : State) : (l2Pop s).nextLine = s.nextLine + 1 := rfl
@[simp] theorem l2Pop_unusedLines (s : State) : (l2Pop s).unusedLines = s.unusedLines := rfl
@[simp] theorem l2Pop_currentBytePos (s : State) : (l2Pop s).currentBytePos = s.currentBytePos := rfl
@[simp] theorem l2Pop_fault (s : State) : (l2Pop s).fault = s.fault := rfl
@[simp] theorem l2Pop_source (s : State) : (l2Pop s).source = s.source := rfl
@[simp] theorem l2Pop_inbox (s : State) : (l2Pop s).inbox = s.inbox := rfl
@[simp] theorem l2Pop_trace (s : State) : (l2Pop s).trace = s.trace := rfl
@[simp] theorem l2Pop_freeCount (s : State) : (l2Pop s).freeCount = s.freeCount := rfl

/-! `loadTail` -/

@[simp] theorem loadTail_params (b : List Byte) (s : State) : (loadTail b s).params = s.params := rfl
@[simp] theorem loadTail_cache (b : List Byte) (s : State) :
    (loadTail b s).cache = tailWord s.params b s.freeCount := rfl
@[simp] theorem loadTail_consumedBits (b : List Byte) (s : State) :
    (loadTail b s).consumedBits = (s.params.wb - b.length) * 8 := rfl
@[simp] theorem loadTail_lines (b : List Byte) (s : State) : (loadTail b s).lines = s.lines := rfl
@[simp] theorem loadTail_nextLine (b : List Byte) (s : State) : (loadTail b s).nextLine = s.nextLine := rfl
@[simp] theorem loadTail_unusedLines (b : List Byte) (s : State) : (loadTail b s).unusedLines = s.unusedLines := rfl
@[simp] theorem loadTail_currentBytePos (b : List Byte) (s : State) :
    (loadTail b s).currentBytePos = s.currentBytePos := rfl
@[simp] theorem loadTail_fault (b : List Byte) (s : State) : (loadTail b s).fault = s.fault := rfl
@[simp] theorem loadTail_source (b : List Byte) (s : State) : (loadTail b s).source = s.source := rfl
@[simp] theorem loadTail_inbox (b : List Byte) (s : State) : (loadTail b s).inbox = s.inbox := rfl
@[simp] theorem loadTail_trace (b : List Byte) (s : State) : (loadTail b s).trace = s.trace := rfl
@[simp] theorem loadTail_freeCount (b : List Byte) (s : State) :
    (loadTail b s).freeCount = s.freeCount + (s.params.wb - b.length) := rfl

/-! `exhaustL2` -/

@[simp] theorem exhaustL2_params (s : State) : (exhaustL2 s).params = s.params := rfl
@[simp] theorem exhaustL2_cache (s : State) : (exhaustL2 s).cache = s.cache := rfl
@[simp] theorem exhaustL2_consumedBits (s : State) : (exhaustL2 s).consumedBits = s.consumedBits := rfl
@[simp] theorem exhaustL2_lines (s : State) : (exhaustL2 s).lines = s.lines := rfl
@[simp] theorem exhaustL2_nextLine (s : State) : (exhaustL2 s).nextLine = s.params.lineCount := rfl
@[simp] theorem exhaustL2_unusedLines (s : State) : (exhaustL2 s).unusedLines = s.params.lineCount := rfl
@[simp] theorem exhaustL2_currentBytePos (s : State) : (exhaustL2 s).currentBytePos = s.currentBytePos := rfl
@[simp] theorem exhaustL2_fault (s : State) : (exhaustL2 s).fault = s.fault := rfl
@[simp] theorem exhaustL2_source (s : State) : (exhaustL2 s).source = s.source := rfl
@[simp] theorem exhaustL2_inbox (s : State) : (exhaustL2 s).inbox = s.inbox := rfl
@[simp] theorem exhaustL2_trace (s : State) : (exhaustL2 s).trace = s.trace := rfl
@[simp] theorem exhaustL2_freeCount (s : State) : (exhaustL2 s).freeCount = s.freeCount := rfl

/-! `skipLines` -/

@[simp] theorem skipLines_params (k : Nat) (s : State) : (skipLines k s).params = s.params := rfl
@[simp] theorem skipLines_cache (k : Nat) (s : State) : (skipLines k s).cache = 0 := rfl
@[simp] theorem skipLines_consumedBits (k : Nat) (s : State) : (skipLines k s).consumedBits = s.params.w := rfl
@[simp] theorem skipLines_lines (k : Nat) (s : State) : (skipLines k s).lines = s.lines := rfl
@[simp] theorem skipLines_nextLine (k : Nat) (s : State) : (skipLines k s).nextLine = s.nextLine + k := rfl
@[simp] theorem skipLines_unusedLines (k : Nat) (s : State) : (skipLines k s).unusedLines = s.unusedLines := rfl
@[simp] theorem skipLines_currentBytePos (k : Nat) (s : State) :
    (skipLines k s).currentBytePos = s.currentBytePos := rfl
@[simp] theorem skipLines_fault (k : Nat) (s : State) : (skipLines k s).fault = s.fault := rfl
@[simp] theorem skipLines_source (k : Nat) (s : State) : (skipLines k s).source = s.source := rfl
@[simp] theorem skipLines_inbox (k : Nat) (s : State) : (skipLines k s).inbox = s.inbox := rfl
@[simp] theorem skipLines_trace (k : Nat) (s : State) : (skipLines k s).trace = s.trace := rfl
@[simp] theorem skipLines_freeCount (k : Nat) (s : State) : (skipLines k s).freeCount = s.freeCount := rfl

/-! `resync` -/

@[simp] theorem resync_params (p : Arg) (s : State) : (resync p s).params = s.params := rfl
@[simp] theorem resync_cache (p : Arg) (s : State) : (resync p s).cache = 0 := rfl
@[simp] theorem resync_consumedBits (p : Arg) (s : State) : (resync p s).consumedBits = s.params.w := rfl
@[simp] theorem resync_lines (p : Arg) (s : State) : (resync p s).lines = s.lines := rfl
@[simp] theorem resync_nextLine (p : Arg) (s : State) : (resync p s).nextLine = s.params.lineCount := rfl
@[simp] theorem resync_unusedLines (p : Arg) (s : State) : (resync p s).unusedLines = 0 := rfl
@[simp] theorem resync_currentBytePos (p : Arg) (s : State) : (resync p s).currentBytePos = p := rfl
@[simp] theorem resync_fault (p : Arg) (s : State) : (resync p s).fault = false := rfl
@[simp] theorem resync_source (p : Arg) (s : State) : (resync p s).source = s.source := rfl
@[simp] theorem resync_inbox (p : Arg) (s : State) : (resync p s).inbox = s.inbox := rfl
@[simp] theorem resync_trace (p : Arg) (s : State) : (resync p s).trace = s.trace := rfl
@[simp] theorem resync_freeCount (p : Arg) (s : State) : (resync p s).freeCount = s.freeCount := rfl

/-! `touchSource` -/

@[simp] theorem touchSource_params (src : ByteSource) (s : State) : (touchSource src s).params = s.params := rfl
@[simp] theorem touchSource_cache (src : ByteSource) (s : State) : (touchSource src s).cache = s.cache := rfl
@[simp] theorem touchSource_consumedBits (src : ByteSource) (s : State) :
    (touchSource src s).consumedBits = s.consumedBits := rfl
@[simp] theorem touchSource_lines (src : ByteSource) (s : State) : (touchSource src s).lines = s.lines := rfl
@[simp] theorem touchSource_nextLine (src : ByteSource) (s : State) : (touchSource src s).nextLine = s.nextLine := rfl
@[simp] theorem touchSource_unusedLines (src : ByteSource) (s : State) :
    (touchSource src s).unusedLines = s.unusedLines := rfl
@[simp] theorem touchSource_currentBytePos (src : ByteSource) (s : State) :
    (touchSource src s).currentBytePos = s.currentBytePos := rfl
@[simp] theorem touchSource_fault (src : ByteSource) (s : State) : (touchSource src s).fault = s.fault := rfl
@[simp] theorem touchSource_source (src : ByteSource) (s : State) : (touchSource src s).source = src := rfl
@[simp] theorem touchSource_inbox (src : ByteSource) (s : State) : (touchSource src s).inbox = s.inbox := rfl
@[simp] theorem touchSource_trace (src : ByteSource) (s : State) : (touchSource src s).trace = s.trace := rfl
@[simp] theorem touchSource_freeCount (src : ByteSource) (s : State) :
    (touchSource src s).freeCount = s.freeCount := rfl

/-! `raiseFault` -/

@[simp] theorem raiseFault_params (s : State) : (raiseFault s).params = s.params := rfl
@[simp] theorem raiseFault_cache (s : State) : (raiseFault s).cache = anyWord s.params s.freeCount := rfl
@[simp] theorem raiseFault_consumedBits (s : State) :
    (raiseFault s).consumedBits = anyCounter s.params.w s.freeCount := rfl
@[simp] theorem raiseFault_lines (s : State) :
    (raiseFault s).lines = (List.range s.params.lineCount).map fun i => anyWord s.params (s.freeCount + 1 + i) := rfl
@[simp] theorem raiseFault_nextLine (s : State) :
    (raiseFault s).nextLine = anyCounter s.params.lineCount (s.freeCount + 1) := rfl
@[simp] theorem raiseFault_unusedLines (s : State) :
    (raiseFault s).unusedLines = anyCounter s.params.lineCount (s.freeCount + 2) := rfl
@[simp] theorem raiseFault_currentBytePos (s : State) :
    (raiseFault s).currentBytePos = Config.freePosition s.freeCount := rfl
@[simp] theorem raiseFault_fault (s : State) : (raiseFault s).fault = true := rfl
@[simp] theorem raiseFault_source (s : State) : (raiseFault s).source = s.source := rfl
@[simp] theorem raiseFault_inbox (s : State) : (raiseFault s).inbox = s.inbox := rfl
@[simp] theorem raiseFault_trace (s : State) : (raiseFault s).trace = s.trace := rfl
@[simp] theorem raiseFault_freeCount (s : State) :
    (raiseFault s).freeCount = s.freeCount + 3 + s.params.lineCount := rfl

/-! `resetReader` -/

@[simp] theorem resetReader_params (s : State) : (resetReader s).params = s.params := rfl
@[simp] theorem resetReader_cache (s : State) : (resetReader s).cache = 0 := rfl
@[simp] theorem resetReader_consumedBits (s : State) : (resetReader s).consumedBits = s.params.w := rfl
@[simp] theorem resetReader_lines (s : State) : (resetReader s).lines = List.replicate s.params.lineCount 0 := rfl
@[simp] theorem resetReader_nextLine (s : State) : (resetReader s).nextLine = s.params.lineCount := rfl
@[simp] theorem resetReader_unusedLines (s : State) : (resetReader s).unusedLines = 0 := rfl
@[simp] theorem resetReader_currentBytePos (s : State) : (resetReader s).currentBytePos = 0 := rfl
@[simp] theorem resetReader_fault (s : State) : (resetReader s).fault = false := rfl
@[simp] theorem resetReader_source (s : State) : (resetReader s).source = s.source := rfl
@[simp] theorem resetReader_inbox (s : State) : (resetReader s).inbox = s.inbox := rfl
@[simp] theorem resetReader_trace (s : State) : (resetReader s).trace = s.trace := rfl
@[simp] theorem resetReader_freeCount (s : State) : (resetReader s).freeCount = s.freeCount := rfl

/-! `resetMidCommand` -/

@[simp] theorem resetMidCommand_params (ts : List Transaction) (src : ByteSource) (s : State) :
    (resetMidCommand ts src s).params = s.params := rfl
@[simp] theorem resetMidCommand_cache (ts : List Transaction) (src : ByteSource) (s : State) :
    (resetMidCommand ts src s).cache = 0 := rfl
@[simp] theorem resetMidCommand_consumedBits (ts : List Transaction) (src : ByteSource) (s : State) :
    (resetMidCommand ts src s).consumedBits = s.params.w := rfl
@[simp] theorem resetMidCommand_lines (ts : List Transaction) (src : ByteSource) (s : State) :
    (resetMidCommand ts src s).lines = List.replicate s.params.lineCount 0 := rfl
@[simp] theorem resetMidCommand_nextLine (ts : List Transaction) (src : ByteSource) (s : State) :
    (resetMidCommand ts src s).nextLine = s.params.lineCount := rfl
@[simp] theorem resetMidCommand_unusedLines (ts : List Transaction) (src : ByteSource) (s : State) :
    (resetMidCommand ts src s).unusedLines = 0 := rfl
@[simp] theorem resetMidCommand_currentBytePos (ts : List Transaction) (src : ByteSource) (s : State) :
    (resetMidCommand ts src s).currentBytePos = 0 := rfl
@[simp] theorem resetMidCommand_fault (ts : List Transaction) (src : ByteSource) (s : State) :
    (resetMidCommand ts src s).fault = false := rfl
@[simp] theorem resetMidCommand_source (ts : List Transaction) (src : ByteSource) (s : State) :
    (resetMidCommand ts src s).source = src := rfl
@[simp] theorem resetMidCommand_inbox (ts : List Transaction) (src : ByteSource) (s : State) :
    (resetMidCommand ts src s).inbox = s.inbox := rfl
@[simp] theorem resetMidCommand_trace (ts : List Transaction) (src : ByteSource) (s : State) :
    (resetMidCommand ts src s).trace = s.trace ++ ts.map .transaction := rfl
@[simp] theorem resetMidCommand_freeCount (ts : List Transaction) (src : ByteSource) (s : State) :
    (resetMidCommand ts src s).freeCount = s.freeCount := rfl

end Sys2Proof.Machine
end

