-- ==== Sys2Proof/Laws/Ops.lean ====
section
/-! SUPPORT. What the shared operations can do, said once: how a result goes on, what a byte-source transaction may
answer, what an un-seek may do, and how a command ends. -/

namespace Sys2Proof.Machine

/-! Going on after an ok. -/

@[simp] theorem bind_ok {α β : Type} (a : α) (s : State) (k : α → State → Res β) : (Res.ok a s).bind k = k a s := rfl
@[simp] theorem bind_fail {α β : Type} (s : State) (k : α → State → Res β) : (Res.fail s).bind k = .fail s := rfl
@[simp] theorem bind_raised {α β : Type} (s : State) (k : α → State → Res β) : (Res.raised s).bind k = .raised s := rfl
@[simp] theorem bind_stop {α β : Type} (f : Fault) (k : α → State → Res β) : (Res.stop f).bind k = .stop f := rfl
@[simp] theorem bind_refuse {α β : Type} (r : Refusal) (k : α → State → Res β) :
    (Res.refuse r).bind k = .refuse r := rfl

theorem bind_assoc {α β γ : Type} (r : Res α) (k : α → State → Res β) (k' : β → State → Res γ) :
    (r.bind k).bind k' = r.bind fun a s => (k a s).bind k' := by cases r <;> rfl

/-! What holds of a result: `Q` of an ok, `F` of a fail, `R` of a raised fault. A stop has no state to speak of. -/

/-- The postconditions of an internal operation, one for each way it can end with a state. -/
def Res.Post {α : Type} (r : Res α) (Q : α → State → Prop) (F R : State → Prop) : Prop :=
  match r with
  | .ok a s => Q a s
  | .fail s => F s
  | .raised s => R s
  | .stop _ => True
  | .refuse _ => True

@[simp] theorem post_ok {α : Type} (a : α) (s : State) (Q : α → State → Prop) (F R : State → Prop) :
    (Res.ok a s).Post Q F R ↔ Q a s := Iff.rfl
@[simp] theorem post_fail {α : Type} (s : State) (Q : α → State → Prop) (F R : State → Prop) :
    (Res.fail s).Post Q F R ↔ F s := Iff.rfl
@[simp] theorem post_raised {α : Type} (s : State) (Q : α → State → Prop) (F R : State → Prop) :
    (Res.raised s).Post Q F R ↔ R s := Iff.rfl
@[simp] theorem post_stop {α : Type} (f : Fault) (Q : α → State → Prop) (F R : State → Prop) :
    (Res.stop f : Res α).Post Q F R := trivial
@[simp] theorem post_refuse {α : Type} (r : Refusal) (Q : α → State → Prop) (F R : State → Prop) :
    (Res.refuse r : Res α).Post Q F R := trivial

/-- The postconditions of a sequence from those of its parts. -/
theorem Res.Post.bind {α β : Type} {r : Res α} {k : α → State → Res β} {P : α → State → Prop}
    {Q : β → State → Prop} {F F' R R' : State → Prop} (h : r.Post P F' R')
    (hk : ∀ a s, P a s → (k a s).Post Q F R) (hF : ∀ s, F' s → F s) (hR : ∀ s, R' s → R s) :
    (r.bind k).Post Q F R := by
  cases r with
  | ok a s => exact hk a s h
  | fail s => exact hF s h
  | raised s => exact hR s h
  | stop f => trivial
  | refuse x => trivial

/-- Weaker postconditions. -/
theorem Res.Post.mono {α : Type} {r : Res α} {Q Q' : α → State → Prop} {F F' R R' : State → Prop}
    (h : r.Post Q F R) (hQ : ∀ a s, Q a s → Q' a s) (hF : ∀ s, F s → F' s) (hR : ∀ s, R s → R' s) :
    r.Post Q' F' R' := by
  cases r with
  | ok a s => exact hQ a s h
  | fail s => exact hF s h
  | raised s => exact hR s h
  | stop f => trivial
  | refuse x => trivial

/-! The byte source. -/

/-- `SrcRead` in its three cases. -/
theorem srcRead_cases (max : Arg) (s : State) :
    (∃ b src, s.source.read max.toNat = some (b, src) ∧ b.length ≤ max.toNat ∧
      srcRead max s = .ok b ({ s with
        source := src, currentBytePos := s.currentBytePos + BitVec.ofNat 64 b.length }.log (.read max b))) ∨
    (s.source.read max.toNat = none ∧ srcRead max s = .stop .sourceNeverAnswers) ∨
    (∃ b src, s.source.read max.toNat = some (b, src) ∧ max.toNat < b.length ∧
      srcRead max s = .refuse .answerTooLong) := by
  unfold srcRead
  cases h : s.source.read max.toNat with
  | none => exact .inr (.inl ⟨rfl, rfl⟩)
  | some x =>
    obtain ⟨b, src⟩ := x
    by_cases hl : b.length ≤ max.toNat
    · exact .inl ⟨b, src, rfl, hl, by simp [hl]⟩
    · exact .inr (.inr ⟨b, src, rfl, by omega, by simp [hl]⟩)

/-- `SrcSeek` in its three cases. -/
theorem srcSeek_cases (off : Arg) (s : State) :
    (∃ src, s.source.seek off.toInt = some (true, src) ∧
      srcSeek off s = .ok true ({ s with
        source := src, currentBytePos := s.currentBytePos + off }.log (.seek off true))) ∨
    (∃ src, s.source.seek off.toInt = some (false, src) ∧
      srcSeek off s = .ok false ({ s with source := src }.log (.seek off false))) ∨
    (s.source.seek off.toInt = none ∧ srcSeek off s = .stop .sourceNeverAnswers) := by
  unfold srcSeek
  cases h : s.source.seek off.toInt with
  | none => exact .inr (.inr ⟨rfl, rfl⟩)
  | some x =>
    obtain ⟨ok, src⟩ := x
    cases ok with
    | true => exact .inl ⟨src, rfl, rfl⟩
    | false => exact .inr (.inl ⟨src, rfl, rfl⟩)

/-- The offset of a forward seek, as the number it is. -/
theorem toInt_ofNat {t : Nat} (h : t < 2 ^ 63) : (BitVec.ofNat 64 t).toInt = (t : Int) := by
  have h1 : t % 2 ^ 64 = t := Nat.mod_eq_of_lt (by omega)
  rw [BitVec.toInt_eq_toNat_cond, BitVec.toNat_ofNat, h1, if_pos (by omega)]

/-- The offset of an un-seek, as the number it is. -/
theorem toInt_neg_ofNat {t : Nat} (h : t < 2 ^ 63) : (-(BitVec.ofNat 64 t)).toInt = -(t : Int) := by
  rw [BitVec.toInt_neg, toInt_ofNat h, Int.bmod_eq_of_le] <;> omega

/-- An un-seek by no byte issues nothing. -/
@[simp] theorem unseek_zero (s : State) : unseek 0 s = .ok () s := rfl

/-- An un-seek in its three cases. -/
theorem unseek_cases {t : Nat} (ht : 1 ≤ t) (hs : t < 2 ^ 63) (s : State) :
    (∃ src, s.source.seek (-(t : Int)) = some (true, src) ∧
      unseek t s = .ok () ({ s with
        source := src,
        currentBytePos := s.currentBytePos + -(BitVec.ofNat 64 t) }.log (.seek (-(BitVec.ofNat 64 t)) true))) ∨
    (∃ src, s.source.seek (-(t : Int)) = some (false, src) ∧
      unseek t s = .raised (raiseFault ({ s with source := src }.log (.seek (-(BitVec.ofNat 64 t)) false)))) ∨
    (s.source.seek (-(t : Int)) = none ∧ unseek t s = .stop .sourceNeverAnswers) := by
  have h0 : t ≠ 0 := by omega
  rcases srcSeek_cases (-(BitVec.ofNat 64 t)) s with ⟨src, h, e⟩ | ⟨src, h, e⟩ | ⟨h, e⟩ <;>
    rw [toInt_neg_ofNat hs] at h
  · exact .inl ⟨src, h, by simp [unseek, h0, e]⟩
  · exact .inr (.inl ⟨src, h, by simp [unseek, h0, e]⟩)
  · exact .inr (.inr ⟨h, by simp [unseek, h0, e]⟩)

/-! The end of a command. -/

theorem respond_eq (cmd : Instr) (st : Status) (d : Arg) (s : State) :
    respond cmd st d s = .next (s.emit [answer cmd st d]) := rfl

@[simp] theorem finish_ok (cmd : Instr) (v : Arg) (s : State) :
    finish cmd (.ok v s) = .next (s.emit [answer cmd .ok v]) := rfl
@[simp] theorem finish_fail (cmd : Instr) (s : State) :
    finish cmd (.fail s) = .next (s.emit [answer cmd .fail 0]) := rfl
@[simp] theorem finish_raised (cmd : Instr) (s : State) :
    finish cmd (.raised s) = .next (s.emit [answer cmd .fault 0]) := rfl
@[simp] theorem finish_stop (cmd : Instr) (f : Fault) : finish cmd (.stop f) = .fault f := rfl
@[simp] theorem finish_refuse (cmd : Instr) (r : Refusal) : finish cmd (.refuse r) = .refused r := rfl

/-- A command that ends with a next state ended in one of three ways, all by its one response. -/
theorem finish_next {cmd : Instr} {r : Res Arg} {t : State} (h : finish cmd r = .next t) :
    (∃ v u, r = .ok v u ∧ t = u.emit [answer cmd .ok v]) ∨
    (∃ u, r = .fail u ∧ t = u.emit [answer cmd .fail 0]) ∨
    (∃ u, r = .raised u ∧ t = u.emit [answer cmd .fault 0]) := by
  cases r with
  | ok v u => exact .inl ⟨v, u, rfl, by simpa using h.symm⟩
  | fail u => exact .inr (.inl ⟨u, rfl, by simpa using h.symm⟩)
  | raised u => exact .inr (.inr ⟨u, rfl, by simpa using h.symm⟩)
  | stop f => simp at h
  | refuse x => simp at h

/-- A command's three steps (R170), one equation each. -/
theorem runCommand_fault {cmd : Instr} {legal : Bool} {body : State → Res Arg} {s : State} (h : s.fault = true) :
    runCommand cmd legal body s = .next (s.emit [answer cmd .fault 0]) := by
  simp [runCommand, unlessFault, h, respond_eq]

theorem runCommand_illegal {cmd : Instr} {body : State → Res Arg} {s : State} (h : s.fault = false) :
    runCommand cmd false body s = .next (s.emit [answer cmd .invalid 0]) := by
  simp [runCommand, unlessFault, h, respond_eq]

theorem runCommand_legal {cmd : Instr} {body : State → Res Arg} {s : State} (h : s.fault = false) :
    runCommand cmd true body s = finish cmd (body s) := by
  simp [runCommand, unlessFault, h]

end Sys2Proof.Machine
end

