-- ==== Sys2Proof/Laws/L2.lean ====
section
/-! SUPPORT. The L2 buffer keeps its canonical form under every operation on it, and what the cascade can do. -/

namespace Sys2Proof.Machine

/-! The canonical form of the buffer. -/

theorem Memory.wf_iff (p : Params) (ls : List Word) :
    Memory.wf p ls ↔ ls.length = p.lineCount ∧ ∀ l ∈ ls, l.toNat < 2 ^ p.w := by
  simp [Memory.wf]

theorem anyWord_lt (p : Params) (i : Nat) : (anyWord p i).toNat < 2 ^ p.w := by
  have h := Nat.mod_lt (Config.freeWord i).toNat (Nat.two_pow_pos p.w)
  have := p.two_pow_w_le
  rw [anyWord, toNat_ofNat_of_lt (by omega)]
  exact h

theorem getD_lt {p : Params} {ls : List Word} (h : ∀ l ∈ ls, l.toNat < 2 ^ p.w) (i : Nat) :
    (ls.getD i 0).toNat < 2 ^ p.w := by
  rw [List.getD_eq_getElem?_getD]
  cases hi : ls[i]? with
  | none => simp
  | some l => exact h l (List.mem_of_getElem? hi)

@[simp] theorem writeLines_length (p : Params) (b : List Byte) (ls : List Word) :
    (writeLines p b ls).length = ls.length := by
  induction ls generalizing b with
  | nil => rfl
  | cons l ls ih =>
    unfold writeLines
    split
    · rfl
    · simp [ih]

theorem slots_length (p : Params) (b : List Byte) (l : Word) :
    (b.take p.wb ++ (lineSlots p l).drop (b.take p.wb).length).length = p.wb := by
  simp only [List.length_append, List.length_drop, lineSlots_length, List.length_take]
  omega

theorem writeLines_lt {p : Params} (b : List Byte) {ls : List Word} (h : ∀ l ∈ ls, l.toNat < 2 ^ p.w) :
    ∀ l ∈ writeLines p b ls, l.toNat < 2 ^ p.w := by
  induction ls generalizing b with
  | nil => intro l hl; simp [writeLines] at hl
  | cons x ls ih =>
    unfold writeLines
    split
    · exact h
    · intro l hl
      rcases List.mem_cons.1 hl with rfl | hl
      · exact lineOfSlots_lt (slots_length p b x)
      · exact ih _ (fun y hy => h y (List.mem_cons_of_mem _ hy)) l hl

/-- A bulk read keeps the buffer's form. -/
theorem writeLines_wf {p : Params} (b : List Byte) {ls : List Word} (h : Memory.wf p ls) :
    Memory.wf p (writeLines p b ls) := by
  rw [Memory.wf_iff] at h ⊢
  exact ⟨by rw [writeLines_length, h.1], writeLines_lt b h.2⟩

@[simp] theorem moveLines_length (off k : Nat) (ls : List Word) : (moveLines off k ls).length = ls.length := by
  induction k generalizing ls with
  | zero => rfl
  | succ k ih => rw [moveLines, ih, List.length_set]

theorem moveLines_lt {p : Params} (off k : Nat) {ls : List Word} (h : ∀ l ∈ ls, l.toNat < 2 ^ p.w) :
    ∀ l ∈ moveLines off k ls, l.toNat < 2 ^ p.w := by
  induction k generalizing ls with
  | zero => exact h
  | succ k ih =>
    refine ih fun l hl => ?_
    rcases List.mem_or_eq_of_mem_set hl with hl | rfl
    · exact h l hl
    · exact getD_lt h k

/-- The line move and the leftovers keep the buffer's form. -/
theorem packed_wf {p : Params} (k free : Nat) {ls : List Word} (h : Memory.wf p ls) :
    Memory.wf p (forgetLines p (p.lineCount - k) free (moveLines (p.lineCount - k) k ls)) := by
  rw [Memory.wf_iff] at h ⊢
  constructor
  · simp only [forgetLines, List.length_append, List.length_map, List.length_range, List.length_drop,
      moveLines_length, h.1]
    omega
  · intro l hl
    rcases List.mem_append.1 hl with hl | hl
    · obtain ⟨i, _, rfl⟩ := List.mem_map.1 hl
      exact anyWord_lt p _
    · exact moveLines_lt _ _ h.2 l (List.mem_of_mem_drop hl)

/-- Unspecified lines are still lines of the buffer. -/
theorem anyLines_wf (p : Params) (free : Nat) :
    Memory.wf p ((List.range p.lineCount).map fun i => anyWord p (free + i)) := by
  rw [Memory.wf_iff]
  refine ⟨by simp, fun l hl => ?_⟩
  obtain ⟨i, _, rfl⟩ := List.mem_map.1 hl
  exact anyWord_lt p _

/-- The reset contents have the buffer's form. -/
theorem replicate_wf (p : Params) : Memory.wf p (List.replicate p.lineCount 0) := by
  rw [Memory.wf_iff]
  refine ⟨by simp, fun l hl => ?_⟩
  rw [List.eq_of_mem_replicate hl]
  exact Nat.two_pow_pos p.w

/-! The tail load. -/

theorem tailSlots_length {p : Params} {b : List Byte} (h : b.length ≤ p.wb) (free : Nat) :
    (tailSlots p b free).length = p.wb := by
  simp only [tailSlots, List.length_append, List.length_map, List.length_range]
  omega

theorem tailWord_lt {p : Params} {b : List Byte} (h : b.length ≤ p.wb) (free : Nat) :
    (tailWord p b free).toNat < 2 ^ p.w :=
  tailMask_lt p (beNorm_lt (lineOfSlots_lt (tailSlots_length h free))) _

theorem tailWord_low_zero {p : Params} (b : List Byte) (free : Nat) {i : Nat} (hi : i < (p.wb - b.length) * 8) :
    (tailWord p b free).getLsbD i = false :=
  tailMask_low_zero p _ (by have := p.w_eq; omega) hi

/-- The register word of a tail load: its bytes at the most significant end, zeros below; the leftovers are gone. -/
theorem tailWord_toNat {p : Params} {b : List Byte} (h : b.length ≤ p.wb) (free : Nat) :
    (tailWord p b free).toNat = ofBytesBE b * 2 ^ ((p.wb - b.length) * 8) := by
  have hl := tailSlots_length h free
  have hw := p.w_eq
  rw [tailWord, tailMask_toNat p (beNorm_lt (lineOfSlots_lt hl)) (by omega), beNorm_lineOfSlots hl, tailSlots,
    ofBytesBE_append, List.length_map, List.length_range, Nat.mul_comm _ 8, Nat.pow_mul]
  congr 1
  have := ofBytesBE_lt ((List.range (p.wb - b.length)).map fun i => Config.freeByte (free + i))
  rw [List.length_map, List.length_range] at this
  rw [show (2:Nat) ^ 8 = 256 from rfl, Nat.add_comm, Nat.add_mul_div_right _ _ (Nat.pow_pos (by decide)), Nat.div_eq_of_lt this, Nat.zero_add]

/-! The cascade, said once. -/

/-- What `L2_REFILL` can do: the bulk read stops, or its answer is a full, a partial or a degenerate fill. -/
theorem l2Refill_cases (s : State) :
    (∃ b s1, srcRead (BitVec.ofNat 64 s.params.l2Bytes) s = .ok b s1 ∧
      ((b.length = s.params.l2Bytes ∧ l2Refill s = .ok () (l2Pop (setIndices 0 0 (fillBuffer b s1)))) ∨
       (b.length ≠ s.params.l2Bytes ∧ 1 ≤ b.length / s.params.wb ∧
         l2Refill s = (unseek (b.length % s.params.wb)
           (packLines (b.length / s.params.wb) (fillBuffer b s1))).bind fun _ s3 => .ok () (l2Pop s3)) ∨
       (b.length ≠ s.params.l2Bytes ∧ b.length < s.params.wb ∧
         l2Refill s = (unseek b.length (fillBuffer b s1)).bind fun _ s3 =>
           .fail (setIndices s.params.lineCount s.params.lineCount s3)))) ∨
    (∃ f, l2Refill s = .stop f) ∨ (∃ r, l2Refill s = .refuse r) := by
  have hwb := s.params.le_wb
  rcases srcRead_cases (BitVec.ofNat 64 s.params.l2Bytes) s with ⟨b, src, -, -, e⟩ | ⟨-, e⟩ | ⟨b, src, -, -, e⟩
  · refine .inl ⟨b, _, e, ?_⟩
    simp only [l2Refill, e, bind_ok]
    by_cases h1 : b.length = s.params.l2Bytes
    · exact .inl ⟨h1, by rw [if_pos h1]⟩
    · by_cases h2 : 1 ≤ b.length / s.params.wb
      · exact .inr (.inl ⟨h1, h2, by rw [if_neg h1, if_pos h2]⟩)
      · refine .inr (.inr ⟨h1, ?_, by rw [if_neg h1, if_neg h2]⟩)
        by_contra h3
        exact h2 ((Nat.le_div_iff_mul_le (by omega)).2 (by omega))
  · exact .inr (.inl ⟨_, by rw [l2Refill, e, bind_stop]⟩)
  · exact .inr (.inr ⟨_, by rw [l2Refill, e, bind_refuse]⟩)

/-- What `L1_TAIL_LOAD` can do. -/
theorem l1TailLoad_cases (s : State) :
    (∃ b s1, srcRead (BitVec.ofNat 64 s.params.wb) s = .ok b s1 ∧ b.length ≤ s.params.wb ∧
      ((b.length = 0 ∧ l1TailLoad s = .fail s1) ∨ (1 ≤ b.length ∧ l1TailLoad s = .ok () (loadTail b s1)))) ∨
    (∃ f, l1TailLoad s = .stop f) ∨ (∃ r, l1TailLoad s = .refuse r) := by
  have hwb := s.params.wb_le
  rcases srcRead_cases (BitVec.ofNat 64 s.params.wb) s with ⟨b, src, -, hl, e⟩ | ⟨-, e⟩ | ⟨b, src, -, -, e⟩
  · rw [toNat_ofNat_of_lt (by omega)] at hl
    refine .inl ⟨b, _, e, hl, ?_⟩
    simp only [l1TailLoad, e, bind_ok]
    by_cases h : b.length = 0
    · exact .inl ⟨h, by rw [if_pos h]⟩
    · exact .inr ⟨by omega, by rw [if_neg h]⟩
  · exact .inr (.inl ⟨_, by rw [l1TailLoad, e, bind_stop]⟩)
  · exact .inr (.inr ⟨_, by rw [l1TailLoad, e, bind_refuse]⟩)

/-- A reload is a pop where a line is left. -/
theorem reload_pop {s : State} (h : s.nextLine < s.params.lineCount) : reload s = .ok () (l2Pop s) := by
  simp [reload, l2Load, h]

/-- A reload is a refill, with a tail load after its failure, where no line is left. -/
theorem reload_refill {s : State} (h : s.params.lineCount ≤ s.nextLine) :
    reload s = match l2Refill s with
      | .fail s' => l1TailLoad s'
      | r => r := by
  have : ¬ s.nextLine < s.params.lineCount := by omega
  simp only [reload, l2Load, this, if_false]
  cases l2Refill s <;> rfl

end Sys2Proof.Machine
end

