-- ==== Sys2Proof/Laws/Cascade.lean ====
section
/-! SUPPORT. What the cascade, the reads and the seeks do to everything but the data they move: parameters, inputs,
the trace, the fault flag, and the invariant. -/

namespace Sys2Proof.Machine

/-- `t` comes from `s` by at most `k` transactions: parameters and inputs stay, the trace grows by transactions only. -/
structure State.Extends (s t : State) (k : Nat) : Prop where
  params : t.params = s.params
  inbox  : t.inbox = s.inbox
  trace  : ∃ ts : List Transaction, t.trace = s.trace ++ ts.map .transaction ∧ ts.length ≤ k

theorem State.Extends.refl (s : State) (k : Nat) : s.Extends s k :=
  ⟨rfl, rfl, [], by simp, by simp⟩

theorem State.Extends.trans {s t u : State} {j k : Nat} (h : s.Extends t j) (h' : t.Extends u k) :
    s.Extends u (j + k) := by
  obtain ⟨ts, e, l⟩ := h.trace
  obtain ⟨ts', e', l'⟩ := h'.trace
  refine ⟨h'.params.trans h.params, h'.inbox.trans h.inbox, ts ++ ts', ?_, ?_⟩
  · rw [e', e, List.map_append, List.append_assoc]
  · rw [List.length_append]; omega

theorem State.Extends.mono {s t : State} {j k : Nat} (h : s.Extends t j) (hjk : j ≤ k) : s.Extends t k := by
  obtain ⟨ts, e, l⟩ := h.trace
  exact ⟨h.params, h.inbox, ts, e, by omega⟩

/-- A further update of the reader's own elements leaves what the relation speaks of. -/
theorem State.Extends.upTo {s t u : State} {j k : Nat} (h : s.Extends t j) (hjk : j ≤ k) (hp : u.params = t.params)
    (hi : u.inbox = t.inbox) (ht : u.trace = t.trace) : s.Extends u k := by
  obtain ⟨ts, e, l⟩ := h.trace
  exact ⟨hp.trans h.params, hi.trans h.inbox, ts, ht.trans e, by omega⟩

/-! Transactions. -/

theorem srcRead_post (max : Arg) (s : State) :
    (srcRead max s).Post
      (fun b t => s.Extends t 1 ∧ t.fault = s.fault ∧ b.length ≤ max.toNat ∧ t = { s with
        source := t.source, currentBytePos := t.currentBytePos, trace := t.trace })
      (fun _ => False) (fun _ => False) := by
  rcases srcRead_cases max s with ⟨b, src, _, hl, e⟩ | ⟨_, e⟩ | ⟨b, src, _, _, e⟩ <;> rw [e]
  · exact ⟨⟨rfl, rfl, [.read max b], rfl, by simp⟩, rfl, hl, rfl⟩
  · trivial
  · trivial

theorem srcSeek_post (off : Arg) (s : State) :
    (srcSeek off s).Post
      (fun _ t => s.Extends t 1 ∧ t.fault = s.fault ∧ t = { s with
        source := t.source, currentBytePos := t.currentBytePos, trace := t.trace })
      (fun _ => False) (fun _ => False) := by
  rcases srcSeek_cases off s with ⟨src, _, e⟩ | ⟨src, _, e⟩ | ⟨_, e⟩ <;> rw [e]
  · exact ⟨⟨rfl, rfl, [.seek off true], rfl, by simp⟩, rfl, rfl⟩
  · exact ⟨⟨rfl, rfl, [.seek off false], rfl, by simp⟩, rfl, rfl⟩
  · trivial

theorem unseek_post (t : Nat) (s : State) :
    (unseek t s).Post
      (fun _ u => s.Extends u 1 ∧ u.fault = s.fault ∧ u = { s with
        source := u.source, currentBytePos := u.currentBytePos, trace := u.trace })
      (fun _ => False)
      (fun u => s.Extends u 1 ∧ ∃ v, u = raiseFault v ∧ v = { s with source := v.source, trace := v.trace }) := by
  by_cases h : t = 0
  · subst h
    exact ⟨State.Extends.refl s 1, rfl, rfl⟩
  · simp only [unseek, if_neg h]
    rcases srcSeek_cases (-(BitVec.ofNat 64 t)) s with ⟨src, _, e⟩ | ⟨src, _, e⟩ | ⟨_, e⟩ <;> rw [e]
    · exact ⟨⟨rfl, rfl, [.seek _ true], rfl, by simp⟩, rfl, rfl⟩
    · exact ⟨⟨rfl, rfl, [.seek _ false], rfl, by simp⟩, _, rfl, rfl⟩
    · trivial

/-! The invariant under each update. -/

theorem raiseFault_inv {s : State} (h : s.Inv) : (raiseFault s).Inv where
  params := h.params
  memory := anyLines_wf s.params (s.freeCount + 1)
  cache := anyWord_lt s.params _
  consumed h := absurd h (by simp)
  next h := absurd h (by simp)
  unused h := absurd h (by simp)
  zeroTail h := absurd h (by simp)

/-- The invariant does not speak of the byte source, the tracked cursor, the inputs, the trace or the free count. -/
theorem State.Inv.of_eq {s t : State} (h : s.Inv) (hp : t.params = s.params) (hl : t.lines = s.lines)
    (hc : t.cache = s.cache) (hb : t.consumedBits = s.consumedBits) (hn : t.nextLine = s.nextLine)
    (hu : t.unusedLines = s.unusedLines) (hf : t.fault = s.fault) : t.Inv where
  params := hp ▸ h.params
  memory := by rw [hp, hl]; exact h.memory
  cache := by rw [hp, hc]; exact h.cache
  consumed f := by rw [hp, hb]; exact h.consumed (hf ▸ f)
  next f := by rw [hp, hn]; exact h.next (hf ▸ f)
  unused f := by rw [hp, hu]; exact h.unused (hf ▸ f)
  zeroTail f := by
    intro i hi
    rw [hb] at hi
    rw [hc]
    exact h.zeroTail (hf ▸ f) i hi

theorem fillBuffer_inv {s : State} (h : s.Inv) (b : List Byte) : (fillBuffer b s).Inv where
  params := h.params
  memory := writeLines_wf b h.memory
  cache := h.cache
  consumed := h.consumed
  next := h.next
  unused := h.unused
  zeroTail := h.zeroTail

theorem setIndices_inv {s : State} (h : s.Inv) {n u : Nat} (hn : n ≤ s.params.lineCount)
    (hu : u ≤ s.params.lineCount) : (setIndices n u s).Inv where
  params := h.params
  memory := h.memory
  cache := h.cache
  consumed := h.consumed
  next _ := hn
  unused _ := hu
  zeroTail := h.zeroTail

theorem packLines_inv {s : State} (h : s.Inv) (k : Nat) : (packLines k s).Inv where
  params := h.params
  memory := packed_wf k s.freeCount h.memory
  cache := h.cache
  consumed := h.consumed
  next _ := by simp
  unused _ := by simp
  zeroTail := h.zeroTail

theorem l2Pop_inv {s : State} (h : s.Inv) (hn : s.nextLine < s.params.lineCount) : (l2Pop s).Inv where
  params := h.params
  memory := h.memory
  cache := beNorm_lt (getD_lt ((Memory.wf_iff _ _).1 h.memory).2 _)
  consumed _ := by simp
  next _ := by simp; omega
  unused := h.unused
  zeroTail _ := by
    intro i hi
    simp at hi

theorem loadTail_inv {s : State} (h : s.Inv) {b : List Byte} (hb : b.length ≤ s.params.wb) : (loadTail b s).Inv where
  params := h.params
  memory := h.memory
  cache := tailWord_lt hb _
  consumed _ := by have := s.params.w_eq; simp; omega
  next := h.next
  unused := h.unused
  zeroTail _ := fun _ hi => tailWord_low_zero b _ hi

theorem consume_inv {s : State} (h : s.Inv) {n : Nat} (hn : n ≤ s.rem) : (consume n s).Inv where
  params := h.params
  memory := h.memory
  cache := dropBits_lt s.params s.cache n
  consumed f := by have := h.consumed f; simp [State.rem] at *; omega
  next := h.next
  unused := h.unused
  zeroTail f := fun _ hi => shlW_low_zero s.params.w_le (h.zeroTail f) hi

theorem skipLines_inv {s : State} (h : s.Inv) {k : Nat} (hk : s.fault = false → s.nextLine + k ≤ s.params.lineCount) :
    (skipLines k s).Inv where
  params := h.params
  memory := h.memory
  cache := Nat.two_pow_pos _
  consumed _ := Nat.le_refl _
  next := hk
  unused := h.unused
  zeroTail _ := fun i _ => by simp

/-! RELOAD. -/

/-- The refill: at most two transactions, and the invariant is kept. -/
theorem l2Refill_post (s : State) :
    (l2Refill s).Post
      (fun _ t => s.Extends t 2 ∧ t.fault = s.fault ∧ t.consumedBits = 0 ∧ (s.Inv → t.Inv))
      (fun t => s.Extends t 2 ∧ t.fault = s.fault ∧ (s.Inv → t.Inv))
      (fun t => s.Extends t 2 ∧ t.fault = true ∧ (s.Inv → t.Inv)) := by
  rcases l2Refill_cases s with ⟨b, s1, e, h⟩ | ⟨f, e⟩ | ⟨r, e⟩
  · have hr := srcRead_post (BitVec.ofNat 64 s.params.l2Bytes) s
    rw [e, post_ok] at hr
    obtain ⟨hx, hf, hl, heq⟩ := hr
    have hp : s1.params = s.params := hx.params
    have hi1 : s.Inv → s1.Inv := fun h => h.of_eq hp (by rw [heq]) (by rw [heq]) (by rw [heq]) (by rw [heq])
      (by rw [heq]) hf
    rcases h with ⟨hk, e2⟩ | ⟨hk, ha, e2⟩ | ⟨hk, ha, e2⟩ <;> rw [e2]
    · refine ⟨hx.upTo (by omega) rfl rfl rfl, hf, rfl, fun h => ?_⟩
      have hpos := Params.lineCount_pos h.params
      exact l2Pop_inv (setIndices_inv (fillBuffer_inv (hi1 h) b) (by simp) (by simp)) (by simp [hp]; omega)
    · have hxp : s.Extends (packLines (b.length / s.params.wb) (fillBuffer b s1)) 1 :=
        hx.upTo (by omega) rfl rfl rfl
      have hip := fun h => packLines_inv (fillBuffer_inv (hi1 h) b) (b.length / s.params.wb)
      refine (unseek_post _ _).bind ?_ (fun _ h => h.elim) ?_
      · rintro _ s3 ⟨hx3, hf3, he3⟩
        refine ⟨(hxp.trans hx3).upTo (by omega) rfl rfl rfl, ?_, rfl, fun h => ?_⟩
        · exact hf3.trans hf
        · have hp3 := hx3.params
          have hi3 := (hip h).of_eq hp3 (by rw [he3]) (by rw [he3]) (by rw [he3]) (by rw [he3]) (by rw [he3]) hf3
          have hn3 : s3.nextLine = s.params.lineCount - b.length / s.params.wb := by rw [he3]; simp [hp]
          have hpos := Params.lineCount_pos h.params
          refine l2Pop_inv hi3 ?_
          have hlc : s3.params.lineCount = s.params.lineCount := by rw [hp3]; simp [hp]
          rw [hn3, hlc]
          omega
      · rintro u ⟨hxu, v, rfl, hv⟩
        refine ⟨(hxp.trans hxu).mono (by omega), rfl, fun h => raiseFault_inv ?_⟩
        exact (hip h).of_eq (by rw [hv]) (by rw [hv]) (by rw [hv]) (by rw [hv]) (by rw [hv]) (by rw [hv]) (by rw [hv])
    · have hxb : s.Extends (fillBuffer b s1) 1 := hx.upTo (by omega) rfl rfl rfl
      have hib := fun h => fillBuffer_inv (hi1 h) b
      refine (unseek_post _ _).bind ?_ (fun _ h => h.elim) ?_
      · rintro _ s3 ⟨hx3, hf3, he3⟩
        refine ⟨(hxb.trans hx3).upTo (by omega) rfl rfl rfl, hf3.trans hf, fun h => ?_⟩
        have hp3 : s3.params = s.params := hx3.params.trans hp
        have hi3 := (hib h).of_eq hx3.params (by rw [he3]) (by rw [he3]) (by rw [he3]) (by rw [he3]) (by rw [he3]) hf3
        exact setIndices_inv hi3 (by rw [hp3]) (by rw [hp3])
      · rintro u ⟨hxu, v, rfl, hv⟩
        refine ⟨(hxb.trans hxu).mono (by omega), rfl, fun h => raiseFault_inv ?_⟩
        exact (hib h).of_eq (by rw [hv]) (by rw [hv]) (by rw [hv]) (by rw [hv]) (by rw [hv]) (by rw [hv]) (by rw [hv])
  · rw [e]; trivial
  · rw [e]; trivial

/-- The tail load: one transaction, at least 8 bits on success, and the invariant is kept. -/
theorem l1TailLoad_post (s : State) :
    (l1TailLoad s).Post
      (fun _ t => s.Extends t 1 ∧ t.fault = s.fault ∧ t.consumedBits + 8 ≤ s.params.w ∧ (s.Inv → t.Inv))
      (fun t => s.Extends t 1 ∧ t.fault = s.fault ∧ (s.Inv → t.Inv))
      (fun _ => False) := by
  rcases l1TailLoad_cases s with ⟨b, s1, e, hl, h⟩ | ⟨f, e⟩ | ⟨r, e⟩
  · have hr := srcRead_post (BitVec.ofNat 64 s.params.wb) s
    rw [e, post_ok] at hr
    obtain ⟨hx, hf, -, heq⟩ := hr
    have hp : s1.params = s.params := hx.params
    have hi1 : s.Inv → s1.Inv := fun h => h.of_eq hp (by rw [heq]) (by rw [heq]) (by rw [heq]) (by rw [heq])
      (by rw [heq]) hf
    rcases h with ⟨_, e2⟩ | ⟨h1, e2⟩ <;> rw [e2]
    · exact ⟨hx, hf, hi1⟩
    · refine ⟨hx.upTo (by omega) rfl rfl rfl, hf, ?_, fun h => loadTail_inv (hi1 h) (by rw [hp]; exact hl)⟩
      have := s.params.w_eq
      simp [hp]
      omega
  · rw [e]; trivial
  · rw [e]; trivial

/-- RELOAD: at most three transactions, at least 8 new bits on success, and the invariant is kept. -/
theorem reload_post (s : State) :
    (reload s).Post
      (fun _ t => s.Extends t 3 ∧ t.fault = s.fault ∧ t.consumedBits + 8 ≤ s.params.w ∧ (s.Inv → t.Inv))
      (fun t => s.Extends t 3 ∧ t.fault = s.fault ∧ (s.Inv → t.Inv))
      (fun t => s.Extends t 3 ∧ t.fault = true ∧ (s.Inv → t.Inv)) := by
  have hw := s.params.le_w
  by_cases h : s.nextLine < s.params.lineCount
  · rw [reload_pop h]
    exact ⟨(State.Extends.refl s 0).upTo (by omega) rfl rfl rfl, rfl, by simp; omega, fun hi => l2Pop_inv hi h⟩
  · rw [reload_refill (by omega)]
    have h2 := l2Refill_post s
    cases hr : l2Refill s with
    | ok u t =>
      rw [hr] at h2
      exact ⟨h2.1.mono (by omega), h2.2.1, by rw [h2.2.2.1]; omega, h2.2.2.2⟩
    | fail t =>
      rw [hr] at h2
      refine (l1TailLoad_post t).mono ?_ ?_ (fun _ h => h.elim)
      · rintro _ u ⟨hx, hf, hc, hi⟩
        exact ⟨h2.1.trans hx, hf.trans h2.2.1, by rw [← h2.1.params]; exact hc, fun h => hi (h2.2.2 h)⟩
      · rintro u ⟨hx, hf, hi⟩
        exact ⟨h2.1.trans hx, hf.trans h2.2.1, fun h => hi (h2.2.2 h)⟩
    | raised t =>
      rw [hr] at h2
      exact ⟨h2.1.mono (by omega), h2.2.1, h2.2.2⟩
    | stop f => trivial
    | refuse r => trivial

/-! Reads. -/

/-- READ32 of at most 32 bits: at most six transactions, and the invariant is kept while `fault` is clear. -/
theorem read32_post {n : Nat} (s : State) :
    (read32 n s).Post
      (fun _ t => s.Extends t 6 ∧ t.fault = s.fault ∧ (s.Inv → t.Inv))
      (fun t => s.Extends t 6 ∧ t.fault = s.fault ∧ (s.Inv → t.Inv))
      (fun t => s.Extends t 6 ∧ t.fault = true ∧ (s.Inv → t.Inv)) := by
  have he : (ensureBits s).Post
      (fun _ t => s.Extends t 3 ∧ t.fault = s.fault ∧ (s.Inv → t.Inv))
      (fun t => s.Extends t 3 ∧ t.fault = s.fault ∧ (s.Inv → t.Inv))
      (fun t => s.Extends t 3 ∧ t.fault = true ∧ (s.Inv → t.Inv)) := by
    unfold ensureBits
    split
    · exact (reload_post s).mono (fun _ _ h => ⟨h.1, h.2.1, h.2.2.2⟩) (fun _ h => h) (fun _ h => h)
    · exact ⟨State.Extends.refl s 3, rfl, id⟩
  refine he.bind ?_ (fun _ h => ⟨h.1.mono (by omega), h.2⟩) (fun _ h => ⟨h.1.mono (by omega), h.2⟩)
  rintro _ s1 ⟨hx, hf, hi⟩
  by_cases hn : n ≤ s1.rem
  · rw [if_pos hn]
    exact ⟨hx.upTo (by omega) rfl rfl rfl, hf, fun h => consume_inv (hi h) hn⟩
  · rw [if_neg hn]
    refine (reload_post s1).bind ?_ (fun t h => ⟨hx.trans h.1, h.2.1.trans hf, fun hs => h.2.2 (hi hs)⟩)
      (fun t h => ⟨hx.trans h.1, h.2.1, fun hs => h.2.2 (hi hs)⟩)
    rintro _ s2 ⟨hx2, hf2, -, hi2⟩
    by_cases hl : s2.rem < n - s1.rem
    · rw [if_pos hl]
      exact ⟨hx.trans hx2, hf2.trans hf, fun h => hi2 (hi h)⟩
    · rw [if_neg hl]
      exact ⟨(hx.trans hx2).upTo (by omega) rfl rfl rfl, hf2.trans hf,
        fun h => consume_inv (hi2 (hi h)) (by omega)⟩

/-! Seeks. -/

/-- The move up to the residual: at most one transaction, and the invariant is kept while `fault` is clear. -/
theorem seekWhole_post (n : Nat) (s : State) :
    (seekWhole (seekCalc n s) s).Post
      (fun _ t => s.Extends t 1 ∧ t.fault = s.fault ∧ (s.fault = false → s.Inv → t.Inv))
      (fun t => s.Extends t 1 ∧ t.fault = s.fault ∧ (s.Inv → t.Inv))
      (fun _ => False) := by
  have hk : ∀ t : State, t.nextLine = s.nextLine → t.params = s.params → s.fault = false → s.Inv →
      t.nextLine + (seekCalc n s).skipL2 ≤ t.params.lineCount := by
    intro t hn hp hf hi
    have := hi.next hf
    rw [hn, hp]
    simp only [seekCalc]
    omega
  unfold seekWhole
  split
  · exact ⟨(State.Extends.refl s 0).upTo (by omega) rfl rfl rfl, rfl,
      fun hf hi => skipLines_inv hi fun _ => hk s rfl rfl hf hi⟩
  · refine (srcSeek_post _ s).bind ?_ (fun _ h => h.elim) (fun _ h => h.elim)
    rintro a s1 ⟨hx, hf, he⟩
    have hi1 : s.Inv → s1.Inv := fun h => h.of_eq hx.params (by rw [he]) (by rw [he]) (by rw [he]) (by rw [he])
      (by rw [he]) hf
    cases a with
    | true =>
      exact ⟨hx.upTo (by omega) rfl rfl rfl, hf,
        fun hf' hi => skipLines_inv (hi1 hi) fun _ => hk s1 (by rw [he]) hx.params hf' hi⟩
    | false => exact ⟨hx, hf, hi1⟩

/-- Where the register holds a bit, the count not yet covered shrinks at every nested call, so the bound on nested
calls does not matter once it exceeds the operand (R157). -/
theorem seekFuel_of_lt {f g n : Nat} {s : State} (hs : 1 ≤ s.rem) (hf : n < f) (hg : n < g) :
    seekFuel f n s = seekFuel g n s := by
  induction f generalizing g n s with
  | zero => omega
  | succ f ih =>
    cases g with
    | zero => omega
    | succ g =>
      simp only [seekFuel]
      split
      · rfl
      · next hn =>
        have hres : (seekCalc n s).residual ≤ n - s.rem := Nat.mod_le _ _
        cases seekWhole (seekCalc n s) s with
        | ok u s1 =>
          simp only [bind_ok]
          split
          · rfl
          · have hp2 := reload_post s1
            cases hr : reload s1 with
            | ok u2 s2 =>
              rw [hr, post_ok] at hp2
              have hw : 1 ≤ s2.rem := by
                have := hp2.2.2.1
                rw [State.rem, hp2.1.params]
                omega
              exact ih hw (by omega) (by omega)
            | fail t => rfl
            | raised t => rfl
            | stop x => rfl
            | refuse x => rfl
        | fail t => rfl
        | raised t => rfl
        | stop x => rfl
        | refuse x => rfl

/-! The end an operation makes of its command. -/

@[simp] theorem ending_ok {α : Type} (cmd : Instr) (a : α) (s : State) : (Res.ok a s).ending cmd = none := rfl
@[simp] theorem ending_fail {α : Type} (cmd : Instr) (s : State) : (Res.fail s : Res α).ending cmd = none := rfl
@[simp] theorem ending_raised {α : Type} (cmd : Instr) (s : State) :
    (Res.raised s : Res α).ending cmd = some (.next (s.emit [answer cmd .fault 0])) := rfl
@[simp] theorem ending_stop {α : Type} (cmd : Instr) (f : Fault) : (Res.stop f : Res α).ending cmd = some (.fault f) := rfl
@[simp] theorem ending_refuse {α : Type} (cmd : Instr) (x : Refusal) :
    (Res.refuse x : Res α).ending cmd = some (.refused x) := rfl

/-- What ends a command in the first part of an operation ends it in the whole. -/
theorem ending_bind {α β : Type} {cmd : Instr} {r : Res α} {e : StepResult} (h : r.ending cmd = some e)
    (k : α → State → Res β) : (r.bind k).ending cmd = some e := by
  cases r <;> simp_all

/-- What ends a command in its body is what the command answers. -/
theorem finish_of_ending {cmd : Instr} {r : Res Arg} {e : StepResult} (h : r.ending cmd = some e) :
    finish cmd r = e := by
  cases r <;> simp_all [finish, respond, State.emit, answer]

/-! Answers of legal length. -/

/-- The next answer is a bulk read's, and no longer than that. -/
theorem legalAnswers_head {p : Params} {b : List Byte} {reads : List (List Byte)}
    (h : legalAnswers p (b :: reads) = true) : b.length ≤ p.l2Bytes := by
  cases reads <;> simp_all [legalAnswers]

end Sys2Proof.Machine
end

