-- ==== Sys2Proof/Laws/PerInstr.lean ====
section
/-! SUPPORT. The family TableRow: the word of every instruction lies in its row of spec/opcode_table.json. -/

namespace Sys2Proof.Laws

theorem commandWord_toNat (op : BitVec 3) (arg : Arg) : (commandWord op arg).toNat = op.toNat * 2 ^ 64 + arg.toNat := by
  have h := arg.isLt
  rw [commandWord, BitVec.toNat_append, Nat.shiftLeft_eq, Nat.mul_comm, ← Nat.two_pow_add_eq_or_of_lt h, Nat.mul_comm]

theorem requestWord_toNat (kind : BitVec 1) (a : Arg) : (requestWord kind a).toNat = kind.toNat * 2 ^ 64 + a.toNat := by
  have h := a.isLt
  rw [requestWord, BitVec.toNat_append, Nat.shiftLeft_eq, Nat.mul_comm, ← Nat.two_pow_add_eq_or_of_lt h, Nat.mul_comm]

namespace TableRow

/-- The `match` of the instruction's row in spec/opcode_table.json. -/
def rowMatch : Instr → Nat
  | .rdu _ => 0x00000000000000000
  | .rds _ => 0x10000000000000000
  | .skb _ => 0x20000000000000000
  | .pos _ => 0x30000000000000000
  | .rsy _ => 0x40000000000000000
  | .rsvd5 _ => 0x50000000000000000
  | .rsvd6 _ => 0x60000000000000000
  | .rsvd7 _ => 0x70000000000000000
  | .srcRd _ => 0x00000000000000000
  | .srcSk _ => 0x10000000000000000

/-- The word fits its port, and its bits above `arg`, which are the bits of the row's mask, are the row's match. -/
def Statement (i : Instr) : Prop := encode i < 2 ^ i.port.width ∧ encode i / 2 ^ 64 * 2 ^ 64 = rowMatch i

/-- A command's word lies in the row of its operation code. -/
theorem of_command {i : Instr} (op : BitVec 3) (a : Arg) (hp : i.port = .command)
    (he : encode i = (commandWord op a).toNat) (hm : rowMatch i = op.toNat * 2 ^ 64) : Statement i := by
  have h1 := op.isLt
  have h2 := a.isLt
  have h3 : Port.command.width = 67 := rfl
  rw [Statement, hp, h3, hm, he, commandWord_toNat]
  constructor <;> omega

/-- A request's word lies in the row of its kind. -/
theorem of_request {i : Instr} (kind : BitVec 1) (a : Arg) (hp : i.port = .source)
    (he : encode i = (requestWord kind a).toNat) (hm : rowMatch i = kind.toNat * 2 ^ 64) : Statement i := by
  have h1 := kind.isLt
  have h2 := a.isLt
  have h3 : Port.source.width = 65 := rfl
  rw [Statement, hp, h3, hm, he, requestWord_toNat]
  constructor <;> omega

theorem rdu (width : Arg) : Statement (.rdu width) := of_command 0 width rfl rfl (by simp [rowMatch])
theorem rds (width : Arg) : Statement (.rds width) := of_command 1 width rfl rfl (by simp [rowMatch])
theorem skb (count : Arg) : Statement (.skb count) := of_command 2 count rfl rfl (by simp [rowMatch])
theorem pos (ignored : Arg) : Statement (.pos ignored) := of_command 3 ignored rfl rfl (by simp [rowMatch])
theorem rsy (position : Arg) : Statement (.rsy position) := of_command 4 position rfl rfl (by simp [rowMatch])
theorem rsvd5 (ignored : Arg) : Statement (.rsvd5 ignored) := of_command 5 ignored rfl rfl (by simp [rowMatch])
theorem rsvd6 (ignored : Arg) : Statement (.rsvd6 ignored) := of_command 6 ignored rfl rfl (by simp [rowMatch])
theorem rsvd7 (ignored : Arg) : Statement (.rsvd7 ignored) := of_command 7 ignored rfl rfl (by simp [rowMatch])
theorem srcRd (max : Arg) : Statement (.srcRd max) := of_request 0 max rfl rfl (by simp [rowMatch])
theorem srcSk (offset : Arg) : Statement (.srcSk offset) := of_request 1 offset rfl rfl (by simp [rowMatch])

end TableRow
end Sys2Proof.Laws
end

