-- ==== Sys2Proof/Tests/Slice0.lean ====
section
/-! SUPPORT. The model's own tests, and a witness for every statement that has hypotheses. Expected results are the
spec's: its worked examples (95_test_vectors.md, named by their table) or the encodings of 30_encoding.md. -/

namespace Sys2Proof.Tests

open Sys2Proof.Machine

/-! Decoding: every constructor from a word written out from the spec (R61, R62, R69; 95_test_vectors.md 3.5). -/

theorem test_decode_rdu : decodeWord .command 0x00000000000000040 = .instr (.rdu 64) := by decide
theorem test_decode_rds : decodeWord .command 0x1000000000000000C = .instr (.rds 12) := by decide
theorem test_decode_skb : decodeWord .command 0x2FFFFFFFFFFFFFFFF = .instr (.skb 18446744073709551615) := by decide
theorem test_decode_pos : decodeWord .command 0x3DEADBEEF00000000 = .instr (.pos 0xDEADBEEF00000000) := by decide
theorem test_decode_rsy : decodeWord .command 0x40000000000000002 = .instr (.rsy 2) := by decide
theorem test_decode_rsvd5 : decodeWord .command 0x50000000000000000 = .instr (.rsvd5 0) := by decide
theorem test_decode_rsvd6 : decodeWord .command 0x60000000000000001 = .instr (.rsvd6 1) := by decide
theorem test_decode_rsvd7 : decodeWord .command 0x7FFFFFFFFFFFFFFFF = .instr (.rsvd7 (BitVec.allOnes 64)) := by decide
theorem test_decode_srcRd : decodeWord .source 0x00000000000001000 = .instr (.srcRd 4096) := by decide
theorem test_decode_srcSk : decodeWord .source 0x1FFFFFFFFFFFFFFFD = .instr (.srcSk (-3)) := by decide
theorem test_decode_commandTooWide : decodeWord .command (2 ^ 67) = .rejected .commandTooWide := by decide
theorem test_decode_requestTooWide : decodeWord .source (2 ^ 65) = .rejected .requestTooWide := by decide
theorem test_encode_rds : encode (.rds 12) = 0x1000000000000000C := by decide
theorem test_encode_srcSk : encode (.srcSk (-3)) = 0x1FFFFFFFFFFFFFFFD := by decide
theorem test_decodeTableWord :
    decodeTableWord 67 0x20000000000000048 = some (.skb 72) ∧ decodeTableWord 72 0x20000000000000048 = some (.skb 72) ∧
    decodeTableWord 65 0x10000000000000008 = some (.srcSk 8) ∧ decodeTableWord 67 (2 ^ 67) = none := by decide

/-! WellFormed refuses the ill-formed words (R63, R64, R66; 20_memory.md R43). -/

/-- `W = 32`, `L2_BYTES = 8`, `LANE_LITTLE`: two lines, the parameters of most of the spec's vectors. -/
def p32 : Params := { width := .w32, l2Bytes := 8, laneLittle := true }

/-- `W = 64`, `L2_BYTES = 16`, the other lane order. -/
def p64 : Params := { width := .w64, l2Bytes := 16, laneLittle := false }

theorem test_illFormed_rdu : (Instr.rdu 0).wellFormed p32 = false ∧ (Instr.rdu 65).wellFormed p32 = false := by decide
theorem test_illFormed_rds : (Instr.rds 0).wellFormed p32 = false ∧ (Instr.rds 0x8000000000000000).wellFormed p32 = false := by
  decide
theorem test_illFormed_skb : (Instr.skb 0).wellFormed p32 = false := by decide
theorem test_illFormed_reserved :
    (Instr.rsvd5 0).wellFormed p32 = false ∧ (Instr.rsvd6 0).wellFormed p32 = false ∧
    (Instr.rsvd7 0).wellFormed p32 = false := by decide
theorem test_illFormed_srcRd : (Instr.srcRd 0).wellFormed p32 = false ∧ (Instr.srcRd 5).wellFormed p32 = false := by
  decide
theorem test_illFormed_srcSk :
    (Instr.srcSk 0).wellFormed p32 = false ∧ (Instr.srcSk (-4)).wellFormed p32 = false ∧
    (Instr.srcSk 6).wellFormed p32 = false := by decide
theorem test_wellFormed :
    (Instr.rdu 1).wellFormed p32 ∧ (Instr.rds 64).wellFormed p32 ∧ (Instr.skb (BitVec.allOnes 64)).wellFormed p32 ∧
    (Instr.pos 7).wellFormed p32 ∧ (Instr.rsy 0).wellFormed p32 ∧ (Instr.srcRd 8).wellFormed p32 ∧
    (Instr.srcRd 4).wellFormed p32 ∧ (Instr.srcSk (-3)).wellFormed p32 ∧ (Instr.srcSk 4).wellFormed p32 := by decide

/-- The operand checks of execution are those of WellFormed (R63, R64). -/
theorem legal_iff_wellFormed (p : Params) (n : Arg) :
    legalWidth n = (Instr.rdu n).wellFormed p ∧ legalWidth n = (Instr.rds n).wellFormed p ∧
    legalCount n = (Instr.skb n).wellFormed p := ⟨rfl, rfl, rfl⟩

/-! The pure functions (95_test_vectors.md 3.1). -/

theorem test_selMask : selMask 32 8 = 0xFF000000 ∧ selMask 32 32 = 0xFFFFFFFF ∧ selMask 64 8 = 0xFF00000000000000 := by
  decide
theorem test_peek : peek 32 0xFE000000 8 = 0xFE ∧ peek 64 0xFF00AB0000000000 12 = 0xFF0 := by decide
theorem test_dropBits : dropBits 32 0x80000001 1 = 0x00000002 ∧ dropBits 32 0x10325476 32 = 0 := by decide
theorem test_beNorm : beNorm p32 0x76543210 = 0x10325476 ∧ beNorm p64 0x0123456789ABCDEF = 0x0123456789ABCDEF := by
  decide
theorem test_tailMask : tailMask 32 0xFF00ABEE 8 = 0xFF00AB00 ∧ tailMask 64 0xFF00ABEEEEEEEEEE 40 = 0xFF00AB0000000000 := by
  decide
theorem test_combine : combine 0xFE 0x5AC3 16 = 0xFE5AC3 ∧ combine 0xDE 0xADBEEF7F 32 = 0xDEADBEEF7F := by decide
theorem test_sext : sext 8 4 = 0xFFFFFFFFFFFFFFF8 ∧ sext 0x7F 8 = 0x7F ∧ sext 0x8000000000000001 64 = 0x8000000000000001 := by
  decide

/-! Small states over the stream `B10` of 95_test_vectors.md. -/

/-- The stream `B10`. -/
def b10 : List Byte := [0x10, 0x32, 0x54, 0x76, 0x98, 0xBA, 0xDC, 0xFE, 0x5A, 0xC3]

/-- The stream `C13`. -/
def c13 : List Byte := [0x01, 0x23, 0x45, 0x67, 0x89, 0xAB, 0xCD, 0xEF, 0xDE, 0xAD, 0xBE, 0xEF, 0x7F]

/-- The machine right after reset, over a byte source. -/
def start (src : ByteSource) : State := State.resetWith p32 src

/-- The machine after the first full fill over `B10`, with this register and this next line. -/
def filled (cache : Word) (cb nl : Nat) (src : ByteSource) : State :=
  { start src with
    cache := cache, consumedBits := cb, lines := [0x76543210, 0xFEDCBA98], nextLine := nl, currentBytePos := 8 }

/-- What a result's next state shows. -/
def next? {α : Type} (r : StepResult) (f : State → α) : Option α :=
  match r with
  | .next t => some (f t)
  | .fault _ => none
  | .refused _ => none

/-- The register, the indices and the position, as the state column of 95_test_vectors.md lists them. -/
def column (t : State) : Word × Nat × Nat × Nat × BitVec 64 :=
  (t.cache, t.consumedBits, t.nextLine, t.unusedLines, t.currentBytePos)

/-- The transaction `RD(max)->k` over a byte source answering these bytes. -/
def rd (max : Arg) (b : List Byte) : Event := .transaction (.read max b)

/-- The transaction `SK(off)->ok`. -/
def sk (off : Arg) (ok : Bool) : Event := .transaction (.seek off ok)

/-! Per instruction (95_test_vectors.md 2, 3 and 4). -/

/-- Table S2b, second row: a straddling read across a line pop. -/
theorem test_rdu_straddles :
    next? (exec (.rdu 32) (filled 0x76000000 24 1 (.mem b10 8))) (fun t => (column t, t.trace)) =
      some ((0xFE000000, 24, 2, 0, 8), [answer (.rdu 32) .ok 0x7698BADC]) := by decide

/-- Table S2c, third row: the tail word is too short, and the cursor has moved (R106 case b). -/
theorem test_rdu_tailTooShort :
    next? (exec (.rdu 32) (filled 0xFE000000 24 2 (.mem b10 8))) (fun t => (t.consumedBits, t.currentBytePos, t.trace)) =
      some (16, 10, [rd 8 [0x5A, 0xC3], sk (-2) true, rd 4 [0x5A, 0xC3], answer (.rdu 32) .fail 0]) := by decide

/-- The register of the same row. -/
theorem test_tailLoad_register : (loadTail [0x5A, 0xC3] (filled 0xFE000000 24 2 (.mem b10 10))).cache = 0x5AC30000 := by
  apply BitVec.eq_of_toNat_eq
  exact (tailWord_toNat (p := p32) (b := [0x5A, 0xC3]) (by decide) 0).trans (by decide)

/-- The second line of `B10` by a line pop (table S2), read signed: `98` is minus 104 (R86). -/
theorem test_rds_signExtends :
    next? (exec (.rds 8) (filled 0 32 1 (.mem b10 8))) (fun t => (column t, t.trace)) =
      some ((0xBADCFE00, 8, 2, 0, 8), [answer (.rds 8) .ok 0xFFFFFFFFFFFFFF98]) := by decide

/-- Table F1, third row, read signed: the refused un-seek, after which only the fault flag is known. -/
theorem test_rds_refusedUnseek :
    next? (exec (.rds 8) (filled 0 32 2 (.scripted [[0x5A, 0xC3]] [false]))) (fun t => (t.fault, t.trace)) =
      some (true, [rd 8 [0x5A, 0xC3], sk (-2) false, answer (.rds 8) .fault 0]) := by decide

/-- Table K2, first row: a seek through the byte source, then a partial fill with an un-seek. -/
theorem test_skb_throughTheSource :
    next? (exec (.skb 72) (start (.mem c13 0))) (fun t => (column t, t.trace)) =
      some ((0xADBEEF00, 8, 2, 1, 12),
        [sk 8 true, rd 8 [0xDE, 0xAD, 0xBE, 0xEF, 0x7F], sk (-1) true, answer (.skb 72) .ok 0]) := by decide

/-- Table K4: the residual cannot be loaded; the cursor stands at the end of the stream. -/
theorem test_skb_pastTheEnd :
    next? (exec (.skb 88) (start (.mem b10 0))) (fun t => (column t, t.trace)) =
      some ((0, 32, 2, 2, 10),
        [sk 8 true, rd 8 [0x5A, 0xC3], sk (-2) true, rd 4 [0x5A, 0xC3], rd 8 [], rd 4 [], answer (.skb 88) .fail 0]) := by
  decide

/-- Table H1: POS answers the byte source's cursor, whatever its operand. -/
theorem test_pos :
    next? (exec (.pos 0xDEADBEEF00000000) (filled 0x25476000 12 1 (.mem b10 8))) (fun t => t.trace) =
      some [answer (.pos 0xDEADBEEF00000000) .ok 8] := by decide

/-- Table F1: RSY in the fault state. -/
theorem test_rsy_clearsTheFault :
    next? (exec (.rsy 8) { filled 0x12345678 5 1 (.mem b10 8) with fault := true, unusedLines := 2 })
        (fun t => (column t, t.fault, t.trace)) =
      some ((0, 32, 2, 0, 8), false, [answer (.rsy 8) .ok 0]) := by decide

/-- Table K6: the reserved codes. -/
theorem test_rsvd5 :
    next? (exec (.rsvd5 0) (start (.mem b10 0))) id =
      some ((start (.mem b10 0)).emit [answer (.rsvd5 0) .invalid 0]) := by decide
theorem test_rsvd6 :
    next? (exec (.rsvd6 1) { start (.mem b10 0) with fault := true }) id =
      some (({ start (.mem b10 0) with fault := true } : State).emit [answer (.rsvd6 1) .fault 0]) := by decide
theorem test_rsvd7 :
    next? (exec (.rsvd7 (BitVec.allOnes 64)) (start (.mem b10 0))) id =
      some ((start (.mem b10 0)).emit [answer (.rsvd7 (BitVec.allOnes 64)) .invalid 0]) := by decide

/-- R41, R52, R54: a read near the end of the reference byte source is short. -/
theorem test_srcRd :
    next? (exec (.srcRd 8) (filled 0 32 2 (.mem b10 8))) (fun t => (t.currentBytePos, t.source, t.trace)) =
      some (10, .mem b10 10, [rd 8 [0x5A, 0xC3]]) := by decide

/-- R42, R52, R54: an offset in two's complement; a target outside the data is refused and moves nothing. -/
theorem test_srcSk_back :
    next? (exec (.srcSk (-3)) (filled 0 32 2 (.mem b10 8))) (fun t => (t.currentBytePos, t.source, t.trace)) =
      some (5, .mem b10 5, [sk (-3) true]) := by decide
theorem test_srcSk_refused :
    next? (exec (.srcSk 3) (filled 0 32 2 (.mem b10 8))) (fun t => (t.currentBytePos, t.source, t.trace)) =
      some (8, .mem b10 8, [sk 3 false]) := by decide

/-- Part 3.3: a partial fill of three of four lines, moved to the end of the buffer. -/
theorem test_partialFill :
    (match reload (State.resetWith { p32 with l2Bytes := 16 } (.mem c13 0)) with
      | .ok _ t => some (column t, t.lines.drop 1)
      | _ => none) = some ((0x01234567, 0, 2, 1, 12), [0x67452301, 0xEFCDAB89, 0xEFBEADDE]) := by decide

/-! The step. -/

/-- A word of the table placed for the next step is the next thing that runs. -/
theorem test_withFetchWord_command :
    next? (step (State.reset.withFetchWord 67 0x40000000000000002)) (fun t => (t.currentBytePos, t.inbox, t.trace)) =
      some (2, [], [answer (.rsy 2) .ok 0]) := by decide +kernel
theorem test_withFetchWord_request :
    next? (step (State.reset.withFetchWord 65 0x00000000000001000)) (fun t => (t.inbox, t.trace)) =
      some ([], [rd 4096 []]) := by decide +kernel

/-- Scenario S1's end: nothing left, two reads answer nothing. -/
theorem test_step_endOfStream :
    next? (step { filled 0 32 2 (.mem b10 10) with inbox := [.command 0x00000000000000001, .reset] })
        (fun t => (column t, t.inbox, t.trace)) =
      some ((0, 32, 2, 2, 8), [.reset], [rd 8 [], rd 4 [], answer (.rdu 1) .fail 0]) := by decide

/-- Part 3.6: reset does not move the byte source. -/
theorem test_step_reset :
    next? (step { filled 0x25476000 12 1 (.mem b10 8) with inbox := [.reset] }) id = some (start (.mem b10 8)) := by
  decide

/-! Witnesses: for every statement with hypotheses, concrete operands and a concrete state that meet all of them. -/

theorem witness_EncodeOfDecodeIsIdentity :
    decodeWord .command (2 ^ 67 - 1) = .instr (.rsvd7 (BitVec.allOnes 64)) ∧
    decodeWord .source (2 ^ 65 - 1) = .instr (.srcSk (BitVec.allOnes 64)) := by decide

theorem witness_OperationCodes : (0 : Nat) < 8 ∧ (7 : Nat) < 8 ∧ 0 < 2 ^ 64 ∧ 2 ^ 64 - 1 < 2 ^ 64 := by decide

theorem witness_SelectionMaskIsTheTopBits : 0 ≤ p32.w ∧ 32 ≤ p32.w ∧ 64 ≤ p64.w := by decide

theorem witness_PeekReturnsTheTopBits :
    (0xFFFFFFFF : Word).toNat < 2 ^ p32.w ∧ 1 ≤ 32 ∧ 32 ≤ p32.w ∧ (BitVec.allOnes 64).toNat < 2 ^ p64.w ∧ 64 ≤ p64.w := by
  decide

theorem witness_DropShiftsZerosIn : (0x80000001 : Word).toNat < 2 ^ p32.w ∧ 0 ≤ p32.w ∧ 32 ≤ p32.w := by decide

theorem witness_NormalisationUndoesTheLaneOrder :
    (b10.take 4).length = p32.wb ∧ (b10.take 8).length = p64.wb ∧ (0x76543210 : Word).toNat < 2 ^ p32.w ∧
    3 < (b10.take 4).length := by decide

theorem witness_TailMaskClearsTheConsumedBits : (0x5AC3EEEE : Word).toNat < 2 ^ p32.w ∧ 0 ≤ p32.w ∧ 32 ≤ p32.w := by decide

theorem witness_CombineJoinsTwoParts :
    (0xFE : Arg).toNat < 2 ^ 8 ∧ (0x5AC3 : Arg).toNat < 2 ^ 16 ∧ 8 + 16 ≤ 64 ∧
    (0xFFFFFFFF : Arg).toNat < 2 ^ 32 ∧ 32 + 32 ≤ 64 := by decide

theorem witness_SignExtensionIsTwosComplement :
    1 ≤ 4 ∧ 4 ≤ 64 ∧ (8 : Arg).toNat < 2 ^ 4 ∧ (8 : Arg).getLsbD (4 - 1) = true ∧
    (7 : Arg).toNat < 2 ^ 4 ∧ (7 : Arg).getLsbD (4 - 1) = false ∧
    (BitVec.allOnes 64).toNat < 2 ^ 64 ∧ (BitVec.allOnes 64).getLsbD (64 - 1) = true := by decide

theorem p32_wf : p32.wf := by decide
theorem p64_wf : p64.wf := by decide

theorem witness_BufferWriteThenRead :
    p32.wf ∧ Memory.wf p32 [0x76543210, 0xFEDCBA98] ∧ [(0x5A : Byte), 0xC3].length ≤ p32.l2Bytes ∧
    1 < [(0x5A : Byte), 0xC3].length ∧ [(0x5A : Byte), 0xC3].length ≤ 2 := by decide

theorem start_inv (src : ByteSource) : (start src).Inv :=
  ⟨p32_wf, (by decide : Memory.wf p32 (List.replicate 2 0)), (by decide : (0 : Word).toNat < 2 ^ 32),
    fun _ => (by decide : 32 ≤ 32), fun _ => (by decide : 2 ≤ p32.lineCount), fun _ => Nat.zero_le _,
    fun _ _ _ => BitVec.getLsbD_zero⟩

/-- The reader of `filled` meets the invariant where its register and indices are in range and its tail is zero. -/
theorem filled_inv {cache : Word} {cb nl : Nat} (src : ByteSource) (h : cache.toNat < 2 ^ 32) (h1 : cb ≤ 32)
    (h2 : nl ≤ 2) (h3 : ∀ i < cb, cache.getLsbD i = false) : (filled cache cb nl src).Inv :=
  ⟨p32_wf, (by decide : Memory.wf p32 [0x76543210, 0xFEDCBA98]), h, fun _ => h1,
    fun _ => Nat.le_trans h2 (by decide : 2 ≤ p32.lineCount), fun _ => Nat.zero_le _, fun _ => h3⟩

theorem witness_FullFill :
    (start (.mem b10 0)).Inv ∧ (start (.mem b10 0)).nextLine = (start (.mem b10 0)).params.lineCount ∧
    (start (.mem b10 0)).source.read p32.l2Bytes = some (b10.take 8, .mem b10 8) ∧ (b10.take 8).length = p32.l2Bytes :=
  ⟨start_inv _, by decide⟩

/-- With an un-seek and without one. -/
theorem witness_PartialFill :
    ((start (.mem b10 3)).Inv ∧ (start (.mem b10 3)).nextLine = p32.lineCount ∧
      (ByteSource.mem b10 3).read p32.l2Bytes = some (b10.drop 3, .mem b10 10) ∧ p32.wb ≤ (b10.drop 3).length ∧
      (b10.drop 3).length < p32.l2Bytes ∧ (b10.drop 3).length % p32.wb = 3 ∧
      (ByteSource.mem b10 10).seek (-((3 : Nat) : Int)) = some (true, .mem b10 7)) ∧
    ((start (.mem b10 6)).Inv ∧ (ByteSource.mem b10 6).read p32.l2Bytes = some (b10.drop 6, .mem b10 10) ∧
      p32.wb ≤ (b10.drop 6).length ∧ (b10.drop 6).length < p32.l2Bytes ∧ (b10.drop 6).length % p32.wb = 0) :=
  ⟨⟨start_inv _, by decide⟩, start_inv _, by decide⟩

/-- With an un-seek and without one (then only a byte source outside the contract has bytes for the tail load). -/
theorem witness_DegenerateFillThenTailLoad :
    ((start (.mem b10 8)).Inv ∧ (start (.mem b10 8)).nextLine = p32.lineCount ∧
      (ByteSource.mem b10 8).read p32.l2Bytes = some ([0x5A, 0xC3], .mem b10 10) ∧ 2 < p32.wb ∧
      (ByteSource.mem b10 10).seek (-((2 : Nat) : Int)) = some (true, .mem b10 8) ∧
      (ByteSource.mem b10 8).read p32.wb = some ([0x5A, 0xC3], .mem b10 10) ∧ 1 ≤ 2 ∧ 2 ≤ p32.wb) ∧
    (ByteSource.scripted [[], [1, 2, 3, 4]] []).read p32.l2Bytes = some ([], .scripted [[1, 2, 3, 4]] []) ∧
    (ByteSource.scripted [[1, 2, 3, 4]] []).read p32.wb = some ([1, 2, 3, 4], .scripted [] []) ∧
    [(1 : Byte), 2, 3, 4].length = p32.wb :=
  ⟨⟨start_inv _, by decide⟩, by decide⟩

theorem witness_ReloadFailsAtEndOfStream :
    (start (.mem b10 10)).Inv ∧ (start (.mem b10 10)).nextLine = p32.lineCount ∧
    (ByteSource.mem b10 10).read p32.l2Bytes = some ([], .mem b10 10) ∧
    (ByteSource.mem b10 10).read p32.wb = some ([], .mem b10 10) := ⟨start_inv _, by decide⟩

theorem witness_FailedReloadKeepsTheRegister : ∃ t, reload (filled 0x76000000 24 2 (.mem b10 10)) = .fail t := ⟨_, rfl⟩

/-- The byte source of the next witness: one short read, and a refused seek. -/
def refusing : ByteSource := .scripted [[0x5A, 0xC3]] [false]

/-- An exhausted register; a straddling read; the second half of a wide read; SKB with and without a forward seek. -/
theorem witness_RefusedUnseekRaisesFault :
    ((start refusing).Inv ∧ (start refusing).fault = false ∧ (start refusing).rem < (1 : Arg).toNat ∧
      (64 : Arg).toNat ≤ 64 ∧ (start refusing).nextLine = p32.lineCount ∧
      refusing.read p32.l2Bytes = some ([0x5A, 0xC3], .scripted [] [false]) ∧
      [(0x5A : Byte), 0xC3].length < p32.l2Bytes ∧ [(0x5A : Byte), 0xC3].length % p32.wb ≠ 0 ∧
      (ByteSource.scripted [] [false]).seek (-((2 : Nat) : Int)) = some (false, .scripted [] [])) ∧
    ((filled 0xFE000000 24 2 refusing).Inv ∧ (filled 0xFE000000 24 2 refusing).rem < (9 : Arg).toNat ∧
      (40 : Arg).toNat - 32 = (filled 0xFE000000 24 2 refusing).rem) ∧
    (∃ s1, (start refusing).rem < (1 : Arg).toNat ∧
      seekWhole (seekCalc (1 : Arg).toNat (start refusing)) (start refusing) = .ok () s1 ∧
      (seekCalc (1 : Arg).toNat (start refusing)).residual ≠ 0 ∧ s1.nextLine = p32.lineCount ∧
      s1.source.read p32.l2Bytes = some ([0x5A, 0xC3], .scripted [] [false])) ∧
    (∃ s1, seekWhole (seekCalc (33 : Arg).toNat (start (.scripted [[0x5A, 0xC3]] [true, false])))
        (start (.scripted [[0x5A, 0xC3]] [true, false])) = .ok () s1 ∧
      s1.nextLine = p32.lineCount ∧ s1.source.read p32.l2Bytes = some ([0x5A, 0xC3], .scripted [] [false])) :=
  ⟨⟨start_inv _, by decide⟩, ⟨filled_inv _ (by decide) (by decide) (by decide) (by decide), by decide, by decide⟩,
    ⟨_, by decide, rfl, by decide, rfl, rfl⟩, _, rfl, rfl, rfl⟩

theorem witness_OneResponseAfterTheTransactions :
    ∃ t, (Instr.skb 72).port = .command ∧ exec (.skb 72) (start (.mem c13 0)) = .next t := ⟨_, rfl, rfl⟩

/-- No transaction; and a command that is answered FAULT. -/
theorem witness_CommandFrame :
    (∃ t evs, (Instr.rdu 8).port = .command ∧ (∀ p, Instr.rdu 8 ≠ .rsy p) ∧
      exec (.rdu 8) (filled 0x76000000 24 1 (.mem b10 8)) = .next t ∧
      t.trace = (filled 0x76000000 24 1 (.mem b10 8)).trace ++ evs ∧ transactionsOf evs = []) ∧
    (∃ t evs, exec (.rdu 8) (start (.scripted [[1]] [false])) = .next t ∧
      t.trace = (start (.scripted [[1]] [false])).trace ++ evs ∧ answer (.rdu 8) .fault 0 ∈ evs) :=
  ⟨⟨_, _, rfl, by simp, rfl, rfl, rfl⟩, _, [rd 8 [1], sk (-1) false, answer (.rdu 8) .fault 0], rfl, by decide, by decide⟩

theorem witness_OnlyLegalRequestsAreIssued :
    ∃ t evs, (start (.mem c13 0)).Inv ∧ (Instr.skb 72).port = .command ∧ exec (.skb 72) (start (.mem c13 0)) = .next t ∧
      t.trace = (start (.mem c13 0)).trace ++ evs ∧ transactionsOf evs ≠ [] :=
  ⟨_, [sk 8 true, rd 8 [0xDE, 0xAD, 0xBE, 0xEF, 0x7F], sk (-1) true, answer (.skb 72) .ok 0], start_inv _, rfl, rfl,
    by decide, by decide⟩

theorem witness_TransactionsAreBounded :
    ∃ t evs, exec (.skb 88) (start (.mem b10 0)) = .next t ∧ t.trace = (start (.mem b10 0)).trace ++ evs ∧
      (transactionsOf evs).length = 6 :=
  ⟨_, [sk 8 true, rd 8 [0x5A, 0xC3], sk (-2) true, rd 4 [0x5A, 0xC3], rd 8 [], rd 4 [], answer (.skb 88) .fail 0], rfl,
    by decide, by decide⟩

/-- The reference byte source; a script of full answers and one of tail answers, each as long as it must be; and one
answer each for the lone requests. -/
theorem witness_EveryWordCompletes :
    (start (.mem b10 0)).source = .mem b10 0 ∧
    ((Instr.skb 72).port = .command ∧ p32.wf ∧ legalAnswers p32 (List.replicate 16 (b10.take 8)) = true ∧
      1 + 3 * (1 + p32.w / 8) ≤ (List.replicate 16 (b10.take 8)).length ∧
      1 + 3 * (1 + p32.w / 8) ≤ (List.replicate 16 false).length) ∧
    legalAnswers p32 (List.replicate 8 [] ++ List.replicate 8 (b10.take 3)) = true ∧
    (start (.scripted [[1, 2]] [])).source = .scripted ([1, 2] :: []) [] ∧ [(1 : Byte), 2].length ≤ (2 : Arg).toNat ∧
    (start (.scripted [] [false])).source = .scripted [] (false :: []) :=
  ⟨rfl, by decide, by decide, rfl, by decide, rfl⟩

/-- Each clause at a state where it says something: a RELOAD raises, or is not answered, in each of its places. -/
theorem witness_ReloadEndsTheCommand :
    ((filled 0xFE000000 24 2 refusing).rem < 9 ∧
      ∃ r, (reload (filled 0xFE000000 24 2 refusing)).ending (.rdu 9) = some r) ∧
    (∃ s1 r, (filled 0 32 2 (.scripted [[], [1]] [])).consumedBits = p32.w ∧
      reload (filled 0 32 2 (.scripted [[], [1]] [])) = .ok () s1 ∧
      s1.rem < 32 ∧ (reload s1).ending (.rdu 32) = some r) ∧
    ((start refusing).fault = false ∧ 1 ≤ (1 : Arg).toNat ∧ (32 : Arg).toNat ≤ 32 ∧ 33 ≤ (33 : Arg).toNat ∧
      (64 : Arg).toNat ≤ 64 ∧ (∃ r, (read32 (1 : Arg).toNat (start refusing)).ending (.rdu 1) = some r) ∧
      (∃ r, (read32 ((33 : Arg).toNat - 32) (start refusing)).ending (.rdu 33) = some r) ∧
      ∃ h s1 r, read32 ((40 : Arg).toNat - 32) (filled 0xFE000000 24 2 refusing) = .ok h s1 ∧
        (read32 32 s1).ending (.rds 40) = some r) ∧
    ((start refusing).rem < (1 : Arg).toNat ∧
      (∃ r, (seekWhole (seekCalc (32 : Arg).toNat (start (.scripted [] []))) (start (.scripted [] []))).ending (.skb 32) = some r) ∧
      (∃ s1 r, seekWhole (seekCalc (1 : Arg).toNat (start refusing)) (start refusing) = .ok () s1 ∧
        (seekCalc (1 : Arg).toNat (start refusing)).residual ≠ 0 ∧ (reload s1).ending (.skb 1) = some r) ∧
      ∃ s1 s2 r, seekWhole (seekCalc (9 : Arg).toNat (start (.scripted [[], [1]] []))) (start (.scripted [[], [1]] [])) = .ok () s1 ∧
        reload s1 = .ok () s2 ∧
        (seek (seekCalc (9 : Arg).toNat (start (.scripted [[], [1]] []))).residual s2).ending (.skb 9) = some r) :=
  ⟨⟨by decide, _, rfl⟩, ⟨_, _, rfl, rfl, by decide, rfl⟩,
    ⟨rfl, by decide, by decide, by decide, by decide, ⟨_, rfl⟩, ⟨_, rfl⟩, _, _, _, rfl, rfl⟩,
    by decide, ⟨_, rfl⟩, ⟨_, _, rfl, by decide, rfl⟩, _, _, _, rfl, rfl, rfl⟩

theorem witness_SeekCalcIdentity :
    (filled 0x76000000 24 1 (.mem b10 8)).rem < 9 ∧ (filled 0x76000000 24 1 (.mem b10 8)).rem < 2 ^ 64 - 1 ∧
    2 ^ 64 - 1 < 2 ^ 64 := by decide

/-- At both ends of the range. -/
theorem witness_SeekInsideTheRegister :
    (filled 0x76000000 24 1 (.mem b10 8)).fault = false ∧ 1 ≤ (1 : Arg).toNat ∧
    (1 : Arg).toNat ≤ (filled 0x76000000 24 1 (.mem b10 8)).rem ∧
    (8 : Arg).toNat = (filled 0x76000000 24 1 (.mem b10 8)).rem := by decide

theorem witness_SeekToALineInTheBuffer :
    (filled 0x76000000 24 1 (.mem b10 8)).fault = false ∧ 1 ≤ 1 ∧
    (filled 0x76000000 24 1 (.mem b10 8)).nextLine + 1 ≤ p32.lineCount ∧
    (40 : Arg).toNat = (filled 0x76000000 24 1 (.mem b10 8)).rem + p32.w * 1 := by decide

theorem witness_SeekThroughTheByteSource :
    (start (.mem c13 0)).Inv ∧ (start (.mem c13 0)).fault = false ∧ 1 ≤ 2 ∧
    (64 : Arg).toNat = (start (.mem c13 0)).rem + p32.w * (p32.lineCount - (start (.mem c13 0)).nextLine + 2) ∧
    (ByteSource.mem c13 0).seek ((2 * p32.wb : Nat) : Int) = some (true, .mem c13 8) := ⟨start_inv _, by decide⟩

/-- Table K3. -/
theorem witness_RefusedForwardSeekChangesNothing :
    (start (.mem c13 0)).Inv ∧ (start (.mem c13 0)).fault = false ∧ (start (.mem c13 0)).rem < (200 : Arg).toNat ∧
    p32.lineCount - (start (.mem c13 0)).nextLine < ((200 : Arg).toNat - (start (.mem c13 0)).rem) / p32.w ∧
    (ByteSource.mem c13 0).seek
      (((((200 : Arg).toNat - (start (.mem c13 0)).rem) / p32.w
        - (p32.lineCount - (start (.mem c13 0)).nextLine)) * p32.wb : Nat) : Int)
      = some (false, .mem c13 0) := ⟨start_inv _, by decide⟩

theorem witness_FaultFlagBarsEveryCommandButRsy :
    (Instr.rsvd7 0).port = .command ∧ (∀ p, Instr.rsvd7 0 ≠ .rsy p) ∧
    ({ start (.mem b10 0) with fault := true } : State).fault = true := ⟨rfl, by simp, rfl⟩

theorem witness_InvalidRequestsAreRejected :
    (start (.mem b10 0)).fault = false ∧ (0 : Arg).toNat = 0 ∧ 65 ≤ (65 : Arg).toNat ∧ 65 ≤ (BitVec.allOnes 64).toNat ∧
    Instr.rsvd6 1 ∈ [Instr.rsvd5 1, .rsvd6 1, .rsvd7 1] ∧
    ∃ t evs d, exec (.rdu 65) (start (.mem b10 0)) = .next t ∧
      t.trace = (start (.mem b10 0)).trace ++ evs ++ [answer (.rdu 65) .invalid d] :=
  ⟨by decide, by decide, by decide, by decide, by decide, _, [], 0, rfl, rfl⟩

theorem witness_ReservedCodesHaveNoEffect : ∀ i ∈ [Instr.rsvd5 9, .rsvd6 9, .rsvd7 9], i.port = .command := by decide

theorem witness_RdsIsRduSignExtended :
    exec (.rdu 8) (start (.mem b10 10)) =
      .next (({ start (.mem b10 10) with unusedLines := 2, trace := [rd 8 [], rd 4 []] } : State).emit
        [answer (.rdu 8) .fail 0]) ∧
    exec (.rdu 8) (filled 0xFE000000 24 1 (.mem b10 8)) =
      .next ((filled 0 32 1 (.mem b10 8)).emit [answer (.rdu 8) .ok 0xFE]) := ⟨rfl, rfl⟩

theorem witness_SourceReadTransaction :
    (start (.mem b10 9)).source.read (4 : Arg).toNat = some ([0xC3], .mem b10 10) ∧ [(0xC3 : Byte)].length ≤ (4 : Arg).toNat ∧
    10 ≤ b10.length ∧ 0 ≤ b10.length := by decide

theorem witness_SourceSeekTransaction :
    (start (.mem b10 9)).source.seek (1 : Arg).toInt = some (true, .mem b10 10) ∧
    (start (.mem b10 9)).source.seek (2 : Arg).toInt = some (false, .mem b10 9) ∧
    (start (.mem b10 9)).source.seek (-9 : Arg).toInt = some (true, .mem b10 0) ∧ 9 ≤ b10.length := by decide

theorem witness_SourceStops :
    ((start (.scripted [] [])).source.read (8 : Arg).toNat = none ∧ (start (.scripted [] [])).source.seek (8 : Arg).toInt = none ∧
      (start (.scripted [[1, 2]] [])).source.read (1 : Arg).toNat = some ([1, 2], .scripted [] []) ∧
      (1 : Arg).toNat < [(1 : Byte), 2].length) ∧
    ((start (.scripted [] [])).Inv ∧ (start (.scripted [] [])).fault = false ∧
      (start (.scripted [] [])).rem < (1 : Arg).toNat ∧ (64 : Arg).toNat ≤ 64 ∧
      (start (.scripted [] [])).nextLine = p32.lineCount ∧ (ByteSource.scripted [] []).read p32.l2Bytes = none ∧
      p32.lineCount - (start (.scripted [] [])).nextLine < ((32 : Arg).toNat - (start (.scripted [] [])).rem) / p32.w ∧
      (ByteSource.scripted [] []).seek
        (((((32 : Arg).toNat - (start (.scripted [] [])).rem) / p32.w
          - (p32.lineCount - (start (.scripted [] [])).nextLine)) * p32.wb : Nat) : Int) = none) ∧
    ((ByteSource.scripted [List.replicate 9 0] []).read p32.l2Bytes = some (List.replicate 9 0, .scripted [] []) ∧
      p32.l2Bytes < (List.replicate 9 (0 : Byte)).length) ∧
    ((ByteSource.scripted [[1]] []).read p32.l2Bytes = some ([1], .scripted [] []) ∧ [(1 : Byte)].length < p32.l2Bytes ∧
      [(1 : Byte)].length % p32.wb ≠ 0 ∧ (ByteSource.scripted [] []).seek (-((1 : Nat) : Int)) = none) ∧
    ((ByteSource.scripted [[1], [1, 2, 3, 4, 5]] [true]).read p32.l2Bytes =
        some ([1], .scripted [[1, 2, 3, 4, 5]] [true]) ∧
      (ByteSource.scripted [[1, 2, 3, 4, 5]] [true]).seek (-((1 : Nat) : Int)) =
        some (true, .scripted [[1, 2, 3, 4, 5]] []) ∧
      (ByteSource.scripted [[1, 2, 3, 4, 5]] []).read p32.wb = some ([1, 2, 3, 4, 5], .scripted [] []) ∧
      p32.wb < [(1 : Byte), 2, 3, 4, 5].length ∧ (ByteSource.scripted [] []).read p32.wb = none) ∧
    ∃ s1, seekWhole (seekCalc (1 : Arg).toNat (start (.scripted [] []))) (start (.scripted [] [])) = .ok () s1 ∧
      (seekCalc (1 : Arg).toNat (start (.scripted [] []))).residual ≠ 0 ∧ s1.nextLine = p32.lineCount ∧
      s1.source.read p32.l2Bytes = none :=
  ⟨by decide, ⟨start_inv _, by decide⟩, by decide, by decide, by decide, _, rfl, by decide, rfl, rfl⟩

/-- Both ends of the range: one bit, and all that the register holds. -/
theorem witness_ReadFromTheRegister :
    (filled 0x76000000 24 1 (.mem b10 8)).Inv ∧ (filled 0x76000000 24 1 (.mem b10 8)).fault = false ∧
    1 ≤ (1 : Arg).toNat ∧ (8 : Arg).toNat ≤ 32 ∧ (8 : Arg).toNat ≤ (filled 0x76000000 24 1 (.mem b10 8)).rem ∧
    (filled 0x10325476 0 1 (.mem b10 8)).Inv ∧ (32 : Arg).toNat ≤ (filled 0x10325476 0 1 (.mem b10 8)).rem :=
  ⟨filled_inv _ (by decide) (by decide) (by decide) (by decide), by decide, by decide, by decide, by decide,
    filled_inv _ (by decide) (by decide) (by decide) (by decide), by decide⟩

theorem witness_BufferedReadFrame :
    (filled 0x10325476 0 1 (.mem b10 8)).Inv ∧ (filled 0x10325476 0 1 (.mem b10 8)).fault = false ∧
    1 ≤ (64 : Arg).toNat ∧ (64 : Arg).toNat ≤ 64 ∧
    (64 : Arg).toNat ≤ (filled 0x10325476 0 1 (.mem b10 8)).heldBits.length :=
  ⟨filled_inv _ (by decide) (by decide) (by decide) (by decide), by decide⟩

/-- The reload fails (table S2d), and the new register is too short (table S2c). -/
theorem witness_StraddlingReadFailures :
    ((filled 0xFE000000 24 2 (.mem b10 10)).Inv ∧ (filled 0xFE000000 24 2 (.mem b10 10)).fault = false ∧
      1 ≤ (filled 0xFE000000 24 2 (.mem b10 10)).rem ∧ (filled 0xFE000000 24 2 (.mem b10 10)).rem < (9 : Arg).toNat ∧
      (32 : Arg).toNat ≤ 32 ∧ ∃ u, reload (filled 0xFE000000 24 2 (.mem b10 10)) = .fail u) ∧
    (filled 0xFE000000 24 2 (.mem b10 8)).Inv ∧
      ∃ u, reload (filled 0xFE000000 24 2 (.mem b10 8)) = .ok () u ∧
        u.rem < (32 : Arg).toNat - (filled 0xFE000000 24 2 (.mem b10 8)).rem :=
  ⟨⟨filled_inv _ (by decide) (by decide) (by decide) (by decide), by decide, by decide, by decide, by decide, _, rfl⟩,
    filled_inv _ (by decide) (by decide) (by decide) (by decide), _, rfl, by decide⟩

/-- The first part fails, the second part fails, and neither does. -/
theorem witness_WideReadIsTwoReads :
    (filled 0x10325476 0 1 (.mem b10 8)).fault = false ∧ 33 ≤ (33 : Arg).toNat ∧ (64 : Arg).toNat ≤ 64 ∧
    (∃ u, read32 ((64 : Arg).toNat - 32) (start (.mem b10 10)) = .fail u) ∧
    (∃ h u v, read32 ((40 : Arg).toNat - 32) (filled 0xFE000000 24 2 (.mem b10 10)) = .ok h u ∧ read32 32 u = .fail v) ∧
    (filled 0x10325476 0 1 (.mem b10 8)).Inv ∧
    ∃ h l u v, read32 ((64 : Arg).toNat - 32) (filled 0x10325476 0 1 (.mem b10 8)) = .ok h u ∧ read32 32 u = .ok l v :=
  ⟨by decide, by decide, by decide, ⟨_, rfl⟩, ⟨_, _, _, rfl, rfl⟩,
    filled_inv _ (by decide) (by decide) (by decide) (by decide), _, _, _, _, rfl, rfl⟩

theorem witness_ResetIsInStep :
    p32.wf ∧ p64.wf ∧ 10 ≤ b10.length ∧ 0 ≤ b10.length ∧ b10.length < 2 ^ 60 := by decide

theorem witness_StepKeepsTheInvariant :
    ∃ t, ({ filled 0x76000000 24 1 (.mem b10 8) with inbox := [.command 0x00000000000000020] } : State).Inv ∧
      step { filled 0x76000000 24 1 (.mem b10 8) with inbox := [.command 0x00000000000000020] } = .next t ∧
      t.consumedBits = 24 ∧ t.nextLine = 2 :=
  ⟨_, ⟨by decide, by decide, by decide, fun _ => by decide, fun _ => by decide, fun _ => by decide, fun _ => by decide⟩,
    rfl, by decide, by decide⟩

theorem witness_ParametersAreFixed :
    ∃ t, step { filled 0x76000000 24 1 (.mem b10 8) with inbox := [.command 0x00000000000000020] } = .next t := ⟨_, rfl⟩

/-- By RSY, by reset, and by reset during a command. -/
theorem witness_OnlyRsyAndResetClearTheFault :
    (∃ t, step { start (.mem b10 8) with fault := true, inbox := [.command 0x40000000000000008] } = .next t ∧
      ({ start (.mem b10 8) with fault := true } : State).fault = true ∧ t.fault = false) ∧
    (∃ t, step { start (.mem b10 8) with fault := true, inbox := [.reset] } = .next t ∧ t.fault = false) ∧
    (∃ t, step { start (.mem b10 8) with fault := true, inbox := [.resetDuring 0x00000000000000008 [] (.mem b10 9)] } = .next t ∧
      t.fault = false) :=
  ⟨⟨_, rfl, rfl, rfl⟩, ⟨_, rfl, rfl⟩, _, rfl, rfl⟩

theorem witness_OnlyARefusedUnseekSetsTheFault :
    ∃ t, ({ start (.scripted [[1]] [false]) with inbox := [.command 0x20000000000000001] } : State).Inv ∧
      step { start (.scripted [[1]] [false]) with inbox := [.command 0x20000000000000001] } = .next t ∧
      (start (.scripted [[1]] [false])).fault = false ∧ t.fault = true :=
  ⟨_, ⟨by decide, by decide, by decide, fun _ => by decide, fun _ => by decide, fun _ => by decide, fun _ => by decide⟩,
    rfl, rfl, rfl⟩

theorem witness_OutsideEvents :
    ({ start (.mem b10 8) with inbox := [.reset] } : State).inbox = .reset :: [] ∧
    ({ start (.mem b10 8) with inbox := [.resetDuring 8 [.read 8 []] (.mem b10 9), .reset] } : State).inbox =
      .resetDuring 8 [.read 8 []] (.mem b10 9) :: [.reset] ∧
    ({ start (.mem b10 8) with inbox := [.touchSource (.mem b10 2)] } : State).inbox = .touchSource (.mem b10 2) :: [] :=
  ⟨rfl, rfl, rfl⟩

theorem witness_StepRunsTheDecodedWord :
    (Instr.skb 72).port = .command ∧ (Instr.srcSk (-3)).port = .source ∧
    (start (.mem b10 0)).inbox = [] ∧
    ({ start (.mem b10 0) with inbox := [.command (BitVec.ofNat 67 (encode (.skb 72)))] } : State).inbox =
      .command 0x20000000000000048 :: [] ∧
    ({ start (.mem b10 0) with inbox := [.request (BitVec.ofNat 65 (encode (.srcSk (-3))))] } : State).inbox =
      .request 0x1FFFFFFFFFFFFFFFD :: [] := by decide

/-- Two machines that differ in a line already used, in `unusedLines` and in the free values taken. -/
theorem witness_ArbitraryStateNeverReachesAnOutput :
    (filled 0x76000000 24 1 (.mem b10 8)).Alike
      { filled 0x76000000 24 1 (.mem b10 8) with lines := [0, 0xFEDCBA98], unusedLines := 1, freeCount := 7 } :=
  ⟨filled_inv _ (by decide) (by decide) (by decide) (by decide),
    ⟨by decide, by decide, by decide, fun _ => by decide, fun _ => by decide, fun _ => by decide, fun _ => by decide⟩,
    rfl, rfl, rfl, rfl, rfl, fun _ => rfl, fun _ => rfl, fun _ => rfl, fun _ => rfl, fun _ => rfl⟩

/-- In the fault state two machines may differ in every element of the reader. -/
theorem witness_ArbitraryStateNeverReachesAnOutput_fault :
    ({ filled 0x76000000 24 1 (.mem b10 8) with fault := true } : State).Alike
      { filled 1 63 3 (.mem b10 8) with fault := true, currentBytePos := 77 } :=
  ⟨⟨by decide, by decide, by decide, by simp, by simp, by simp, by simp⟩,
    ⟨by decide, by decide, by decide, by simp, by simp, by simp, by simp⟩,
    rfl, rfl, rfl, rfl, rfl, by simp, by simp, by simp, by simp, by simp⟩

/-- A reader that has delivered 24 bits of `B10` and holds 40 more. -/
theorem filled_inStep : (filled 0x76000000 24 1 (.mem b10 8)).InStep b10 0 24 :=
  ⟨filled_inv _ (by decide) (by decide) (by decide) (by decide), rfl, by decide, rfl, by decide, by decide, by decide⟩

/-- The last bits of the stream, by a read and by a seek, each to the very end. -/
theorem witness_ReadReturnsTheStream :
    (filled 0x76000000 24 1 (.mem b10 8)).InStep b10 0 24 ∧ 1 ≤ (56 : Arg).toNat ∧ (56 : Arg).toNat ≤ 64 ∧
    24 + (56 : Arg).toNat ≤ 8 * (b10.length - 0) := ⟨filled_inStep, by decide⟩

/-- The same operands, for the signed read. -/
theorem witness_SignedReadReturnsTheStream :
    (filled 0x76000000 24 1 (.mem b10 8)).InStep b10 0 24 ∧ 1 ≤ (56 : Arg).toNat ∧ (56 : Arg).toNat ≤ 64 ∧
    24 + (56 : Arg).toNat ≤ 8 * (b10.length - 0) := witness_ReadReturnsTheStream

theorem witness_SeekMovesTheCursor :
    (filled 0x76000000 24 1 (.mem b10 8)).InStep b10 0 24 ∧ 1 ≤ (56 : Arg).toNat ∧
    24 + (56 : Arg).toNat ≤ 8 * (b10.length - 0) := ⟨filled_inStep, by decide⟩

/-- One bit too many, by each of the three commands. -/
theorem witness_PastTheEndFails :
    (filled 0x76000000 24 1 (.mem b10 8)).InStep b10 0 24 ∧ 8 * (b10.length - 0) < 24 + (57 : Arg).toNat ∧
    (57 : Arg).toNat ≤ 64 ∧ 8 * (b10.length - 0) < 24 + (BitVec.allOnes 64).toNat := ⟨filled_inStep, by decide⟩

theorem witness_InStepPositions : (filled 0x76000000 24 1 (.mem b10 8)).InStep b10 0 24 := filled_inStep

/-- Two readers of different width, buffer size and lane order at the start of `B10`, for a word inside the stream,
one past its end and one that is no legal request. -/
theorem witness_ParametersDoNotChangeAnswers :
    (start (.mem b10 0)).InStep b10 0 0 ∧ (State.resetWith p64 (.mem b10 0)).InStep b10 0 0 ∧
    (∀ i ∈ [Instr.rdu 64, .skb 81, .rds 65], i.port = .command) ∧
    (∀ i ∈ [Instr.rdu 64, .skb 81, .rds 65], ∀ a, i ≠ .pos a ∧ i ≠ .rsy a) ∧
    0 + (64 : Arg).toNat ≤ 8 * (b10.length - 0) :=
  ⟨⟨start_inv _, rfl, by decide, rfl, by decide, by decide, by decide⟩,
    ⟨⟨by decide, by decide, by decide, fun _ => by decide, fun _ => by decide, fun _ => by decide, fun _ i _ => by simp [State.resetWith]⟩,
      rfl, by decide, rfl, by decide, by decide, by decide⟩, by decide, by simp, by decide⟩

end Sys2Proof.Tests
end

section

/-! Decoding the encoded word (30_encoding.md R61, R62, R69), and the step on each input that carries a word. -/

namespace Sys2Proof

theorem opField_commandWord (op : BitVec 3) (arg : Arg) : opField (commandWord op arg) = op.toNat :=
  congrArg BitVec.toNat BitVec.extractLsb'_append_eq_left

theorem argField_commandWord (op : BitVec 3) (arg : Arg) : argField (commandWord op arg) = arg :=
  BitVec.extractLsb'_append_eq_right

theorem getLsbD_requestWord (kind : BitVec 1) (a : Arg) : (requestWord kind a).getLsbD 64 = kind.getLsbD 0 := by
  rw [requestWord, BitVec.getLsbD_append, if_neg (Nat.lt_irrefl 64)]

theorem extractLsb'_requestWord (kind : BitVec 1) (a : Arg) : (requestWord kind a).extractLsb' 0 64 = a :=
  BitVec.extractLsb'_append_eq_right

/-- Each operation code has its own constructor (R62), so a command is read back from its word. -/
theorem decodeCommand_encode {i : Instr} (hport : i.port = .command) :
    decodeCommand (BitVec.ofNat 67 (encode i)) = i := by
  cases i with
  | srcRd | srcSk => nomatch hport
  | _ => simp only [encode, BitVec.ofNat_toNat, BitVec.setWidth_eq, decodeCommand, opField_commandWord,
      argField_commandWord, BitVec.reduceToNat]

/-- The kind bit tells the two requests apart (R69), so a request is read back from its word. -/
theorem decodeRequest_encode {i : Instr} (hport : i.port = .source) :
    decodeRequest (BitVec.ofNat 65 (encode i)) = i := by
  cases i with
  | srcRd | srcSk => simp +decide only [encode, BitVec.ofNat_toNat, BitVec.setWidth_eq, decodeRequest,
      getLsbD_requestWord, extractLsb'_requestWord, if_true, if_false]
  | _ => nomatch hport

namespace Machine

theorem step_of_inbox_nil {s : State} (hin : s.inbox = []) : step s = .next s := by
  simp only [step, hin]

theorem step_of_inbox_command {s : State} {cmd : BitVec 67} {rest : List Input}
    (hin : s.inbox = .command cmd :: rest) : step s = exec (decodeCommand cmd) (s.withInbox rest) := by
  simp only [step, hin]

theorem step_of_inbox_request {s : State} {req : BitVec 65} {rest : List Input}
    (hin : s.inbox = .request req :: rest) : step s = exec (decodeRequest req) (s.withInbox rest) := by
  simp only [step, hin]

end Machine

open Machine

/-- Settles O52: a step is `exec` of the decoded word, and decoding gives an encoded instruction back. -/
theorem stepRunsTheDecodedWord : Obligations.StepRunsTheDecodedWord := by
  refine ⟨fun i s rest hport hin => ?_, fun i s rest hport hin => ?_, fun s cmd rest => step_of_inbox_command,
    fun s req rest => step_of_inbox_request, fun s => step_of_inbox_nil⟩
  · have hstep := step_of_inbox_command hin
    rwa [decodeCommand_encode hport] at hstep
  · have hstep := step_of_inbox_request hin
    rwa [decodeRequest_encode hport] at hstep

end Sys2Proof
end

section

/-! What one step can do to the parameters, the fault flag, the trace and the invariant (10_state.md R22, R28, R29,
R31), said once for every operation inside a command, for every instruction and for the step. -/

namespace Sys2Proof.Machine

/-! Postconditions, taken together, and the invariant under the updates that end a command. -/

theorem Res.Post.and {α : Type} {r : Res α} {Q Q' : α → State → Prop} {F F' R R' : State → Prop}
    (h : r.Post Q F R) (h' : r.Post Q' F' R') :
    r.Post (fun a s => Q a s ∧ Q' a s) (fun s => F s ∧ F' s) (fun s => R s ∧ R' s) := by
  cases r with
  | ok | fail | raised => exact ⟨h, h'⟩
  | stop | refuse => trivial

theorem State.Inv.emit {s : State} (h : s.Inv) (evs : List Event) : (s.emit evs).Inv :=
  h.of_eq rfl rfl rfl rfl rfl rfl rfl

/-- A transaction changes only what the invariant does not speak of. -/
theorem State.Inv.of_transaction {s t : State} (h : s.Inv) (e : t = { s with
    source := t.source, currentBytePos := t.currentBytePos, trace := t.trace }) : t.Inv := by
  rw [e]
  exact h.of_eq rfl rfl rfl rfl rfl rfl rfl

theorem State.Inv.withInbox {s : State} (h : s.Inv) (rest : List Input) : (s.withInbox rest).Inv :=
  h.of_eq rfl rfl rfl rfl rfl rfl rfl

theorem State.Inv.touchSource {s : State} (h : s.Inv) (src : ByteSource) : (touchSource src s).Inv :=
  h.of_eq rfl rfl rfl rfl rfl rfl rfl

theorem resync_inv {s : State} (h : s.Inv) (p : Arg) : (resync p s).Inv where
  params := h.params
  memory := h.memory
  cache := Nat.two_pow_pos _
  consumed _ := Nat.le_refl _
  next _ := Nat.le_refl _
  unused _ := Nat.zero_le _
  zeroTail _ := fun _ _ => BitVec.getLsbD_zero

theorem resetWith_inv {p : Params} (hp : p.wf) (src : ByteSource) : (State.resetWith p src).Inv where
  params := hp
  memory := replicate_wf p
  cache := Nat.two_pow_pos _
  consumed _ := Nat.le_refl _
  next _ := Nat.le_refl _
  unused _ := Nat.zero_le _
  zeroTail _ := fun _ _ => BitVec.getLsbD_zero

/-- Reset makes of every reader the reset state of its parameters (R30). -/
theorem resetReader_inv {s : State} (h : s.Inv) : (resetReader s).Inv :=
  (resetWith_inv h.params s.source).of_eq rfl rfl rfl rfl rfl rfl rfl

theorem resetMidCommand_inv {s : State} (h : s.Inv) (ts : List Transaction) (src : ByteSource) :
    (resetMidCommand ts src s).Inv :=
  (resetReader_inv h).of_eq rfl rfl rfl rfl rfl rfl rfl

/-! Two ways from one state to another. -/

/-- From `s` to `t` the parameters, the flag and the invariant are kept, and the trace only grows. -/
structure State.Keeps (s t : State) : Prop where
  params : t.params = s.params
  fault  : t.fault = s.fault
  trace  : s.trace <+: t.trace
  inv    : s.Inv → t.Inv

/-- The last transaction from `s` to `t` is a refused backward seek (R28, 42_l2_buffer.md R135). -/
def State.Refused (s t : State) : Prop :=
  ∃ (evs : List Event) (off : Arg), off.toInt < 0 ∧ t.trace = s.trace ++ evs ++ [.transaction (.seek off false)]

/-- From `s` to `t` a refused un-seek has raised Fault. -/
structure State.Raises (s t : State) : Prop where
  params  : t.params = s.params
  fault   : t.fault = true
  refused : s.Refused t
  inv     : s.Inv → t.Inv

theorem State.Keeps.refl (s : State) : s.Keeps s := ⟨rfl, rfl, List.prefix_rfl, id⟩

theorem State.Keeps.trans {s t u : State} (h : s.Keeps t) (h' : t.Keeps u) : s.Keeps u :=
  ⟨h'.params.trans h.params, h'.fault.trans h.fault, h.trace.trans h'.trace, h'.inv ∘ h.inv⟩

theorem State.Refused.of_prefix {s t u : State} (h : s.trace <+: t.trace) (h' : t.Refused u) : s.Refused u := by
  obtain ⟨pre, hpre⟩ := h
  obtain ⟨evs, off, hoff, hu⟩ := h'
  exact ⟨pre ++ evs, off, hoff, by rw [hu, ← hpre, List.append_assoc s.trace]⟩

theorem State.Keeps.raises {s t u : State} (h : s.Keeps t) (h' : t.Raises u) : s.Raises u :=
  ⟨h'.params.trans h.params, h'.fault, h'.refused.of_prefix h.trace, h'.inv ∘ h.inv⟩

/-- Transactions that leave the flag and the invariant as they were keep. -/
theorem State.Extends.keeps {s t : State} {k : Nat} (h : s.Extends t k) (hf : t.fault = s.fault)
    (hi : s.Inv → t.Inv) : s.Keeps t := by
  obtain ⟨ts, hts, -⟩ := h.trace
  exact ⟨h.params, hf, ⟨_, hts.symm⟩, hi⟩

theorem State.Keeps.emit (s : State) (evs : List Event) : s.Keeps (s.emit evs) :=
  ⟨rfl, rfl, List.prefix_append _ _, fun h => h.emit evs⟩

theorem State.Keeps.consume {s : State} {n : Nat} (hn : n ≤ s.rem) : s.Keeps (consume n s) :=
  ⟨rfl, rfl, List.prefix_rfl, fun h => consume_inv h hn⟩

/-! Operations inside a command: from `s` they keep, also where they fail, or they raise. -/

/-- The operation `r`, begun in `s`, keeps where it ends ok or fails, and otherwise raises or stops. -/
def Res.From {α : Type} (r : Res α) (s : State) : Prop := r.Post (fun _ t => s.Keeps t) s.Keeps s.Raises

theorem Res.From.bind {α β : Type} {r : Res α} {k : α → State → Res β} {s : State} (h : r.From s)
    (hk : ∀ a t, s.Keeps t → (k a t).From t) : (r.bind k).From s :=
  Res.Post.bind h (fun a t ht => (hk a t ht).mono (fun _ _ => ht.trans) (fun _ => ht.trans) (fun _ => ht.raises))
    (fun _ => id) (fun _ => id)

theorem ok_from {α : Type} (a : α) (s : State) : (Res.ok a s).From s := State.Keeps.refl s

theorem fail_from {α : Type} (s : State) : (Res.fail s : Res α).From s := State.Keeps.refl s

theorem srcRead_from (max : Arg) (s : State) : (srcRead max s).From s :=
  (srcRead_post max s).mono
    (fun _ _ ⟨hx, hf, _, e⟩ => hx.keeps hf fun h => h.of_transaction e)
    (fun _ => False.elim) (fun _ => False.elim)

theorem srcSeek_from (off : Arg) (s : State) : (srcSeek off s).From s :=
  (srcSeek_post off s).mono
    (fun _ _ ⟨hx, hf, e⟩ => hx.keeps hf fun h => h.of_transaction e)
    (fun _ => False.elim) (fun _ => False.elim)

/-- An un-seek raises Fault by its own refusal. -/
theorem unseek_refused {t : Nat} (ht : t < 2 ^ 63) (s : State) :
    (unseek t s).Post (fun _ _ => True) (fun _ => True) s.Refused := by
  rcases Nat.eq_zero_or_pos t with rfl | hpos
  · trivial
  · rcases unseek_cases hpos ht s with ⟨_, _, e⟩ | ⟨_, _, e⟩ | ⟨_, e⟩ <;> rw [e]
    · trivial
    · exact ⟨[], -BitVec.ofNat 64 t, by rw [toInt_neg_ofNat ht]; omega, by simp⟩
    · trivial

/-- A refill raises Fault by the refusal of its un-seek, of fewer bytes than a word. -/
theorem l2Refill_refused (s : State) : (l2Refill s).Post (fun _ _ => True) (fun _ => True) s.Refused := by
  have hwb := s.params.wb_le
  have hpos := s.params.le_wb
  rcases l2Refill_cases s with ⟨b, s1, e, h⟩ | ⟨f, e⟩ | ⟨r, e⟩
  · have hread := srcRead_from (BitVec.ofNat 64 s.params.l2Bytes) s
    rw [e] at hread
    have hprefix : s.trace <+: s1.trace := hread.trace
    rcases h with ⟨-, e2⟩ | ⟨-, -, e2⟩ | ⟨-, hlt, e2⟩ <;> rw [e2]
    · trivial
    · have hmod := Nat.mod_lt b.length (show 0 < s.params.wb by omega)
      exact (unseek_refused (by omega) _).bind (fun _ _ _ => trivial) (fun _ => id) fun _ => .of_prefix hprefix
    · exact (unseek_refused (by omega) _).bind (fun _ _ _ => trivial) (fun _ => id) fun _ => .of_prefix hprefix
  · rw [e]; trivial
  · rw [e]; trivial

/-- RELOAD raises Fault where its refill does: a tail load cannot. -/
theorem reload_refused (s : State) : (reload s).Post (fun _ _ => True) (fun _ => True) s.Refused := by
  rcases Nat.lt_or_ge s.nextLine s.params.lineCount with h | h
  · rw [reload_pop h]; trivial
  · rw [reload_refill h]
    have h2 := l2Refill_refused s
    cases hr : l2Refill s with
    | fail t => exact (l1TailLoad_post t).mono (fun _ _ _ => trivial) (fun _ _ => trivial) (fun _ => False.elim)
    | raised t => rwa [hr] at h2
    | ok | stop | refuse => trivial

theorem reload_from (s : State) : (reload s).From s :=
  ((reload_post s).and (reload_refused s)).mono
    (fun _ _ ⟨⟨hx, hf, _, hi⟩, _⟩ => hx.keeps hf hi) (fun _ ⟨⟨hx, hf, hi⟩, _⟩ => hx.keeps hf hi)
    (fun _ ⟨⟨hx, hf, hi⟩, href⟩ => ⟨hx.params, hf, href, hi⟩)

theorem takeBits_from {n : Nat} {s : State} (hn : n ≤ s.rem) : (takeBits n s).From s := State.Keeps.consume hn

theorem ensureBits_from (s : State) : (ensureBits s).From s := by
  unfold ensureBits
  split
  · exact reload_from s
  · exact ok_from _ s

theorem straddle_from (n : Nat) (s : State) : (straddle n s).From s := by
  refine (reload_from s).bind fun _ s2 _ => ?_
  split
  · exact fail_from s2
  · next h => exact (takeBits_from (Nat.le_of_not_lt h)).bind fun _ s3 _ => ok_from _ s3

theorem read32_from (n : Nat) (s : State) : (read32 n s).From s := by
  refine (ensureBits_from s).bind fun _ s1 _ => ?_
  split
  · next h => exact takeBits_from h
  · exact straddle_from n s1

theorem readBits_from (n : Nat) (s : State) : (readBits n s).From s := by
  unfold readBits
  split
  · exact read32_from n s
  · exact (read32_from _ s).bind fun _ s1 _ => (read32_from 32 s1).bind fun _ s2 _ => ok_from _ s2

theorem seekWhole_from (n : Nat) {s : State} (hf : s.fault = false) : (seekWhole (seekCalc n s) s).From s :=
  (seekWhole_post n s).mono (fun _ _ ⟨hx, hf', hi⟩ => hx.keeps hf' (hi hf)) (fun _ ⟨hx, hf', hi⟩ => hx.keeps hf' hi)
    (fun _ => False.elim)

theorem seekFuel_from (fuel n : Nat) {s : State} (hf : s.fault = false) : (seekFuel fuel n s).From s := by
  induction fuel generalizing n s with
  | zero => exact fail_from s
  | succ fuel ih =>
    unfold seekFuel
    split
    · next h => exact State.Keeps.consume h
    · refine (seekWhole_from n hf).bind fun _ s1 h1 => ?_
      split
      · exact ok_from _ s1
      · exact (reload_from s1).bind fun _ s2 h2 => ih _ (h2.fault.trans (h1.fault.trans hf))

/-! Instructions. -/

/-! The reads, the seek and POS as the commands they are (44_commands.md R171 to R174). -/

theorem exec_rdu (n : Arg) (s : State) :
    exec (.rdu n) s = runCommand (.rdu n) (legalWidth n) (readBits n.toNat) s := rfl
theorem exec_rds (n : Arg) (s : State) :
    exec (.rds n) s = runCommand (.rds n) (legalWidth n)
      (fun s => (readBits n.toNat s).bind fun v u => .ok (sext v n.toNat) u) s := rfl
theorem exec_pos (a : Arg) (s : State) :
    exec (.pos a) s = runCommand (.pos a) true (fun s => .ok s.currentBytePos s) s := rfl
theorem exec_skb (n : Arg) (s : State) :
    exec (.skb n) s = runCommand (.skb n) (legalCount n) (fun s => (seek n.toNat s).bind fun _ u => .ok 0 u) s := rfl

/-- How the flag is set: a read or a seek, begun with the flag clear, whose refused un-seek is answered FAULT. -/
def RaisedBy (i : Instr) (s t : State) : Prop :=
  s.fault = false ∧ ((∃ n, i = .rdu n) ∨ (∃ n, i = .rds n) ∨ (∃ n, i = .skb n)) ∧
    ∃ u, s.Raises u ∧ t = u.emit [answer i .fault 0]

/-- From `s` to `t` the reader is started anew: the flag is clear (60_exceptions.md R208). -/
structure State.Restarts (s t : State) : Prop where
  params : t.params = s.params
  fault  : t.fault = false
  inv    : s.Inv → t.Inv

theorem runCommand_next {cmd : Instr} {legal : Bool} {body : State → Res Arg} {s t : State}
    (h : runCommand cmd legal body s = .next t) (hbody : s.fault = false → (body s).From s) :
    s.Keeps t ∨ s.fault = false ∧ ∃ u, s.Raises u ∧ t = u.emit [answer cmd .fault 0] := by
  cases hf : s.fault with
  | true =>
    rw [runCommand_fault hf] at h
    cases h
    exact .inl (.emit s _)
  | false =>
    cases legal with
    | false =>
      rw [runCommand_illegal hf] at h
      cases h
      exact .inl (.emit s _)
    | true =>
      rw [runCommand_legal hf] at h
      have hfrom := hbody hf
      rcases finish_next h with ⟨v, u, hr, rfl⟩ | ⟨u, hr, rfl⟩ | ⟨u, hr, rfl⟩ <;> rw [hr] at hfrom
      · exact .inl (State.Keeps.trans hfrom (.emit u _))
      · exact .inl (State.Keeps.trans hfrom (.emit u _))
      · exact .inr ⟨rfl, u, hfrom, rfl⟩

theorem rejectReserved_next {cmd : Instr} {s t : State} (h : rejectReserved cmd s = .next t) : s.Keeps t := by
  unfold rejectReserved unlessFault at h
  split at h <;> cases h <;> exact .emit s _

/-- POS reads the tracked cursor and nothing else. -/
theorem exec_pos_next {a : Arg} {s t : State} (h : exec (.pos a) s = .next t) : s.Keeps t := by
  rw [exec_pos] at h
  cases hf : s.fault with
  | true =>
    rw [runCommand_fault hf] at h
    cases h
    exact .emit s _
  | false =>
    rw [runCommand_legal hf, finish_ok] at h
    cases h
    exact .emit s _

/-- A lone transaction, which cannot raise, keeps what its operation keeps. -/
theorem answered_next {α : Type} {r : Res α} {s t : State} (hr : r.From s) (hraise : ∀ u, r ≠ .raised u)
    (h : answered r = .next t) : s.Keeps t := by
  cases r with
  | ok a u => cases h; exact hr
  | fail u => cases h; exact hr
  | raised u => exact absurd rfl (hraise u)
  | stop | refuse => cases h

theorem srcRead_ne_raised (max : Arg) (s u : State) : srcRead max s ≠ .raised u := by
  intro e
  have h := srcRead_post max s
  rw [e] at h
  exact h

theorem srcSeek_ne_raised (off : Arg) (s u : State) : srcSeek off s ≠ .raised u := by
  intro e
  have h := srcSeek_post off s
  rw [e] at h
  exact h

/-- A request word that stands alone is one transaction. -/
theorem exec_request_next {i : Instr} {s t : State} (hport : i.port = .source) (h : exec i s = .next t) :
    s.Keeps t := by
  cases i with
  | srcRd m => exact answered_next (srcRead_from m s) (srcRead_ne_raised m s) h
  | srcSk o => exact answered_next (srcSeek_from o s) (srcSeek_ne_raised o s) h
  | _ => nomatch hport

theorem decodeRequest_port (req : BitVec 65) : (decodeRequest req).port = .source := by
  unfold decodeRequest
  split <;> rfl

/-- What an instruction that ends with a next state has done: kept, raised Fault, or resynchronised. -/
theorem exec_next {i : Instr} {s t : State} (h : exec i s = .next t) :
    s.Keeps t ∨ RaisedBy i s t ∨ (∃ p, i = .rsy p) ∧ s.Restarts t := by
  cases i with
  | rdu n =>
    rw [exec_rdu] at h
    exact (runCommand_next h fun _ => readBits_from _ s).imp_right fun ⟨hf, hu⟩ => .inl ⟨hf, .inl ⟨n, rfl⟩, hu⟩
  | rds n =>
    rw [exec_rds] at h
    exact (runCommand_next h fun _ => (readBits_from _ s).bind fun _ u _ => ok_from _ u).imp_right
      fun ⟨hf, hu⟩ => .inl ⟨hf, .inr (.inl ⟨n, rfl⟩), hu⟩
  | skb n =>
    rw [exec_skb] at h
    exact (runCommand_next h fun hf => (seekFuel_from _ _ hf).bind fun _ u _ => ok_from _ u).imp_right
      fun ⟨hf, hu⟩ => .inl ⟨hf, .inr (.inr ⟨n, rfl⟩), hu⟩
  | pos a => exact .inl (exec_pos_next h)
  | rsy p =>
    cases h
    exact .inr (.inr ⟨⟨p, rfl⟩, rfl, rfl, fun h => (resync_inv h p).emit _⟩)
  | rsvd5 a => exact .inl (rejectReserved_next h)
  | rsvd6 a => exact .inl (rejectReserved_next h)
  | rsvd7 a => exact .inl (rejectReserved_next h)
  | srcRd | srcSk => exact .inl (exec_request_next rfl h)

/-! The step. -/

theorem step_of_inbox_reset {s : State} {rest : List Input} (hin : s.inbox = .reset :: rest) :
    step s = .next (resetReader (s.withInbox rest)) := by
  simp only [step, hin]

theorem step_of_inbox_resetDuring {s : State} {cmd : BitVec 67} {ts : List Transaction} {src : ByteSource}
    {rest : List Input} (hin : s.inbox = .resetDuring cmd ts src :: rest) :
    step s = .next (resetMidCommand ts src (s.withInbox rest)) := by
  simp only [step, hin]

theorem step_of_inbox_touchSource {s : State} {src : ByteSource} {rest : List Input}
    (hin : s.inbox = .touchSource src :: rest) : step s = .next (touchSource src (s.withInbox rest)) := by
  simp only [step, hin]

theorem State.Keeps.withInbox (s : State) (rest : List Input) : s.Keeps (s.withInbox rest) :=
  ⟨rfl, rfl, List.prefix_rfl, fun h => h.withInbox rest⟩

/-- The inputs that start the reader anew (R28, 60_exceptions.md R208). -/
def StartsAnew (inbox : List Input) : Prop :=
  (∃ cmd p rest, inbox = .command cmd :: rest ∧ decodeCommand cmd = .rsy p) ∨
  (∃ rest, inbox = .reset :: rest) ∨
  (∃ cmd ts src rest, inbox = .resetDuring cmd ts src :: rest)

/-- What a step that ends with a next state has done. -/
theorem step_next {s t : State} (h : step s = .next t) :
    s.Keeps t ∨
    (∃ cmd rest, s.inbox = .command cmd :: rest ∧ RaisedBy (decodeCommand cmd) (s.withInbox rest) t) ∨
    StartsAnew s.inbox ∧ s.Restarts t := by
  cases hin : s.inbox with
  | nil =>
    rw [step_of_inbox_nil hin] at h
    cases h
    exact .inl (.refl s)
  | cons input rest =>
    have hrest := State.Keeps.withInbox s rest
    cases input with
    | command cmd =>
      rw [step_of_inbox_command hin] at h
      rcases exec_next h with hk | hr | ⟨⟨p, hp⟩, ha⟩
      · exact .inl (hrest.trans hk)
      · exact .inr (.inl ⟨cmd, rest, rfl, hr⟩)
      · exact .inr (.inr ⟨.inl ⟨cmd, p, rest, rfl, hp⟩, ha.params, ha.fault, fun hi => ha.inv (hrest.inv hi)⟩)
    | request req =>
      rw [step_of_inbox_request hin] at h
      exact .inl (hrest.trans (exec_request_next (decodeRequest_port req) h))
    | reset =>
      rw [step_of_inbox_reset hin] at h
      cases h
      exact .inr (.inr ⟨.inr (.inl ⟨rest, rfl⟩), rfl, rfl, fun hi => resetReader_inv (hrest.inv hi)⟩)
    | resetDuring cmd ts src =>
      rw [step_of_inbox_resetDuring hin] at h
      cases h
      exact .inr (.inr ⟨.inr (.inr ⟨cmd, ts, src, rest, rfl⟩), rfl, rfl,
        fun hi => resetMidCommand_inv (hrest.inv hi) ts src⟩)
    | touchSource src =>
      rw [step_of_inbox_touchSource hin] at h
      cases h
      exact .inl ⟨rfl, rfl, List.prefix_rfl, fun hi => (hrest.inv hi).touchSource src⟩

end Sys2Proof.Machine

namespace Sys2Proof

open Machine

/-- Settles O47: each of the three things a step can do keeps the invariant. -/
theorem stepKeepsTheInvariant : Obligations.StepKeepsTheInvariant := by
  intro s t hinv h
  rcases step_next h with hk | ⟨_, rest, -, -, -, u, hu, rfl⟩ | ⟨-, hr⟩
  · exact hk.inv hinv
  · exact (hu.inv (hinv.withInbox rest)).emit _
  · exact hr.inv hinv

/-- Settles O48: each of the three things a step can do keeps the parameters. -/
theorem parametersAreFixed : Obligations.ParametersAreFixed := by
  intro s t h
  rcases step_next h with hk | ⟨_, _, -, -, -, u, hu, rfl⟩ | ⟨-, hr⟩
  · exact hk.params
  · exact hu.params
  · exact hr.params

/-- Settles O49: a step that does not start the reader anew keeps the flag or sets it. -/
theorem onlyRsyAndResetClearTheFault : Obligations.OnlyRsyAndResetClearTheFault := by
  intro s t h hset hclear
  rcases step_next h with hk | ⟨_, _, -, -, -, u, hu, rfl⟩ | ⟨hstart, -⟩
  · exact absurd (hk.fault.symm.trans hclear) (by simp [hset])
  · exact absurd (hu.fault.symm.trans hclear) (by simp)
  · exact hstart

/-- Settles O50: a step that sets the flag neither keeps it nor starts the reader anew, so its command raised Fault. -/
theorem onlyARefusedUnseekSetsTheFault : Obligations.OnlyARefusedUnseekSetsTheFault := by
  intro s t _ h hclear hset
  rcases step_next h with hk | ⟨cmd, rest, hin, -, hcmd, u, hu, rfl⟩ | ⟨-, hr⟩
  · exact absurd (hk.fault.symm.trans hset) (by simp [hclear])
  · obtain ⟨evs, off, hoff, htrace⟩ := hu.refused
    refine ⟨cmd, rest, evs, off, hin, hoff, ?_, hcmd⟩
    simp [htrace]
  · exact absurd (hr.fault.symm.trans hset) (by simp)

end Sys2Proof
end

section

/-! Reset and the derived positions (10_state.md R27, R30, R32): what a reader in step holds, counted in bits. -/

namespace Sys2Proof.Machine

@[simp] theorem topBits_length (w n : Nat) (x : Word) : (topBits w n x).length = n := by
  simp [topBits]

/-- The bits held are those of the register and of the lines not yet promoted (R20, R25). -/
theorem heldBits_length {s : State} (h : s.Inv) :
    s.heldBits.length = s.rem + s.params.w * (s.params.lineCount - s.nextLine) := by
  simp [State.heldBits, List.length_flatMap, h.memory.1, Nat.mul_comm]

/-- Reset holds no bit: the register is exhausted and so is L2. -/
theorem heldBits_resetWith (p : Params) (src : ByteSource) : (State.resetWith p src).heldBits = [] := by
  simp [State.heldBits, State.rem, State.resetWith, topBits]

theorem resetWith_inStep {p : Params} {bytes : List Byte} {c : Nat} (hp : p.wf) (hc : c ≤ bytes.length)
    (hsize : bytes.length < 2 ^ 60) : (State.resetWith p (.mem bytes c)).InStep bytes c 0 where
  inv := resetWith_inv hp _
  noFault := rfl
  size := hsize
  source := rfl
  inside := hc
  cursor := by rw [heldBits_resetWith]; rfl
  held := by rw [heldBits_resetWith]; rfl

/-- R32, from the count of the bits held: the cursor stands as many bits before the byte source's as are held. -/
theorem logicalBitPos_eq {s : State} (h : s.Inv) (hf : s.fault = false) :
    s.logicalBitPos = 8 * s.currentBytePos.toNat - (s.heldBits.length : Int) := by
  have hnext := h.next hf
  have hconsumed := h.consumed hf
  rw [heldBits_length h, State.logicalBitPos, State.rem]
  push_cast [hnext, hconsumed]
  ring

end Sys2Proof.Machine

namespace Sys2Proof

open Machine

/-- Settles O45: each field of the reset state is the one R30 gives. -/
theorem resetValues : Obligations.ResetValues :=
  fun _ _ => ⟨rfl, rfl, rfl, rfl, rfl, rfl, rfl⟩

/-- Settles O46: a reader that holds nothing is in step wherever its byte source stands. -/
theorem resetIsInStep : Obligations.ResetIsInStep :=
  ⟨resetWith_inv (by decide) _, fun _ _ _ hp hc hsize => ⟨resetWith_inv hp _, resetWith_inStep hp hc hsize⟩⟩

/-- Settles O58: the bits held end where the byte source's cursor stands, which is inside its data. -/
theorem inStepPositions : Obligations.InStepPositions := by
  intro s bytes base pos a h
  have hcursor := h.cursor
  have hinside := h.inside
  refine ⟨?_, by omega, s.currentBytePos.toNat, h.source, ?_⟩
  · rw [logicalBitPos_eq h.inv h.noFault]
    omega
  · rw [exec_pos, runCommand_legal h.noFault, finish_ok, BitVec.ofNat_toNat, BitVec.setWidth_eq]

end Sys2Proof
end

section

/-! Two machines that differ only in what the spec leaves arbitrary (10_state.md R24, R26; 42_l2_buffer.md R125, R135):
every operation takes alike states to alike ends, so nothing arbitrary reaches the trace. -/

namespace Sys2Proof.Machine

/-! What a fill leaves in the lines not yet promoted does not depend on what the buffer held. -/

/-- A line that is wholly overwritten keeps none of its old slots (R122). -/
theorem writeLines_cons_of_le {p : Params} {b : List Byte} (l : Word) (ls : List Word) (hb : p.wb ≤ b.length) :
    writeLines p b (l :: ls) = lineOfSlots p (b.take p.wb) :: writeLines p (b.drop p.wb) ls := by
  have hwb := p.le_wb
  have hold : (lineSlots p l).drop (b.take p.wb).length = [] := by simp [List.drop_eq_nil_iff, hb]
  rw [writeLines, if_neg (by omega), hold, List.append_nil]

/-- The first `k` lines after a write of at least `k` words are the words written. -/
theorem take_writeLines {p : Params} {k : Nat} {b : List Byte} {ls ls' : List Word} (hlen : ls'.length = ls.length)
    (hb : k * p.wb ≤ b.length) : (writeLines p b ls').take k = (writeLines p b ls).take k := by
  induction ls generalizing k b ls' with
  | nil => rw [List.length_eq_zero_iff.1 hlen]
  | cons l ls ih =>
    cases ls' with
    | nil => cases hlen
    | cons l' ls' =>
      cases k with
      | zero => rfl
      | succ k =>
        rw [Nat.succ_mul] at hb
        have hhead : p.wb ≤ b.length := by omega
        rw [writeLines_cons_of_le l' ls' hhead, writeLines_cons_of_le l ls hhead, List.take_succ_cons,
          List.take_succ_cons, ih (Nat.succ.inj hlen) (by rw [List.length_drop]; omega)]

/-- The move of a partial fill as one equation: the first `k` lines stand again from `off` on (R125). -/
theorem moveLines_eq {off k : Nat} {ls : List Word} (h : off + k ≤ ls.length) :
    moveLines off k ls = ls.take off ++ (ls.take k ++ ls.drop (off + k)) := by
  induction k generalizing ls with
  | zero => simp [moveLines]
  | succ k ih =>
    have hk : k < ls.length := by omega
    have hlast : (ls.set (off + k) ls[k]).drop (off + k) = ls[k] :: ls.drop (off + (k + 1)) := by
      rw [List.drop_eq_getElem_cons (by rw [List.length_set]; omega), List.getElem_set_self,
        List.drop_set_of_lt (by omega)]
      rfl
    rw [moveLines, List.getD_eq_getElem _ _ hk, ih (by rw [List.length_set]; omega), hlast,
      List.take_set_of_le (by omega), List.take_set_of_le (by omega), List.take_succ_eq_append_getElem hk,
      List.append_assoc, List.singleton_append]

/-- The lines not yet promoted after a partial fill of `k` words are the first `k` of the buffer (R125). -/
theorem drop_packed {p : Params} {k : Nat} (free : Nat) {ls : List Word} (hlen : ls.length = p.lineCount)
    (hk : k ≤ p.lineCount) :
    (forgetLines p (p.lineCount - k) free (moveLines (p.lineCount - k) k ls)).drop (p.lineCount - k) = ls.take k := by
  have hrest : ls.drop (p.lineCount - k + k) = [] := List.drop_eq_nil_iff.2 (by omega)
  rw [forgetLines, List.drop_left' (by simp), moveLines_eq (by omega), hrest, List.append_nil,
    List.drop_left' (by rw [List.length_take]; omega)]

/-- The leftovers of a tail load are masked away (R132). -/
theorem tailWord_congr {p : Params} {b : List Byte} (hb : b.length ≤ p.wb) (free free' : Nat) :
    tailWord p b free' = tailWord p b free :=
  BitVec.eq_of_toNat_eq ((tailWord_toNat hb free').trans (tailWord_toNat hb free).symm)

/-! Alike states. -/

/-- The machine with other values of what may differ while the flag is clear. -/
def State.vary (s : State) (ls : List Word) (u f : Nat) : State :=
  { s with lines := ls, unusedLines := u, freeCount := f }

@[simp] theorem vary_params (s : State) (ls : List Word) (u f : Nat) : (s.vary ls u f).params = s.params := rfl
@[simp] theorem vary_lines (s : State) (ls : List Word) (u f : Nat) : (s.vary ls u f).lines = ls := rfl
@[simp] theorem vary_nextLine (s : State) (ls : List Word) (u f : Nat) : (s.vary ls u f).nextLine = s.nextLine := rfl

theorem State.Alike.eq_vary {s s' : State} (h : s.Alike s') (hf : s.fault = false) :
    ∃ ls u f, s' = s.vary ls u f ∧ ls.drop s.nextLine = s.lines.drop s.nextLine := by
  refine ⟨s'.lines, s'.unusedLines, s'.freeCount, ?_, h.lines hf⟩
  have hparams := h.params
  have hfault := h.fault
  have hsource := h.source
  have hinbox := h.inbox
  have htrace := h.trace
  have hcache := h.cache hf
  have hconsumed := h.consume hf
  have hnext := h.next hf
  have hpos := h.bytePos hf
  cases s
  cases s'
  simp_all [State.vary]

theorem alike_vary {s : State} {ls : List Word} {u f : Nat} (hi : s.Inv) (hi' : (s.vary ls u f).Inv)
    (hl : ls.drop s.nextLine = s.lines.drop s.nextLine) : s.Alike (s.vary ls u f) where
  inv := hi
  inv' := hi'
  params := rfl
  fault := rfl
  source := rfl
  inbox := rfl
  trace := rfl
  cache _ := rfl
  consume _ := rfl
  next _ := rfl
  bytePos _ := rfl
  lines _ := hl

theorem State.Alike.rem {s s' : State} (h : s.Alike s') (hf : s.fault = false) : s'.rem = s.rem := by
  rw [State.rem, State.rem, h.params, h.consume hf]

section Updates

variable {s s' : State} (h : s.Alike s')
include h

/-! Updates by the outside and by a transaction; the tracked cursor is arbitrary while the flag is set. -/

theorem State.Alike.emit (evs : List Event) : (s.emit evs).Alike (s'.emit evs) :=
  { h with
    inv := h.inv.emit evs
    inv' := h.inv'.emit evs
    trace := congrArg (· ++ evs) h.trace }

theorem State.Alike.withInbox (rest : List Input) : (s.withInbox rest).Alike (s'.withInbox rest) :=
  { h with
    inv := h.inv.withInbox rest
    inv' := h.inv'.withInbox rest
    inbox := rfl }

theorem State.Alike.touchSource (src : ByteSource) : (touchSource src s).Alike (touchSource src s') :=
  { h with
    inv := h.inv.touchSource src
    inv' := h.inv'.touchSource src
    source := rfl }

theorem State.Alike.advance (d : BitVec 64) :
    { s with currentBytePos := s.currentBytePos + d }.Alike { s' with currentBytePos := s'.currentBytePos + d } :=
  { h with
    inv := h.inv.of_eq rfl rfl rfl rfl rfl rfl rfl
    inv' := h.inv'.of_eq rfl rfl rfl rfl rfl rfl rfl
    bytePos := fun hf => congrArg (· + d) (h.bytePos hf) }

/-- Raising Fault forgets everything that is not alike (R135). -/
theorem State.Alike.raiseFault : (raiseFault s).Alike (raiseFault s') :=
  { h with
    inv := raiseFault_inv h.inv
    inv' := raiseFault_inv h.inv'
    fault := rfl
    cache := nofun
    consume := nofun
    next := nofun
    bytePos := nofun
    lines := nofun }

theorem State.Alike.resync (p : Arg) : (resync p s).Alike (resync p s') where
  inv := resync_inv h.inv p
  inv' := resync_inv h.inv' p
  params := h.params
  fault := rfl
  source := h.source
  inbox := h.inbox
  trace := h.trace
  cache _ := rfl
  consume _ := congrArg Params.w h.params
  next _ := congrArg Params.lineCount h.params
  bytePos _ := rfl
  lines _ := by
    have hlen := h.inv.memory.1
    have hlen' := h.inv'.memory.1
    rw [h.params] at hlen'
    simp [List.drop_eq_nil_of_le, hlen, hlen']

theorem State.Alike.resetReader : (resetReader s).Alike (resetReader s') :=
  { h.resync 0 with
    inv := resetReader_inv h.inv
    inv' := resetReader_inv h.inv'
    lines := fun _ => by simp [h.params] }

theorem State.Alike.resetMidCommand (ts : List Transaction) (src : ByteSource) :
    (resetMidCommand ts src s).Alike (resetMidCommand ts src s') :=
  (h.resetReader.touchSource src).emit (ts.map .transaction)

/-! Updates inside a command, where the flag is clear. -/

variable (hf : s.fault = false)
include hf

theorem State.Alike.consumeBits {n : Nat} (hn : n ≤ s.rem) : (Machine.consume n s).Alike (Machine.consume n s') := by
  obtain ⟨ls, u, f, rfl, hl⟩ := h.eq_vary hf
  exact alike_vary (consume_inv h.inv hn) (consume_inv h.inv' hn) hl

theorem State.Alike.skipLines {k : Nat} (hk : s.nextLine + k ≤ s.params.lineCount) :
    (skipLines k s).Alike (skipLines k s') := by
  obtain ⟨ls, u, f, rfl, hl⟩ := h.eq_vary hf
  refine alike_vary (skipLines_inv h.inv fun _ => hk) (skipLines_inv h.inv' fun _ => hk) ?_
  have := congrArg (List.drop k) hl
  rwa [List.drop_drop, List.drop_drop] at this

/-- The next line to promote is alike, and so are those after it. -/
theorem State.Alike.l2Pop (hn : s.nextLine < s.params.lineCount) : (l2Pop s).Alike (l2Pop s') := by
  obtain ⟨ls, u, f, rfl, hl⟩ := h.eq_vary hf
  have hhead : ls.getD s.nextLine 0 = s.lines.getD s.nextLine 0 := by
    have := congrArg (·[0]?) hl
    simpa [List.getD_eq_getElem?_getD] using congrArg (·.getD 0) this
  have htail : ls.drop (s.nextLine + 1) = s.lines.drop (s.nextLine + 1) := by
    have := congrArg (List.drop 1) hl
    rwa [List.drop_drop, List.drop_drop] at this
  have hpop : Machine.l2Pop (s.vary ls u f) = (Machine.l2Pop s).vary ls u f := by
    simp only [Machine.l2Pop, loadL1, State.vary, hhead]
  have hinv' := l2Pop_inv h.inv' hn
  rw [hpop] at hinv' ⊢
  exact alike_vary (l2Pop_inv h.inv hn) hinv' htail

theorem State.Alike.loadTail {b : List Byte} (hb : b.length ≤ s.params.wb) : (loadTail b s).Alike (loadTail b s') := by
  obtain ⟨ls, u, f, rfl, hl⟩ := h.eq_vary hf
  have hload : Machine.loadTail b (s.vary ls u f) =
      (Machine.loadTail b s).vary ls u (f + (s.params.wb - b.length)) := by
    simp [Machine.loadTail, loadL1, State.vary, tailWord_congr hb s.freeCount f]
  have hinv' := loadTail_inv h.inv' hb
  rw [hload] at hinv' ⊢
  exact alike_vary (loadTail_inv h.inv hb) hinv' hl

/-! The three fills, with L2 exhausted before them: every line then is one already used (R24). -/

variable {b : List Byte}

theorem State.Alike.fullFill (hb : b.length = s.params.l2Bytes) :
    (setIndices 0 0 (fillBuffer b s)).Alike (setIndices 0 0 (fillBuffer b s')) := by
  obtain ⟨ls, u, f, rfl, -⟩ := h.eq_vary hf
  have hlen := h.inv.memory.1
  have hlen' : ls.length = s.params.lineCount := h.inv'.memory.1
  have hall : writeLines s.params b ls = writeLines s.params b s.lines := by
    have := take_writeLines (k := s.params.lineCount) (hlen'.trans hlen.symm)
      (by rw [hb, Params.l2Bytes_eq h.inv.params])
    rwa [List.take_of_length_le (by simp [hlen']), List.take_of_length_le (by simp [hlen])] at this
  exact alike_vary (setIndices_inv (fillBuffer_inv h.inv b) (Nat.zero_le _) (Nat.zero_le _))
    (setIndices_inv (fillBuffer_inv h.inv' b) (Nat.zero_le _) (Nat.zero_le _)) (congrArg (List.drop 0) hall)

theorem State.Alike.packLines (hb : b.length ≤ s.params.l2Bytes) :
    (packLines (b.length / s.params.wb) (fillBuffer b s)).Alike
      (packLines (b.length / s.params.wb) (fillBuffer b s')) := by
  obtain ⟨ls, u, f, rfl, -⟩ := h.eq_vary hf
  have hlen := h.inv.memory.1
  have hlen' : ls.length = s.params.lineCount := h.inv'.memory.1
  have hk : b.length / s.params.wb ≤ s.params.lineCount := Nat.div_le_div_right hb
  refine alike_vary (packLines_inv (fillBuffer_inv h.inv b) _) (packLines_inv (fillBuffer_inv h.inv' b) _) ?_
  simp only [packLines_nextLine, packLines_lines, fillBuffer_params, fillBuffer_lines, fillBuffer_freeCount]
  exact (drop_packed _ (by simp [hlen']) hk).trans
    ((take_writeLines (hlen'.trans hlen.symm) (Nat.div_mul_le_self _ _)).trans
      (drop_packed _ (by simp [hlen]) hk).symm)

theorem State.Alike.fillBuffer (hn : s.nextLine = s.params.lineCount) :
    (fillBuffer b s).Alike (fillBuffer b s') := by
  obtain ⟨ls, u, f, rfl, -⟩ := h.eq_vary hf
  have hlen := h.inv.memory.1
  have hlen' : ls.length = s.params.lineCount := h.inv'.memory.1
  refine alike_vary (fillBuffer_inv h.inv b) (fillBuffer_inv h.inv' b) ?_
  simp [List.drop_eq_nil_of_le, hn, hlen, hlen']

/-- Where L2 is left exhausted, no line counts. -/
theorem State.Alike.exhaust {n : Nat} (hn : n = s.params.lineCount) : (setIndices n n s).Alike (setIndices n n s') := by
  obtain ⟨ls, u, f, rfl, -⟩ := h.eq_vary hf
  have hlen := h.inv.memory.1
  have hlen' : ls.length = s.params.lineCount := h.inv'.memory.1
  refine alike_vary (setIndices_inv h.inv hn.le hn.le) (setIndices_inv h.inv' hn.le hn.le) ?_
  simp [List.drop_eq_nil_of_le, hn, hlen, hlen']

end Updates

end Sys2Proof.Machine
end

section

/-! Alike states go to alike ends: the operations inside a command, the instructions, the step. -/

namespace Sys2Proof.Machine

/-! Ends of operations. -/

/-- Two operations end alike: in the same way, with the same value, in alike states. -/
inductive Res.Alike {α : Type} : Res α → Res α → Prop where
  | ok (a : α) {s s' : State} (h : s.Alike s') : Res.Alike (.ok a s) (.ok a s')
  | fail {s s' : State} (h : s.Alike s') : Res.Alike (.fail s) (.fail s')
  | raised {s s' : State} (h : s.Alike s') : Res.Alike (.raised s) (.raised s')
  | stop (f : Fault) : Res.Alike (.stop f) (.stop f)
  | refuse (x : Refusal) : Res.Alike (.refuse x) (.refuse x)

/-- Operations in sequence end alike; `P` is what the first is known to leave behind. -/
theorem Res.Alike.bind {α β : Type} {r r' : Res α} {k k' : α → State → Res β} {P : α → State → Prop}
    {F R : State → Prop} (h : r.Alike r') (hr : r.Post P F R)
    (hk : ∀ a t t', P a t → t.Alike t' → (k a t).Alike (k' a t')) : (r.bind k).Alike (r'.bind k') := by
  cases h with
  | ok a h => exact hk a _ _ hr h
  | fail h => exact .fail h
  | raised h => exact .raised h
  | stop f => exact .stop f
  | refuse x => exact .refuse x

/-! Transactions: the byte source is the same, so its answers are. -/

theorem srcRead_alike (max : Arg) {s s' : State} (h : s.Alike s') : (srcRead max s).Alike (srcRead max s') := by
  simp only [srcRead, h.source]
  cases s.source.read max.toNat with
  | none => exact .stop _
  | some answer =>
    obtain ⟨b, src⟩ := answer
    by_cases hb : b.length ≤ max.toNat
    · simp only [if_pos hb]
      exact .ok b (((h.touchSource src).advance _).emit [.transaction (.read max b)])
    · simp only [if_neg hb]
      exact .refuse _

theorem srcSeek_alike (off : Arg) {s s' : State} (h : s.Alike s') : (srcSeek off s).Alike (srcSeek off s') := by
  simp only [srcSeek, h.source]
  cases s.source.seek off.toInt with
  | none => exact .stop _
  | some answer =>
    obtain ⟨accepted, src⟩ := answer
    cases accepted with
    | true => exact .ok true (((h.touchSource src).advance off).emit [.transaction (.seek off true)])
    | false => exact .ok false ((h.touchSource src).emit [.transaction (.seek off false)])

theorem unseek_alike (t : Nat) {s s' : State} (h : s.Alike s') : (unseek t s).Alike (unseek t s') := by
  unfold unseek
  split
  · exact .ok () h
  · refine (srcSeek_alike _ h).bind (srcSeek_from _ s) fun accepted u u' _ hu => ?_
    cases accepted with
    | true => exact .ok () hu
    | false => exact .raised hu.raiseFault

/-! The cascade. -/

/-- A refill begins with every line used, so what its bulk read brings is all that counts afterwards. -/
theorem l2Refill_alike {s s' : State} (h : s.Alike s') (hf : s.fault = false)
    (hn : s.nextLine = s.params.lineCount) : (l2Refill s).Alike (l2Refill s') := by
  unfold l2Refill
  rw [h.params]
  refine (srcRead_alike _ h).bind (srcRead_post _ s) ?_
  rintro b t t' ⟨hx, hft, hb, he⟩ ht
  have hclear := hft.trans hf
  have hnext : t.nextLine = t.params.lineCount := by rw [hx.params, ← hn, he]
  have hpos := Params.lineCount_pos ht.inv.params
  rw [toNat_ofNat_of_lt h.inv.params.2.2] at hb
  simp only [← hx.params] at hb ⊢
  split
  · next hfull => exact .ok () ((ht.fullFill hclear hfull).l2Pop hclear hpos)
  · split
    · next haligned =>
      refine (unseek_alike _ (ht.packLines hclear hb)).bind (unseek_post _ _) ?_
      rintro _ u u' ⟨hxu, hfu, heu⟩ hu
      have hnu : u.nextLine = t.params.lineCount - b.length / t.params.wb := by rw [heu]; rfl
      have hpu : u.params = t.params := hxu.params
      exact .ok () (hu.l2Pop (hfu.trans hclear) (by rw [hnu, hpu]; omega))
    · refine (unseek_alike _ (ht.fillBuffer hclear hnext)).bind (unseek_post _ _) ?_
      rintro _ u u' ⟨hxu, hfu, -⟩ hu
      have hpu : u.params = t.params := hxu.params
      exact .fail (hu.exhaust (hfu.trans hclear) (by rw [hpu]))

theorem l1TailLoad_alike {s s' : State} (h : s.Alike s') (hf : s.fault = false) :
    (l1TailLoad s).Alike (l1TailLoad s') := by
  have hwb := s.params.wb_le
  unfold l1TailLoad
  rw [h.params]
  refine (srcRead_alike _ h).bind (srcRead_post _ s) ?_
  rintro b t t' ⟨hx, hft, hb, -⟩ ht
  rw [toNat_ofNat_of_lt (by omega)] at hb
  split
  · exact .fail ht
  · exact .ok () (ht.loadTail (hft.trans hf) (by rwa [hx.params]))

/-- RELOAD ends alike: it pops an alike line, or refills, with a tail load after a failed refill. -/
theorem reload_alike {s s' : State} (h : s.Alike s') (hf : s.fault = false) : (reload s).Alike (reload s') := by
  rcases Nat.lt_or_ge s.nextLine s.params.lineCount with hn | hn
  · rw [reload_pop hn, reload_pop (by rwa [h.next hf, h.params])]
    exact .ok () (h.l2Pop hf hn)
  · have hrefill := l2Refill_alike h hf (Nat.le_antisymm (h.inv.next hf) hn)
    have hpost := l2Refill_post s
    rw [reload_refill hn, reload_refill (by rwa [h.next hf, h.params])]
    generalize l2Refill s = r at hrefill hpost ⊢
    generalize l2Refill s' = r' at hrefill ⊢
    cases hrefill with
    | ok u h => exact .ok u h
    | fail h => exact l1TailLoad_alike h (hpost.2.1.trans hf)
    | raised h => exact .raised h
    | stop f => exact .stop f
    | refuse x => exact .refuse x

/-! Reads. -/

theorem ensureBits_alike {s s' : State} (h : s.Alike s') (hf : s.fault = false) :
    (ensureBits s).Alike (ensureBits s') := by
  unfold ensureBits
  rw [h.consume hf, h.params]
  split
  · exact reload_alike h hf
  · exact .ok () h

theorem takeBits_alike {n : Nat} {s s' : State} (h : s.Alike s') (hf : s.fault = false) (hn : n ≤ s.rem) :
    (takeBits n s).Alike (takeBits n s') := by
  unfold takeBits
  rw [h.params, h.cache hf]
  exact .ok _ (h.consumeBits hf hn)

theorem straddle_alike (n : Nat) {s s' : State} (h : s.Alike s') (hf : s.fault = false) :
    (straddle n s).Alike (straddle n s') := by
  unfold straddle
  rw [h.rem hf, h.params, h.cache hf]
  refine (reload_alike h hf).bind (reload_from s) fun _ t t' hk ht => ?_
  have hft := hk.fault.trans hf
  rw [ht.rem hft]
  split
  · exact .fail ht
  · next hn =>
    exact (takeBits_alike ht hft (Nat.le_of_not_lt hn)).bind (takeBits_from (Nat.le_of_not_lt hn))
      fun _ _ _ _ hu => .ok _ hu

theorem read32_alike (n : Nat) {s s' : State} (h : s.Alike s') (hf : s.fault = false) :
    (read32 n s).Alike (read32 n s') := by
  refine (ensureBits_alike h hf).bind (ensureBits_from s) fun _ t t' hk ht => ?_
  have hft := hk.fault.trans hf
  rw [ht.rem hft]
  split
  · next hn => exact takeBits_alike ht hft hn
  · exact straddle_alike n ht hft

theorem readBits_alike (n : Nat) {s s' : State} (h : s.Alike s') (hf : s.fault = false) :
    (readBits n s).Alike (readBits n s') := by
  unfold readBits
  split
  · exact read32_alike n h hf
  · refine (read32_alike _ h hf).bind (read32_from _ s) fun _ t t' hk ht => ?_
    exact (read32_alike 32 ht (hk.fault.trans hf)).bind (read32_from 32 t) fun _ _ _ _ hu => .ok _ hu

/-! Seeks. -/

/-- SEEK_CALC reads only what is alike (R151). -/
theorem seekCalc_congr (n : Nat) {s s' : State} (h : s.Alike s') (hf : s.fault = false) :
    seekCalc n s' = seekCalc n s := by
  simp only [seekCalc, h.rem hf, h.params, h.next hf]

theorem seekWhole_alike (n : Nat) {s s' : State} (h : s.Alike s') (hf : s.fault = false) :
    (seekWhole (seekCalc n s) s).Alike (seekWhole (seekCalc n s) s') := by
  have hskip : s.nextLine + (seekCalc n s).skipL2 ≤ s.params.lineCount := by
    have := h.inv.next hf
    have : (seekCalc n s).skipL2 ≤ s.params.lineCount - s.nextLine := Nat.min_le_right _ _
    omega
  unfold seekWhole
  split
  · exact .ok () (h.skipLines hf hskip)
  · refine (srcSeek_alike _ h).bind (srcSeek_post _ s) ?_
    rintro accepted t t' ⟨hx, hft, he⟩ ht
    cases accepted with
    | true => exact .ok () (ht.skipLines (hft.trans hf) (by rw [hx.params, he]; exact hskip))
    | false => exact .fail ht

theorem seekFuel_alike (fuel n : Nat) {s s' : State} (h : s.Alike s') (hf : s.fault = false) :
    (seekFuel fuel n s).Alike (seekFuel fuel n s') := by
  induction fuel generalizing n s s' with
  | zero => exact .fail h
  | succ fuel ih =>
    unfold seekFuel
    rw [h.rem hf, seekCalc_congr n h hf]
    split
    · next hn => exact .ok () (h.consumeBits hf hn)
    · refine (seekWhole_alike n h hf).bind (seekWhole_from n hf) fun _ t t' hk ht => ?_
      have hft := hk.fault.trans hf
      split
      · exact .ok () ht
      · exact (reload_alike ht hft).bind (reload_from t) fun _ u u' hku hu => ih _ hu (hku.fault.trans hft)

theorem seek_alike (n : Nat) {s s' : State} (h : s.Alike s') (hf : s.fault = false) :
    (seek n s).Alike (seek n s') := by
  unfold seek
  rw [h.params]
  exact seekFuel_alike _ n h hf

/-! Instructions. -/

/-- Two steps end alike: in alike states, or in the same stop. -/
inductive EndAlike : StepResult → StepResult → Prop where
  | next {t t' : State} (h : t.Alike t') : EndAlike (.next t) (.next t')
  | fault (f : Fault) : EndAlike (.fault f) (.fault f)
  | refused (x : Refusal) : EndAlike (.refused x) (.refused x)

theorem finish_alike (cmd : Instr) {r r' : Res Arg} (h : r.Alike r') : EndAlike (finish cmd r) (finish cmd r') := by
  cases h with
  | ok v h => exact .next (h.emit _)
  | fail h => exact .next (h.emit _)
  | raised h => exact .next (h.emit _)
  | stop f => exact .fault f
  | refuse x => exact .refused x

theorem answered_alike {α : Type} {r r' : Res α} (h : r.Alike r') : EndAlike (answered r) (answered r') := by
  cases h with
  | ok v h => exact .next h
  | fail h => exact .next h
  | raised h => exact .next h
  | stop f => exact .fault f
  | refuse x => exact .refused x

/-- A command ends alike where its body does, begun with the flag clear. -/
theorem runCommand_alike (cmd : Instr) (legal : Bool) {body : State → Res Arg} {s s' : State} (h : s.Alike s')
    (hbody : s.fault = false → (body s).Alike (body s')) :
    EndAlike (runCommand cmd legal body s) (runCommand cmd legal body s') := by
  cases hf : s.fault with
  | true =>
    rw [runCommand_fault hf, runCommand_fault (h.fault.trans hf)]
    exact .next (h.emit _)
  | false =>
    cases legal with
    | false =>
      rw [runCommand_illegal hf, runCommand_illegal (h.fault.trans hf)]
      exact .next (h.emit _)
    | true =>
      rw [runCommand_legal hf, runCommand_legal (h.fault.trans hf)]
      exact finish_alike cmd (hbody hf)

theorem rejectReserved_alike (cmd : Instr) {s s' : State} (h : s.Alike s') :
    EndAlike (rejectReserved cmd s) (rejectReserved cmd s') := by
  unfold rejectReserved unlessFault
  rw [h.fault]
  split <;> exact .next (h.emit _)

theorem exec_alike (i : Instr) {s s' : State} (h : s.Alike s') : EndAlike (exec i s) (exec i s') := by
  cases i with
  | rdu n => exact runCommand_alike _ _ h fun hf => readBits_alike _ h hf
  | rds n =>
    rw [exec_rds, exec_rds]
    exact runCommand_alike _ _ h fun hf => (readBits_alike _ h hf).bind (readBits_from _ s) fun _ _ _ _ hu => .ok _ hu
  | skb n =>
    rw [exec_skb, exec_skb]
    exact runCommand_alike _ _ h fun hf => (seek_alike _ h hf).bind (seekFuel_from _ _ hf) fun _ _ _ _ hu => .ok _ hu
  | pos a =>
    rw [exec_pos, exec_pos]
    exact runCommand_alike _ _ h fun hf => by rw [h.bytePos hf]; exact .ok _ h
  | rsy p => exact .next ((h.resync p).emit _)
  | rsvd5 a => exact rejectReserved_alike _ h
  | rsvd6 a => exact rejectReserved_alike _ h
  | rsvd7 a => exact rejectReserved_alike _ h
  | srcRd m => exact answered_alike (srcRead_alike m h)
  | srcSk o => exact answered_alike (srcSeek_alike o h)

/-! The step. -/

theorem step_alike {s s' : State} (h : s.Alike s') : EndAlike (step s) (step s') := by
  unfold step
  rw [h.inbox]
  cases s.inbox with
  | nil => exact .next h
  | cons input rest =>
    have hrest := h.withInbox rest
    cases input with
    | command cmd => exact exec_alike _ hrest
    | request req => exact exec_alike _ hrest
    | reset => exact .next hrest.resetReader
    | resetDuring cmd ts src => exact .next (hrest.resetMidCommand ts src)
    | touchSource src => exact .next (hrest.touchSource src)

end Sys2Proof.Machine

namespace Sys2Proof

open Machine

/-- Settles O53: alike states step to alike ends, and these agree in the trace and in the stop. -/
theorem arbitraryStateNeverReachesAnOutput : Obligations.ArbitraryStateNeverReachesAnOutput := by
  intro s s' h
  have hend := step_alike h
  generalize step s = r at hend ⊢
  generalize step s' = r' at hend ⊢
  cases hend with
  | next ht => exact ⟨fun t e => by cases e; exact ⟨_, rfl, ht⟩, nofun, nofun⟩
  | fault f => exact ⟨nofun, fun _ => id, nofun⟩
  | refused x => exact ⟨nofun, nofun, fun _ => id⟩

end Sys2Proof
end

section

/-! The requests of a command (20_memory.md R43): from one state to the next only legal requests are issued, said once
for every operation inside a command. -/

namespace Sys2Proof.Machine

/-! The counts of SEEK_CALC (43_seek.md R151). -/

theorem seekCalc_srcBytes (n : Nat) (s : State) :
    (seekCalc n s).srcBytes =
      ((n - s.rem) / s.params.w - (s.params.lineCount - s.nextLine)) * s.params.wb := by
  have hskip : ∀ whole avail : Nat, whole - min whole avail = whole - avail := by omega
  simp only [seekCalc, hskip]

/-- A forward seek of `2 ^ 64` bits or fewer is far from the sign bit of the request word. -/
theorem seekCalc_srcBytes_lt {n : Nat} (hn : n < 2 ^ 64) (s : State) : (seekCalc n s).srcBytes < 2 ^ 61 := by
  have hw := s.params.w_eq
  have hwhole : (n - s.rem) / s.params.w * s.params.w ≤ n - s.rem := Nat.div_mul_le_self _ _
  have hskip : (seekCalc n s).srcBytes ≤ (n - s.rem) / s.params.w * s.params.wb := by
    rw [seekCalc_srcBytes]
    exact Nat.mul_le_mul_right _ (Nat.sub_le _ _)
  rw [hw, Nat.mul_left_comm, ← hw] at hwhole
  omega

/-- A nested seek asks for fewer bits than a word has. -/
theorem seekCalc_residual_lt (n : Nat) (s : State) : (seekCalc n s).residual < s.params.w :=
  Nat.mod_lt _ (by have := s.params.le_w; omega)

/-! Legal requests. -/

/-- From `s` to `t` parameters and inputs stay, and the trace grows by transactions with legal requests only (R43). -/
structure State.Issues (s t : State) : Prop where
  params : t.params = s.params
  inbox  : t.inbox = s.inbox
  trace  : ∃ ts : List Transaction, t.trace = s.trace ++ ts.map .transaction ∧
    ∀ x ∈ ts, x.request.wellFormed s.params = true

theorem State.Issues.trans {s t u : State} (h : s.Issues t) (h' : t.Issues u) : s.Issues u := by
  obtain ⟨ts, e, hts⟩ := h.trace
  obtain ⟨ts', e', hts'⟩ := h'.trace
  refine ⟨h'.params.trans h.params, h'.inbox.trans h.inbox, ts ++ ts', by simp [e, e'], fun x hx => ?_⟩
  rcases List.mem_append.1 hx with hx | hx
  · exact hts x hx
  · exact h.params ▸ hts' x hx

/-- An update of the reader's own elements issues nothing. -/
theorem State.Issues.of_eq {s t : State} (hp : t.params = s.params) (hi : t.inbox = s.inbox)
    (ht : t.trace = s.trace) : s.Issues t := ⟨hp, hi, [], by simp [ht], by simp⟩

theorem State.Issues.refl (s : State) : s.Issues s := .of_eq rfl rfl rfl

theorem State.Issues.one {s t : State} (hp : t.params = s.params) (hi : t.inbox = s.inbox) {x : Transaction}
    (ht : t.trace = s.trace ++ [.transaction x]) (hx : x.request.wellFormed s.params = true) : s.Issues t :=
  ⟨hp, hi, [x], ht, by simpa using hx⟩

/-- The operation `r`, begun in `s`, has issued legal requests only, however it ends. -/
def Res.Legal {α : Type} (r : Res α) (s : State) : Prop := r.Post (fun _ t => s.Issues t) s.Issues s.Issues

theorem Res.Legal.bind {α β : Type} {r : Res α} {k : α → State → Res β} {s : State} (h : r.Legal s)
    (hk : ∀ a t, s.Issues t → (k a t).Legal t) : (r.bind k).Legal s :=
  Res.Post.bind h (fun a t ht => (hk a t ht).mono (fun _ _ => ht.trans) (fun _ => ht.trans) (fun _ => ht.trans))
    (fun _ => id) (fun _ => id)

theorem Res.Legal.of_issues {α : Type} {r : Res α} {s t : State} (hr : r.Legal t) (h : s.Issues t) : r.Legal s :=
  hr.mono (fun _ _ => h.trans) (fun _ => h.trans) (fun _ => h.trans)

/-- An ok that has only updated the reader's own elements. -/
theorem ok_legal {α : Type} (a : α) {s t : State} (hp : t.params = s.params) (hi : t.inbox = s.inbox)
    (ht : t.trace = s.trace) : (Res.ok a t).Legal s := State.Issues.of_eq hp hi ht

theorem fail_legal {α : Type} {s t : State} (hp : t.params = s.params) (hi : t.inbox = s.inbox)
    (ht : t.trace = s.trace) : (Res.fail t : Res α).Legal s := State.Issues.of_eq hp hi ht

/-! The four forms of R43. -/

theorem srcRead_legal {s : State} {max : Nat} (hmax : max < 2 ^ 64)
    (h : max = s.params.l2Bytes ∨ max = s.params.wb) : (srcRead (BitVec.ofNat 64 max) s).Legal s := by
  have hwf : (Instr.srcRd (BitVec.ofNat 64 max)).wellFormed s.params = true := by
    simpa only [Instr.wellFormed, toNat_ofNat_of_lt hmax, decide_eq_true_eq] using h
  rcases srcRead_cases (BitVec.ofNat 64 max) s with ⟨b, src, -, -, e⟩ | ⟨-, e⟩ | ⟨b, src, -, -, e⟩ <;> rw [e]
  · exact State.Issues.one rfl rfl rfl hwf
  · trivial
  · trivial

theorem srcSeek_legal {off : Arg} {s : State} (h : legalOffset s.params off = true) : (srcSeek off s).Legal s := by
  rcases srcSeek_cases off s with ⟨src, -, e⟩ | ⟨src, -, e⟩ | ⟨-, e⟩ <;> rw [e]
  · exact State.Issues.one rfl rfl rfl h
  · exact State.Issues.one rfl rfl rfl h
  · trivial

/-- An un-seek hands back fewer bytes than a word, or is omitted. -/
theorem unseek_legal {t : Nat} {s : State} (ht : t < s.params.wb) : (unseek t s).Legal s := by
  have hwb := s.params.wb_le
  unfold unseek
  split
  · exact State.Issues.refl s
  · next hne =>
    have hoff : legalOffset s.params (-(BitVec.ofNat 64 t)) = true := by
      rw [legalOffset, toInt_neg_ofNat (by omega), decide_eq_true_eq]
      omega
    refine (srcSeek_legal hoff).bind fun accepted u _ => ?_
    cases accepted with
    | true => exact State.Issues.refl u
    | false => exact State.Issues.of_eq rfl rfl rfl

/-- A forward seek goes by whole words. -/
theorem forwardSeek_legal {n : Nat} {s : State} (hn : n < 2 ^ 64) (h : (seekCalc n s).srcBytes ≠ 0) :
    (srcSeek (BitVec.ofNat 64 (seekCalc n s).srcBytes) s).Legal s := by
  have hlt := seekCalc_srcBytes_lt hn s
  have hdvd : (seekCalc n s).srcBytes % s.params.wb = 0 := by rw [seekCalc_srcBytes]; exact Nat.mul_mod_left _ _
  refine srcSeek_legal ?_
  rw [legalOffset, toInt_ofNat (by omega), decide_eq_true_eq]
  exact .inr ⟨by omega, by exact_mod_cast hdvd⟩

/-! The operations inside a command. -/

theorem l2Refill_legal {s : State} (hwf : s.params.wf) : (l2Refill s).Legal s := by
  have hwb := s.params.le_wb
  have hread := srcRead_legal hwf.2.2 (.inl rfl)
  rcases l2Refill_cases s with ⟨b, s1, e, h⟩ | ⟨f, e⟩ | ⟨r, e⟩
  · rw [e] at hread
    have h1 : s.Issues s1 := hread
    rcases h with ⟨-, e2⟩ | ⟨-, -, e2⟩ | ⟨-, hshort, e2⟩ <;> rw [e2]
    · exact h1.trans (.of_eq rfl rfl rfl)
    · have hpack : s.Issues (packLines (b.length / s.params.wb) (fillBuffer b s1)) := h1.trans (.of_eq rfl rfl rfl)
      have ht : b.length % s.params.wb < s.params.wb := Nat.mod_lt _ (by omega)
      refine Res.Legal.of_issues ?_ hpack
      exact (unseek_legal (hpack.params ▸ ht)).bind fun _ s3 _ => ok_legal () rfl rfl rfl
    · have hfill : s.Issues (fillBuffer b s1) := h1.trans (.of_eq rfl rfl rfl)
      refine Res.Legal.of_issues ?_ hfill
      exact (unseek_legal (hfill.params ▸ hshort)).bind fun _ s3 _ => fail_legal rfl rfl rfl
  · rw [e]; trivial
  · rw [e]; trivial

theorem l1TailLoad_legal (s : State) : (l1TailLoad s).Legal s := by
  have hwb := s.params.wb_le
  refine (srcRead_legal (by omega) (.inr rfl)).bind fun b s1 _ => ?_
  split
  · exact State.Issues.refl s1
  · exact ok_legal () rfl rfl rfl

theorem reload_legal {s : State} (hwf : s.params.wf) : (reload s).Legal s := by
  rcases Nat.lt_or_ge s.nextLine s.params.lineCount with h | h
  · rw [reload_pop h]
    exact ok_legal () rfl rfl rfl
  · rw [reload_refill h]
    have hrefill := l2Refill_legal hwf
    cases hr : l2Refill s with
    | fail t => rw [hr] at hrefill; exact (l1TailLoad_legal t).of_issues hrefill
    | ok | raised | stop | refuse => rwa [hr] at hrefill

theorem takeBits_legal (n : Nat) (s : State) : (takeBits n s).Legal s := ok_legal _ rfl rfl rfl

theorem read32_legal (n : Nat) {s : State} (hwf : s.params.wf) : (read32 n s).Legal s := by
  have hensure : (ensureBits s).Legal s := by
    unfold ensureBits
    split
    · exact reload_legal hwf
    · exact State.Issues.refl s
  refine hensure.bind fun _ s1 h1 => ?_
  split
  · exact takeBits_legal n s1
  · refine (reload_legal (h1.params ▸ hwf)).bind fun _ s2 _ => ?_
    split
    · exact State.Issues.refl s2
    · exact (takeBits_legal _ s2).bind fun _ s3 _ => State.Issues.refl s3

theorem readBits_legal (n : Nat) {s : State} (hwf : s.params.wf) : (readBits n s).Legal s := by
  unfold readBits
  split
  · exact read32_legal n hwf
  · exact (read32_legal _ hwf).bind fun _ s1 h1 =>
      (read32_legal 32 (h1.params ▸ hwf)).bind fun _ s2 _ => State.Issues.refl s2

theorem seekWhole_legal {n : Nat} (hn : n < 2 ^ 64) (s : State) : (seekWhole (seekCalc n s) s).Legal s := by
  unfold seekWhole
  split
  · exact ok_legal () rfl rfl rfl
  · next h =>
    refine (forwardSeek_legal hn h).bind fun accepted s1 _ => ?_
    cases accepted with
    | true => exact ok_legal () rfl rfl rfl
    | false => exact State.Issues.refl s1

theorem seekFuel_legal (fuel : Nat) {n : Nat} (hn : n < 2 ^ 64) {s : State} (hwf : s.params.wf) :
    (seekFuel fuel n s).Legal s := by
  induction fuel generalizing n s with
  | zero => exact State.Issues.refl s
  | succ fuel ih =>
    unfold seekFuel
    split
    · exact ok_legal () rfl rfl rfl
    · refine (seekWhole_legal hn s).bind fun _ s1 h1 => ?_
      split
      · exact State.Issues.refl s1
      · have hres := seekCalc_residual_lt n s
        have hw := s.params.w_le
        have hwf1 : s1.params.wf := h1.params ▸ hwf
        exact (reload_legal hwf1).bind fun _ s2 h2 => ih (by omega) (h2.params ▸ hwf1)

/-! Commands. -/

/-- The command `i` ends in `t`: legal requests, then its one response (44_commands.md R170). -/
def EndsLegally (i : Instr) (s t : State) : Prop :=
  ∃ (ts : List Transaction) (st : Status) (d : Arg),
    t.trace = s.trace ++ ts.map .transaction ++ [answer i st d] ∧ ∀ x ∈ ts, x.request.wellFormed s.params = true

theorem State.Issues.endsLegally {s u : State} (h : s.Issues u) (i : Instr) (st : Status) (d : Arg) :
    EndsLegally i s (u.emit [answer i st d]) := by
  obtain ⟨ts, e, hts⟩ := h.trace
  exact ⟨ts, st, d, by rw [emit_trace, e], hts⟩

theorem runCommand_endsLegally {cmd : Instr} {legal : Bool} {body : State → Res Arg} {s t : State}
    (h : runCommand cmd legal body s = .next t) (hbody : (body s).Legal s) : EndsLegally cmd s t := by
  have hrefl := State.Issues.refl s
  cases hf : s.fault with
  | true =>
    rw [runCommand_fault hf] at h
    cases h
    exact hrefl.endsLegally ..
  | false =>
    cases legal with
    | false =>
      rw [runCommand_illegal hf] at h
      cases h
      exact hrefl.endsLegally ..
    | true =>
      rw [runCommand_legal hf] at h
      rcases finish_next h with ⟨v, u, hr, rfl⟩ | ⟨u, hr, rfl⟩ | ⟨u, hr, rfl⟩ <;> rw [hr] at hbody
      · exact State.Issues.endsLegally hbody ..
      · exact State.Issues.endsLegally hbody ..
      · exact State.Issues.endsLegally hbody ..

theorem rejectReserved_endsLegally {cmd : Instr} {s t : State} (h : rejectReserved cmd s = .next t) :
    EndsLegally cmd s t := by
  unfold rejectReserved unlessFault at h
  split at h <;> cases h <;> exact (State.Issues.refl s).endsLegally ..

theorem exec_command_endsLegally {i : Instr} {s t : State} (hwf : s.params.wf) (hport : i.port = .command)
    (h : exec i s = .next t) : EndsLegally i s t := by
  cases i with
  | rdu n => exact runCommand_endsLegally h (readBits_legal _ hwf)
  | rds n =>
    rw [exec_rds] at h
    exact runCommand_endsLegally h ((readBits_legal _ hwf).bind fun _ u _ => ok_legal _ rfl rfl rfl)
  | skb n =>
    rw [exec_skb] at h
    exact runCommand_endsLegally h ((seekFuel_legal _ n.isLt hwf).bind fun _ u _ => ok_legal _ rfl rfl rfl)
  | pos a => exact runCommand_endsLegally h (State.Issues.refl s)
  | rsy p =>
    cases h
    exact State.Issues.endsLegally (u := resync p s) (.of_eq rfl rfl rfl) ..
  | rsvd5 a => exact rejectReserved_endsLegally h
  | rsvd6 a => exact rejectReserved_endsLegally h
  | rsvd7 a => exact rejectReserved_endsLegally h
  | srcRd | srcSk => nomatch hport

/-- The transactions of a command's events are those before its response. -/
theorem transactionsOf_append_answer (ts : List Transaction) (i : Instr) (st : Status) (d : Arg) :
    transactionsOf (ts.map .transaction ++ [answer i st d]) = ts := by
  simp [transactionsOf, answer, List.filterMap_append, List.filterMap_map]

end Sys2Proof.Machine

namespace Sys2Proof

open Machine

/-- Settles O23: every operation inside a command issues legal requests only. -/
theorem onlyLegalRequestsAreIssued : Obligations.OnlyLegalRequestsAreIssued := by
  intro i s t evs hinv hport h htrace x hx
  obtain ⟨ts, st, d, e, hts⟩ := exec_command_endsLegally hinv.params hport h
  have hevs : evs = ts.map .transaction ++ [answer i st d] := by
    rw [htrace, List.append_assoc] at e
    exact List.append_cancel_left e
  rw [hevs, transactionsOf_append_answer] at hx
  exact hts x hx

end Sys2Proof
end

section

/-! The byte source (20_memory.md R41, R42, R50, R52, R53): the two transactions alone, the answers of the reference
byte source, and where a request that is not answered, or answered too long, stops a command. -/

namespace Sys2Proof

/-- The buffer has at least one line (R7). -/
theorem Params.wb_le_l2Bytes {p : Params} (h : p.wf) : p.wb ≤ p.l2Bytes :=
  Nat.le_of_dvd h.1 (Nat.dvd_of_mod_eq_zero h.2.1)

namespace Machine

/-! A transaction, by the byte source's answer. -/

section Transactions

variable {s : State} {max off : Arg} {b : List Byte} {src : ByteSource} {accepted : Bool}

theorem srcRead_of_read (h : s.source.read max.toNat = some (b, src)) (hb : b.length ≤ max.toNat) :
    srcRead max s = .ok b ({ s with
      source := src, currentBytePos := s.currentBytePos + BitVec.ofNat 64 b.length }.log (.read max b)) := by
  simp only [srcRead, h, if_pos hb]

theorem srcRead_of_none (h : s.source.read max.toNat = none) : srcRead max s = .stop .sourceNeverAnswers := by
  simp only [srcRead, h]

theorem srcRead_of_long (h : s.source.read max.toNat = some (b, src)) (hb : max.toNat < b.length) :
    srcRead max s = .refuse .answerTooLong := by
  simp only [srcRead, h, if_neg (Nat.not_le_of_lt hb)]

theorem srcSeek_of_seek (h : s.source.seek off.toInt = some (accepted, src)) :
    srcSeek off s = .ok accepted ({ s with
      source := src,
      currentBytePos := if accepted then s.currentBytePos + off else s.currentBytePos }.log (.seek off accepted)) := by
  cases accepted <;> simp [srcSeek, h]

theorem srcSeek_of_none (h : s.source.seek off.toInt = none) : srcSeek off s = .stop .sourceNeverAnswers := by
  simp only [srcSeek, h]

end Transactions

theorem exec_srcRd (max : Arg) (s : State) : exec (.srcRd max) s = answered (srcRead max s) := rfl
theorem exec_srcSk (off : Arg) (s : State) : exec (.srcSk off) s = answered (srcSeek off s) := rfl

/-! The reference byte source (R52). -/

theorem read_mem (bytes : List Byte) (c max : Nat) :
    (ByteSource.mem bytes c).read max =
      some ((bytes.drop c).take max, .mem bytes (c + ((bytes.drop c).take max).length)) := rfl

theorem seek_mem_of_inside {bytes : List Byte} {c : Nat} {off : Int} (h : 0 ≤ c + off ∧ c + off ≤ bytes.length) :
    (ByteSource.mem bytes c).seek off = some (true, .mem bytes (c + off).toNat) := if_pos h

theorem seek_mem_of_outside {bytes : List Byte} {c : Nat} {off : Int} (h : ¬(0 ≤ c + off ∧ c + off ≤ bytes.length)) :
    (ByteSource.mem bytes c).seek off = some (false, .mem bytes c) := if_neg h

/-! An un-seek, by the byte source's answer (42_l2_buffer.md R126, R127). -/

/-- An un-seek that is accepted, or omitted for no bytes. -/
theorem unseek_of_accepted {t : Nat} {s : State} {src : ByteSource} (ht : t < 2 ^ 63)
    (h : if t = 0 then src = s.source else s.source.seek (-(t : Int)) = some (true, src)) :
    ∃ trace, unseek t s = .ok () { s with
      source := src, currentBytePos := s.currentBytePos + -(BitVec.ofNat 64 t), trace := trace } := by
  by_cases h0 : t = 0
  · subst h0
    obtain rfl : src = s.source := by simpa using h
    exact ⟨s.trace, by simp [unseek]⟩
  · rw [if_neg h0, ← toInt_neg_ofNat ht] at h
    exact ⟨_, by rw [unseek, if_neg h0, srcSeek_of_seek h]; rfl⟩

theorem unseek_unanswered {t : Nat} {s : State} (ht : t < 2 ^ 63) (h0 : t ≠ 0)
    (h : s.source.seek (-(t : Int)) = none) : unseek t s = .stop .sourceNeverAnswers := by
  rw [← toInt_neg_ofNat ht] at h
  rw [unseek, if_neg h0, srcSeek_of_none h, bind_stop]

/-! The requests of a RELOAD with no line left, each by its answer (42_l2_buffer.md R122 to R130). -/

/-- The reader after the bulk read `b`, its bytes in the buffer (R122). -/
def afterBulk (b : List Byte) (src : ByteSource) (s : State) : State :=
  fillBuffer b ({ s with
    source := src, currentBytePos := s.currentBytePos + BitVec.ofNat 64 b.length }.log
      (.read (BitVec.ofNat 64 s.params.l2Bytes) b))

section AfterBulk

variable (b : List Byte) (src : ByteSource) (s : State)

@[simp] theorem afterBulk_params : (afterBulk b src s).params = s.params := rfl
@[simp] theorem afterBulk_cache : (afterBulk b src s).cache = s.cache := rfl
@[simp] theorem afterBulk_consumedBits : (afterBulk b src s).consumedBits = s.consumedBits := rfl
@[simp] theorem afterBulk_lines : (afterBulk b src s).lines = writeLines s.params b s.lines := rfl
@[simp] theorem afterBulk_nextLine : (afterBulk b src s).nextLine = s.nextLine := rfl
@[simp] theorem afterBulk_currentBytePos :
    (afterBulk b src s).currentBytePos = s.currentBytePos + BitVec.ofNat 64 b.length := rfl
@[simp] theorem afterBulk_fault : (afterBulk b src s).fault = s.fault := rfl
@[simp] theorem afterBulk_source : (afterBulk b src s).source = src := rfl

end AfterBulk

section Reload

variable {s : State} {b : List Byte} {src : ByteSource}

/-- The argument of a tail read, as the number it is. -/
theorem toNat_ofNat_wb (p : Params) : (BitVec.ofNat 64 p.wb).toNat = p.wb :=
  toNat_ofNat_of_lt (by have := p.wb_le; omega)

theorem l1TailLoad_unanswered (h : s.source.read s.params.wb = none) : l1TailLoad s = .stop .sourceNeverAnswers := by
  rw [l1TailLoad, srcRead_of_none (by rwa [toNat_ofNat_wb]), bind_stop]

theorem l1TailLoad_tooLong (h : s.source.read s.params.wb = some (b, src)) (hb : s.params.wb < b.length) :
    l1TailLoad s = .refuse .answerTooLong := by
  have hwb := toNat_ofNat_wb s.params
  rw [l1TailLoad, srcRead_of_long (by rwa [hwb]) (by rwa [hwb]), bind_refuse]

variable (hwf : s.params.wf) (hn : s.params.lineCount ≤ s.nextLine)
include hwf hn

theorem reload_bulk_unanswered (h : s.source.read s.params.l2Bytes = none) :
    reload s = .stop .sourceNeverAnswers := by
  rw [reload_refill hn, l2Refill, srcRead_of_none (by rwa [toNat_ofNat_of_lt hwf.2.2]), bind_stop]

variable (h : s.source.read s.params.l2Bytes = some (b, src))
include h

theorem reload_bulk_tooLong (hb : s.params.l2Bytes < b.length) : reload s = .refuse .answerTooLong := by
  have hl2 := toNat_ofNat_of_lt hwf.2.2
  rw [reload_refill hn, l2Refill, srcRead_of_long (by rwa [hl2]) (by rwa [hl2]), bind_refuse]

theorem reload_full (hb : b.length = s.params.l2Bytes) :
    reload s = .ok () (l2Pop (setIndices 0 0 (afterBulk b src s))) := by
  have hl2 := toNat_ofNat_of_lt hwf.2.2
  rw [reload_refill hn, l2Refill, srcRead_of_read (by rwa [hl2]) (by omega), bind_ok]
  simp only [if_pos hb]
  rfl

theorem reload_partial (hlt : b.length < s.params.l2Bytes) (hle : s.params.wb ≤ b.length) :
    reload s = (unseek (b.length % s.params.wb) (packLines (b.length / s.params.wb) (afterBulk b src s))).bind
      fun _ u => .ok () (l2Pop u) := by
  have hl2 := toNat_ofNat_of_lt hwf.2.2
  have haligned : 1 ≤ b.length / s.params.wb := Nat.div_pos hle (by have := s.params.le_wb; omega)
  have hrefill : l2Refill s = (unseek (b.length % s.params.wb)
      (packLines (b.length / s.params.wb) (afterBulk b src s))).bind fun _ u => .ok () (l2Pop u) := by
    rw [l2Refill, srcRead_of_read (by rwa [hl2]) (by omega), bind_ok]
    simp only [if_neg (Nat.ne_of_lt hlt), if_pos haligned]
    rfl
  have hunseek := unseek_post (b.length % s.params.wb) (packLines (b.length / s.params.wb) (afterBulk b src s))
  rw [reload_refill hn, hrefill]
  cases hr : unseek (b.length % s.params.wb) (packLines (b.length / s.params.wb) (afterBulk b src s)) with
  | fail u => rw [hr] at hunseek; exact hunseek.elim
  | ok | raised | stop | refuse => rfl

theorem reload_degenerate (hlt : b.length < s.params.wb) :
    reload s = (unseek b.length (afterBulk b src s)).bind
      fun _ u => l1TailLoad (setIndices s.params.lineCount s.params.lineCount u) := by
  have hl2 := toNat_ofNat_of_lt hwf.2.2
  have hfull := Params.wb_le_l2Bytes hwf
  have hrefill : l2Refill s = (unseek b.length (afterBulk b src s)).bind
      fun _ u => .fail (setIndices s.params.lineCount s.params.lineCount u) := by
    rw [l2Refill, srcRead_of_read (by rwa [hl2]) (by omega), bind_ok]
    simp only [if_neg (show b.length ≠ s.params.l2Bytes by omega), Nat.div_eq_of_lt hlt,
      if_neg (show ¬1 ≤ 0 by omega)]
    rfl
  have hunseek := unseek_post b.length (afterBulk b src s)
  rw [reload_refill hn, hrefill]
  cases hr : unseek b.length (afterBulk b src s) with
  | fail u => rw [hr] at hunseek; exact hunseek.elim
  | ok | raised | stop | refuse => rfl

/-- The un-seek of a short bulk read that is not answered. -/
theorem reload_unseek_unanswered (hlt : b.length < s.params.l2Bytes) (hmod : b.length % s.params.wb ≠ 0)
    (hseek : src.seek (-((b.length % s.params.wb : Nat) : Int)) = none) : reload s = .stop .sourceNeverAnswers := by
  have hwb := s.params.wb_le
  have hlt2 := Nat.mod_lt b.length (show 0 < s.params.wb by have := s.params.le_wb; omega)
  rcases Nat.lt_or_ge b.length s.params.wb with hshort | hlong
  · rw [Nat.mod_eq_of_lt hshort] at hmod hseek
    rw [reload_degenerate hwf hn h hshort, unseek_unanswered (by omega) hmod hseek, bind_stop]
  · rw [reload_partial hwf hn h hlt hlong, unseek_unanswered (by omega) hmod hseek, bind_stop]

/-- A degenerate fill whose un-seek is accepted goes on to the tail load. -/
theorem reload_tail {src2 : ByteSource} (hlt : b.length < s.params.wb)
    (hseek : if b.length = 0 then src2 = src else src.seek (-(b.length : Int)) = some (true, src2)) :
    ∃ trace, reload s = l1TailLoad (setIndices s.params.lineCount s.params.lineCount { afterBulk b src s with
      source := src2, currentBytePos := s.currentBytePos, trace := trace }) := by
  have hwb := s.params.wb_le
  obtain ⟨trace, e⟩ := unseek_of_accepted (s := afterBulk b src s) (by omega) hseek
  refine ⟨trace, ?_⟩
  rw [reload_degenerate hwf hn h hlt, e, bind_ok, afterBulk_currentBytePos, BitVec.add_assoc, BitVec.add_right_neg,
    BitVec.add_zero]

/-- The tail read after a degenerate fill, not answered or answered too long. -/
theorem reload_tail_stops {src2 : ByteSource} (hlt : b.length < s.params.wb)
    (hseek : if b.length = 0 then src2 = src else src.seek (-(b.length : Int)) = some (true, src2)) :
    (src2.read s.params.wb = none → reload s = .stop .sourceNeverAnswers) ∧
    ∀ b' src3, src2.read s.params.wb = some (b', src3) → s.params.wb < b'.length →
      reload s = .refuse .answerTooLong := by
  obtain ⟨trace, e⟩ := reload_tail hwf hn h hlt hseek
  rw [e]
  exact ⟨fun hread => l1TailLoad_unanswered hread, fun b' src3 hread hb => l1TailLoad_tooLong hread hb⟩

end Reload

/-! A RELOAD that raises or stops is the end of the command it stands in (R135; 20_memory.md R50, R53). -/

/-- The first RELOAD of READ32, whether for an exhausted register or for a straddling read. -/
theorem read32_ending {cmd : Instr} {s : State} {n : Nat} {r : StepResult} (hn : s.rem < n)
    (h : (reload s).ending cmd = some r) : (read32 n s).ending cmd = some r := by
  unfold read32 ensureBits
  split
  · exact ending_bind h _
  · rw [bind_ok, if_neg (by omega)]
    exact ending_bind h _

theorem read32_of_le {s : State} {n : Nat} (hpos : 1 ≤ n) (hn : n ≤ s.rem) : read32 n s = takeBits n s := by
  have hheld : s.consumedBits ≠ s.params.w := by simp only [State.rem] at hn; omega
  rw [read32, ensureBits, if_neg hheld, bind_ok, if_pos hn]

theorem readBits_narrow {n : Nat} (hn : n ≤ 32) (s : State) : readBits n s = read32 n s := if_pos hn

theorem readBits_wide {n : Nat} (hn : 33 ≤ n) (s : State) :
    readBits n s = (read32 (n - 32) s).bind fun hi u => (read32 32 u).bind fun lo v => .ok (combine hi lo 32) v :=
  if_neg (by omega)

/-- What ends a read, ends the command RDU or RDS that it is. -/
theorem exec_read_ending {s : State} {n : Arg} {r : StepResult} {cmd : Instr} (hf : s.fault = false)
    (hpos : 1 ≤ n.toNat) (hn : n.toNat ≤ 64) (hcmd : cmd ∈ [Instr.rdu n, .rds n])
    (h : (readBits n.toNat s).ending cmd = some r) : exec cmd s = r := by
  have hlegal : legalWidth n = true := by simp [legalWidth, hpos, hn]
  simp only [List.mem_cons, List.not_mem_nil, or_false] at hcmd
  rcases hcmd with rfl | rfl
  · rw [exec_rdu, hlegal, runCommand_legal hf]
    exact finish_of_ending h
  · rw [exec_rds, hlegal, runCommand_legal hf]
    exact finish_of_ending (ending_bind h _)

/-- A read of more bits than the register holds ends as its first RELOAD does, where every RELOAD with this byte
source and no line left ends so: the RELOAD comes at once, or after a first part that the register covers. -/
theorem readBits_ending {cmd : Instr} {s : State} {n : Nat} {r : StepResult} (hn : s.rem < n) (hle : n ≤ 64)
    (h : ∀ u : State, u.params = s.params → u.nextLine = s.nextLine → u.source = s.source →
      (reload u).ending cmd = some r) : (readBits n s).ending cmd = some r := by
  rcases Nat.lt_or_ge 32 n with hwide | hnarrow
  · rw [readBits_wide hwide]
    rcases Nat.lt_or_ge s.rem (n - 32) with hfirst | hsecond
    · exact ending_bind (read32_ending hfirst (h s rfl rfl rfl)) _
    · have hrem : (consume (n - 32) s).rem < 32 := by
        simp only [State.rem, consume_params, consume_consumedBits] at hn hsecond ⊢
        omega
      rw [read32_of_le (by omega) hsecond, takeBits, bind_ok]
      exact ending_bind (read32_ending hrem (h (consume (n - 32) s) rfl rfl rfl)) _
  · rw [readBits_narrow hnarrow]
    exact read32_ending hn (h s rfl rfl rfl)

/-- SEEK beyond the register, one call of its recursion (43_seek.md R153 to R156). -/
theorem seek_beyond {n : Nat} {s : State} (hn : s.rem < n) :
    seek n s = (seekWhole (seekCalc n s) s).bind fun _ s1 =>
      if (seekCalc n s).residual = 0 then .ok () s1
      else (reload s1).bind fun _ s2 => seekFuel s.params.w (seekCalc n s).residual s2 := by
  rw [seek, seekFuel, if_neg (by omega)]

/-- What ends a seek, ends the command SKB that it is. -/
theorem exec_skb_ending {s : State} {n : Arg} {r : StepResult} (hf : s.fault = false) (hpos : 1 ≤ n.toNat)
    (h : (seek n.toNat s).ending (.skb n) = some r) : exec (.skb n) s = r := by
  have hlegal : legalCount n = true := by simp [legalCount, hpos]
  rw [exec_skb, hlegal, runCommand_legal hf]
  exact finish_of_ending (ending_bind h _)

/-- The forward seek of SKB, where one is needed and is not answered. -/
theorem seekWhole_unanswered {s : State} {n : Nat} (hn : n < 2 ^ 64)
    (hbeyond : s.params.lineCount - s.nextLine < (n - s.rem) / s.params.w)
    (h : s.source.seek ((seekCalc n s).srcBytes : Int) = none) :
    seekWhole (seekCalc n s) s = .stop .sourceNeverAnswers := by
  have hlt := seekCalc_srcBytes_lt hn s
  have hne : (seekCalc n s).srcBytes ≠ 0 := by
    rw [seekCalc_srcBytes]
    exact Nat.mul_ne_zero (by omega) (by have := s.params.le_wb; omega)
  rw [seekWhole, if_neg hne, srcSeek_of_none (by rwa [toInt_ofNat (by omega)]), bind_stop]

theorem seekWhole_params {s s1 : State} {n : Nat} (hf : s.fault = false)
    (h : seekWhole (seekCalc n s) s = .ok () s1) : s1.params = s.params := by
  have hfrom := seekWhole_from n hf
  rw [h] at hfrom
  exact State.Keeps.params hfrom

/-- What ends the RELOAD for the residual of SKB ends SKB. -/
theorem exec_skb_residual_ending {s s1 : State} {n : Arg} {r : StepResult} (hf : s.fault = false)
    (hn : s.rem < n.toNat) (hwhole : seekWhole (seekCalc n.toNat s) s = .ok () s1)
    (hres : (seekCalc n.toNat s).residual ≠ 0) (h : (reload s1).ending (.skb n) = some r) : exec (.skb n) s = r := by
  refine exec_skb_ending hf (by omega) ?_
  rw [seek_beyond hn, hwhole, bind_ok, if_neg hres]
  exact ending_bind h _

end Machine

open Machine

/-- Settles O38: the answer of legal length, and what `MemSource` answers. -/
theorem sourceReadTransaction : Obligations.SourceReadTransaction := by
  refine ⟨fun s max b src h hb => ?_, fun bytes c max hc => ?_⟩
  · rw [exec_srcRd, srcRead_of_read h hb]
    rfl
  · refine ⟨_, read_mem bytes c max, by simp, fun j hj => ?_⟩
    have hj' : j < max ∧ c + j < bytes.length := by simp at hj; omega
    rw [List.getElem?_take_of_lt hj'.1, List.getElem?_drop]

/-- Settles O39: an answered seek, and the targets that `MemSource` accepts. -/
theorem sourceSeekTransaction : Obligations.SourceSeekTransaction := by
  refine ⟨fun s off accepted src h => ?_, fun bytes c off hc => ?_⟩
  · rw [exec_srcSk, srcSeek_of_seek h]
    rfl
  · by_cases h : 0 ≤ (c : Int) + off ∧ (c : Int) + off ≤ bytes.length
    · exact ⟨_, by rw [seek_mem_of_inside h, decide_eq_true h], by rw [if_pos h, Int.toNat_of_nonneg h.1]⟩
    · exact ⟨c, by rw [seek_mem_of_outside h, decide_eq_false h], by rw [if_neg h]⟩

/-- Settles O40: each request by its answer, and each command by the RELOAD or the seek it needs first. -/
theorem sourceStops : Obligations.SourceStops := by
  refine ⟨fun s max h => ?_, fun s off h => ?_, fun s max b src h hb => ?_, ?_, ?_, ?_, ?_⟩
  · rw [exec_srcRd, srcRead_of_none h]; rfl
  · rw [exec_srcSk, srcSeek_of_none h]; rfl
  · rw [exec_srcRd, srcRead_of_long h hb]; rfl
  · intro s hinv hn
    exact ⟨reload_bulk_unanswered hinv.params hn.ge, fun b src h => ⟨reload_bulk_tooLong hinv.params hn.ge h,
      reload_unseek_unanswered hinv.params hn.ge h, fun src2 => reload_tail_stops hinv.params hn.ge h⟩⟩
  · intro s n hinv hf hrem hn hnext cmd hcmd
    refine ⟨fun h => ?_, fun b src h hb => ?_⟩ <;>
      refine exec_read_ending hf (by omega) hn hcmd (readBits_ending hrem hn fun u hp hu hs => ?_)
    · rw [reload_bulk_unanswered (hp ▸ hinv.params) (by rw [hp, hu, hnext]) (by rw [hp, hs, h]), ending_stop]
    · rw [reload_bulk_tooLong (hp ▸ hinv.params) (by rw [hp, hu, hnext]) (by rw [hp, hs, h]) (by rwa [hp]),
        ending_refuse]
  · intro s n hinv hf hrem hbeyond h
    refine exec_skb_ending hf (by omega) ?_
    rw [← seekCalc_srcBytes] at h
    rw [seek_beyond hrem, seekWhole_unanswered n.isLt hbeyond h, bind_stop, ending_stop]
  · intro s s1 n hinv hf hrem hwhole hres hnext
    have hp := seekWhole_params hf hwhole
    refine ⟨fun h => ?_, fun b src h hb => ?_⟩ <;> refine exec_skb_residual_ending hf hrem hwhole hres ?_
    · rw [reload_bulk_unanswered (hp ▸ hinv.params) (by rw [hp, hnext]) (by rw [hp, h]), ending_stop]
    · rw [reload_bulk_tooLong (hp ▸ hinv.params) (by rw [hp, hnext]) (by rw [hp, h]) (by rwa [hp]), ending_refuse]

end Sys2Proof
end

section

/-! Bit strings as numbers (20_memory.md R44): bytes, words and stream, each as the binary digits of a number. -/

namespace Sys2Proof.Machine

/-! Binary digits. -/

/-- The `n` least significant binary digits of `v`, the most significant first. -/
def digits (n v : Nat) : List Bool := (List.range n).map fun i => v.testBit (n - 1 - i)

@[simp] theorem digits_length (n v : Nat) : (digits n v).length = n := by simp [digits]

theorem digits_add (m n v : Nat) : digits (m + n) v = digits m (v / 2 ^ n) ++ digits n v := by
  have hhigh : ∀ i ∈ List.range m, v.testBit (m + n - 1 - i) = (v / 2 ^ n).testBit (m - 1 - i) := by
    intro i hi
    rw [List.mem_range] at hi
    rw [Nat.testBit_div_two_pow]
    congr 1
    omega
  have hlow : ∀ i ∈ List.range n, v.testBit (m + n - 1 - (m + i)) = v.testBit (n - 1 - i) := by
    intro i _
    congr 1
    omega
  simp only [digits, List.range_add, List.map_append, List.map_map]
  rw [List.map_congr_left hhigh]
  exact congrArg _ (List.map_congr_left hlow)

theorem digits_congr {n v v' : Nat} (h : v % 2 ^ n = v' % 2 ^ n) : digits n v = digits n v' := by
  refine List.map_congr_left fun i hi => ?_
  rw [List.mem_range] at hi
  have hbit := congrArg (·.testBit (n - 1 - i)) h
  simpa [Nat.testBit_mod_two_pow, show n - 1 - i < n by omega] using hbit

theorem bitsValue_append (xs ys : List Bool) : bitsValue (xs ++ ys) = bitsValue xs * 2 ^ ys.length + bitsValue ys := by
  induction ys using List.reverseRecOn with
  | nil => simp [bitsValue]
  | append_singleton ys y ih =>
    have hstep : ∀ zs : List Bool, bitsValue (zs ++ [y]) = 2 * bitsValue zs + y.toNat := by
      intro zs; simp [bitsValue]
    rw [← List.append_assoc, hstep, ih, hstep, List.length_append, List.length_singleton, Nat.pow_succ]
    ring

theorem bitsValue_digits (n v : Nat) : bitsValue (digits n v) = v % 2 ^ n := by
  induction n generalizing v with
  | zero => simp [digits, bitsValue, Nat.mod_one]
  | succ n ih =>
    have hlast : bitsValue (digits 1 v) = v % 2 := by
      rcases Nat.mod_two_eq_zero_or_one v with h | h <;> simp [digits, bitsValue, h]
    have hmod : v % 2 ^ (n + 1) = v % 2 + 2 * (v / 2 % 2 ^ n) := by rw [Nat.pow_succ', Nat.mod_mul]
    rw [hmod, digits_add, bitsValue_append, ih, digits_length, hlast, Nat.pow_one]
    omega

theorem bitsValue_lt (xs : List Bool) : bitsValue xs < 2 ^ xs.length := by
  induction xs using List.reverseRecOn with
  | nil => simp [bitsValue]
  | append_singleton xs x ih =>
    have hx := x.toNat_lt
    rw [bitsValue_append, List.length_append, List.length_singleton, Nat.pow_succ]
    have : bitsValue [x] = x.toNat := by simp [bitsValue]
    omega

/-! Lists of equal parts. -/

/-- Dropping whole parts. -/
theorem drop_flatMap {α β : Type} {f : α → List β} {w : Nat} (hf : ∀ a, (f a).length = w) (k : Nat)
    (xs : List α) :
    (xs.drop k).flatMap f = (xs.flatMap f).drop (w * k) := by
  induction xs generalizing k with
  | nil => simp
  | cons x xs ih =>
    cases k with
    | zero => simp
    | succ k =>
      rw [List.drop_succ_cons, ih, List.flatMap_cons, Nat.mul_succ, Nat.add_comm, ← List.drop_drop,
        List.drop_left' (hf x)]

/-- Taking whole parts. -/
theorem take_flatMap {α β : Type} {f : α → List β} {w : Nat} (hf : ∀ a, (f a).length = w) (k : Nat)
    (xs : List α) :
    (xs.take k).flatMap f = (xs.flatMap f).take (w * k) := by
  induction xs generalizing k with
  | nil => simp
  | cons x xs ih =>
    cases k with
    | zero => simp
    | succ k =>
      rw [List.take_succ_cons, List.flatMap_cons, ih, List.flatMap_cons, Nat.mul_succ, Nat.add_comm, List.take_add,
        List.take_left' (hf x), List.drop_left' (hf x)]

/-! The stream. -/

@[simp] theorem byteBits_length (b : Byte) : (byteBits b).length = 8 := by simp [byteBits]

@[simp] theorem streamBits_length (bs : List Byte) : (streamBits bs).length = 8 * bs.length := by
  simp [streamBits, List.length_flatMap, Nat.mul_comm]

theorem streamBits_drop (k : Nat) (bs : List Byte) : streamBits (bs.drop k) = (streamBits bs).drop (8 * k) :=
  drop_flatMap byteBits_length k bs

theorem streamBits_take (k : Nat) (bs : List Byte) : streamBits (bs.take k) = (streamBits bs).take (8 * k) :=
  take_flatMap byteBits_length k bs

theorem byteBits_eq_digits (b : Byte) : byteBits b = digits 8 b.toNat := rfl

theorem ofBytesBE_cons (b : Byte) (bs : List Byte) :
    ofBytesBE (b :: bs) = b.toNat * 2 ^ (8 * bs.length) + ofBytesBE bs := by
  have h := ofBytesBE_append [b] bs
  rw [List.singleton_append] at h
  simpa [ofBytesBE, ofBytesLE, Nat.pow_mul] using h

/-- The stream of some bytes is their number's digits, the earliest byte the most significant (R44). -/
theorem streamBits_eq_digits (bs : List Byte) : streamBits bs = digits (8 * bs.length) (ofBytesBE bs) := by
  induction bs with
  | nil => rfl
  | cons b bs ih =>
    have hlt : ofBytesBE bs < 2 ^ (8 * bs.length) := by rw [Nat.pow_mul]; exact ofBytesBE_lt bs
    have hpos := Nat.two_pow_pos (8 * bs.length)
    have hhigh : (b.toNat * 2 ^ (8 * bs.length) + ofBytesBE bs) / 2 ^ (8 * bs.length) = b.toNat := by
      rw [Nat.add_comm, Nat.add_mul_div_right _ _ hpos, Nat.div_eq_of_lt hlt, Nat.zero_add]
    have hlow : digits (8 * bs.length) (b.toNat * 2 ^ (8 * bs.length) + ofBytesBE bs) =
        digits (8 * bs.length) (ofBytesBE bs) := digits_congr (Nat.mul_add_mod' _ _ _)
    rw [streamBits, List.flatMap_cons, ← streamBits, ih, List.length_cons, Nat.mul_succ, Nat.add_comm, digits_add,
      ofBytesBE_cons, hhigh, hlow, byteBits_eq_digits]

/-! Words. -/

theorem topBits_eq_digits {w n : Nat} (hn : n ≤ w) (x : Word) : topBits w n x = digits n (x.toNat / 2 ^ (w - n)) := by
  refine List.map_congr_left fun i hi => ?_
  rw [List.mem_range] at hi
  rw [Nat.testBit_div_two_pow, BitVec.getLsbD]
  congr 1
  omega

/-- A word that holds some bytes at its most significant end has their stream bits on top. -/
theorem topBits_eq_streamBits {w z : Nat} {bs : List Byte} {x : Word} (hw : z + 8 * bs.length = w)
    (hx : x.toNat = ofBytesBE bs * 2 ^ z) : topBits w (8 * bs.length) x = streamBits bs := by
  have hz : w - 8 * bs.length = z := by omega
  rw [topBits_eq_digits (by omega), hz, hx, Nat.mul_div_cancel _ (Nat.two_pow_pos z), streamBits_eq_digits]

theorem take_topBits {w m n : Nat} (h : m ≤ n) (x : Word) : (topBits w n x).take m = topBits w m x := by
  rw [topBits, ← List.map_take, List.take_range, Nat.min_eq_left h, topBits]

/-- PEEK is the number of the top bits (40_bit_extract_and_mask.md R81). -/
theorem peek_toNat {p : Params} {c : Word} (hc : c.toNat < 2 ^ p.w) {n : Nat} (hn : n ≤ p.w) :
    (peek p.w c n).toNat = bitsValue (topBits p.w n c) := by
  have hmask := tailMask_toNat p hc (Nat.sub_le p.w n)
  rw [tailMask, Nat.sub_sub_self hn] at hmask
  have hlt : c.toNat / 2 ^ (p.w - n) < 2 ^ n := by
    rw [Nat.div_lt_iff_lt_mul (Nat.two_pow_pos _), ← Nat.pow_add, Nat.add_sub_cancel' hn]
    exact hc
  rw [peek, shrW_toNat, hmask, Nat.mul_div_cancel _ (Nat.two_pow_pos _), topBits_eq_digits hn, bitsValue_digits,
    Nat.mod_eq_of_lt hlt]

theorem getLsbD_dropBits (p : Params) (c : Word) (n i : Nat) :
    (dropBits p.w c n).getLsbD i = (decide (i < p.w) && (decide (n ≤ i) && c.getLsbD (i - n))) := by
  rw [dropBits, BitVec.getLsbD, shlW_toNat p.w_le, Nat.testBit_mod_two_pow, Nat.testBit_mul_two_pow]
  rfl

/-- DROP takes the top bits away (R82). -/
theorem topBits_dropBits (p : Params) {m n : Nat} (h : n ≤ m) (hm : m ≤ p.w) (c : Word) :
    topBits p.w (m - n) (dropBits p.w c n) = (topBits p.w m c).drop n := by
  refine List.ext_getElem (by simp) fun i hi _ => ?_
  rw [topBits_length] at hi
  simp only [topBits, List.getElem_map, List.getElem_range, List.getElem_drop, getLsbD_dropBits,
    show p.w - 1 - i < p.w by omega, show n ≤ p.w - 1 - i by omega, decide_true, Bool.true_and]
  congr 1
  omega

/-- COMBINE joins two numbers that fit (R85). -/
theorem combine_toNat {hi lo : Arg} {m n : Nat} (hhi : hi.toNat < 2 ^ m) (hlo : lo.toNat < 2 ^ n) (h : m + n ≤ 64) :
    (combine hi lo n).toNat = hi.toNat * 2 ^ n + lo.toNat := by
  have hfit : hi.toNat * 2 ^ n < 2 ^ 64 :=
    calc hi.toNat * 2 ^ n < 2 ^ m * 2 ^ n := Nat.mul_lt_mul_of_pos_right hhi (Nat.two_pow_pos n)
      _ = 2 ^ (m + n) := (Nat.pow_add 2 m n).symm
      _ ≤ 2 ^ 64 := Nat.pow_le_pow_right (by decide) h
  rw [combine, BitVec.toNat_or, BitVec.toNat_shiftLeft, Nat.shiftLeft_eq, Nat.mod_eq_of_lt hfit, Nat.mul_comm,
    ← Nat.two_pow_add_eq_or_of_lt hlo]

end Sys2Proof.Machine
end

section

/-! The reader against the stream of a reference byte source (20_memory.md R44, R52; 95_test_vectors.md 5): each
operation of a reader in step, by the stream alone. -/

namespace Sys2Proof.Machine

/-! The bits held under each update. -/

/-- The stream bits of lines of the buffer (R25, R83). -/
def lineBits (p : Params) (ls : List Word) : List Bool := ls.flatMap fun l => topBits p.w p.w (beNorm p l)

theorem heldBits_eq (s : State) :
    s.heldBits = topBits s.params.w s.rem s.cache ++ lineBits s.params (s.lines.drop s.nextLine) := rfl

theorem lineBits_drop (p : Params) (k : Nat) (ls : List Word) :
    lineBits p (ls.drop k) = (lineBits p ls).drop (p.w * k) := drop_flatMap (fun _ => topBits_length _ _ _) k ls

theorem heldBits_of_exhausted {s : State} (h : s.lines.length ≤ s.nextLine) :
    s.heldBits = topBits s.params.w s.rem s.cache := by
  rw [heldBits_eq, List.drop_eq_nil_of_le h]
  exact List.append_nil _

theorem rem_consume (n : Nat) (s : State) : (consume n s).rem = s.rem - n := by
  simp only [State.rem, consume_params, consume_consumedBits]
  omega

theorem heldBits_consume {n : Nat} {s : State} (hn : n ≤ s.rem) : (consume n s).heldBits = s.heldBits.drop n := by
  have hrem : s.rem ≤ s.params.w := Nat.sub_le _ _
  rw [heldBits_eq, heldBits_eq, rem_consume, List.drop_append_of_le_length (by simpa using hn),
    ← topBits_dropBits s.params hn hrem]
  rfl

theorem rem_skipLines (k : Nat) (s : State) : (skipLines k s).rem = 0 := Nat.sub_self _

theorem heldBits_skipLines (k : Nat) (s : State) :
    (skipLines k s).heldBits = s.heldBits.drop (s.rem + s.params.w * k) := by
  rw [heldBits_eq, heldBits_eq, ← List.drop_drop, List.drop_left' (topBits_length _ _ _), ← lineBits_drop,
    List.drop_drop, rem_skipLines]
  rfl

theorem rem_l2Pop (s : State) : (l2Pop s).rem = s.params.w := rfl

theorem heldBits_l2Pop {s : State} (h : s.nextLine < s.lines.length) :
    (l2Pop s).heldBits = lineBits s.params (s.lines.drop s.nextLine) := by
  rw [List.drop_eq_getElem_cons h, heldBits_eq, rem_l2Pop, l2Pop_cache, List.getD_eq_getElem _ _ h]
  rfl

/-- The lines that a bulk read fills hold its bytes in stream order (R45, R83, R122). -/
theorem lineBits_writeLines {p : Params} {k : Nat} {b : List Byte} {ls : List Word} (hk : k ≤ ls.length)
    (hb : k * p.wb ≤ b.length) : lineBits p ((writeLines p b ls).take k) = streamBits (b.take (k * p.wb)) := by
  have hw := p.w_eq
  induction ls generalizing k b with
  | nil =>
    obtain rfl : k = 0 := by simpa using hk
    simp [lineBits, streamBits]
  | cons l ls ih =>
    cases k with
    | zero => simp [lineBits, streamBits]
    | succ k =>
      rw [Nat.succ_mul] at hb
      have hword : (b.take p.wb).length = p.wb := List.length_take_of_le (by omega)
      have hfirst : topBits p.w p.w (beNorm p (lineOfSlots p (b.take p.wb))) = streamBits (b.take p.wb) := by
        have htop := topBits_eq_streamBits (w := p.w) (z := 0) (bs := b.take p.wb)
          (x := beNorm p (lineOfSlots p (b.take p.wb))) (by omega) (by rw [beNorm_lineOfSlots hword]; omega)
        rwa [hword, ← hw] at htop
      have hrest := ih (k := k) (b := b.drop p.wb) (by simpa using hk) (by rw [List.length_drop]; omega)
      rw [writeLines_cons_of_le l ls (by omega), List.take_succ_cons, lineBits, List.flatMap_cons, ← lineBits, hrest,
        hfirst, Nat.succ_mul, Nat.add_comm, List.take_add]
      exact List.flatMap_append.symm

/-! In step. -/

/-- The stream's end, in bits from stream offset 0. -/
def endBit (bytes : List Byte) (base : Nat) : Nat := 8 * (bytes.length - base)

section InStep

variable {s t : State} {bytes : List Byte} {base pos : Nat}

theorem State.InStep.emit (h : s.InStep bytes base pos) (evs : List Event) : (s.emit evs).InStep bytes base pos :=
  { h with inv := h.inv.emit evs }

theorem State.InStep.held_le (h : s.InStep bytes base pos) : pos + s.heldBits.length ≤ endBit bytes base := by
  have hinside := h.inside
  rw [h.cursor, endBit]
  omega

theorem State.InStep.rem_le_held (h : s.InStep bytes base pos) : s.rem ≤ s.heldBits.length := by
  rw [heldBits_length h.inv]
  exact Nat.le_add_right _ _

theorem State.InStep.rem_le (h : s.InStep bytes base pos) : pos + s.rem ≤ endBit bytes base :=
  Nat.le_trans (Nat.add_le_add_left h.rem_le_held pos) h.held_le

/-- The bits held are the next of the stream. -/
theorem State.InStep.take_held (h : s.InStep bytes base pos) {n : Nat} (hn : n ≤ s.heldBits.length) :
    s.heldBits.take n = ((streamBits (bytes.drop base)).drop pos).take n := by
  rw [h.held, List.take_take, Nat.min_eq_left hn]

/-- An update that takes the first `n` of the bits held away, and no transaction with it, moves by `n` bits. -/
theorem State.InStep.advance (h : s.InStep bytes base pos) {n : Nat} (hn : n ≤ s.heldBits.length) (hinv : t.Inv)
    (hfault : t.fault = s.fault) (hsource : t.source = s.source) (hcursor : t.currentBytePos = s.currentBytePos)
    (hheld : t.heldBits = s.heldBits.drop n) : t.InStep bytes base (pos + n) where
  inv := hinv
  noFault := hfault.trans h.noFault
  size := h.size
  source := by rw [hsource, hcursor]; exact h.source
  inside := by rw [hcursor]; exact h.inside
  cursor := by
    have hcur := h.cursor
    rw [hcursor, hheld, List.length_drop]
    omega
  held := by
    rw [hheld, List.length_drop]
    nth_rw 1 [h.held]
    rw [List.drop_take, List.drop_drop]

theorem consume_inStep (h : s.InStep bytes base pos) {n : Nat} (hn : n ≤ s.rem) :
    (consume n s).InStep bytes base (pos + n) :=
  h.advance (Nat.le_trans hn h.rem_le_held) (consume_inv h.inv hn) rfl rfl rfl (heldBits_consume hn)

theorem skipLines_inStep (h : s.InStep bytes base pos) {k : Nat} (hk : s.nextLine + k ≤ s.params.lineCount) :
    (skipLines k s).InStep bytes base (pos + (s.rem + s.params.w * k)) := by
  refine h.advance ?_ (skipLines_inv h.inv fun _ => hk) rfl rfl rfl (heldBits_skipLines k s)
  rw [heldBits_length h.inv]
  exact Nat.add_le_add_left (Nat.mul_le_mul_left _ (by omega)) _

/-- Promoting a line lets go of what the register held. -/
theorem l2Pop_inStep (h : s.InStep bytes base pos) (hn : s.nextLine < s.params.lineCount) :
    (l2Pop s).InStep bytes base (pos + s.rem) := by
  have hlen := h.inv.memory.1
  refine h.advance h.rem_le_held (l2Pop_inv h.inv hn) rfl rfl rfl ?_
  rw [heldBits_l2Pop (by omega), heldBits_eq, List.drop_left' (topBits_length _ _ _)]

/-! RELOAD with no line left: the byte source stands where the register ends. -/

/-- With L2 exhausted the register's bits are all that is held. -/
theorem State.InStep.cursor_of_exhausted (h : s.InStep bytes base pos) (hn : s.nextLine = s.params.lineCount) :
    pos + s.rem = 8 * s.currentBytePos.toNat := by
  rw [← h.cursor, heldBits_length h.inv, hn, Nat.sub_self, Nat.mul_zero, Nat.add_zero]

/-- A tracked cursor inside the data does not wrap. -/
theorem State.InStep.toNat_cursor_add (h : s.InStep bytes base pos) {k : Nat}
    (hk : base + s.currentBytePos.toNat + k ≤ bytes.length) :
    (s.currentBytePos + BitVec.ofNat 64 k).toNat = s.currentBytePos.toNat + k := by
  have hsize := h.size
  rw [BitVec.toNat_add, toNat_ofNat_of_lt (by omega), Nat.mod_eq_of_lt (by omega)]

/-- A reader that has let go of what it held, and holds the next bytes of the byte source instead, is in step. -/
theorem State.InStep.refilled (h : s.InStep bytes base pos) (hn : s.nextLine = s.params.lineCount) {bs : List Byte}
    (hinv : t.Inv) (hfault : t.fault = s.fault)
    (hsource : t.source = .mem bytes (base + s.currentBytePos.toNat + bs.length))
    (hcursor : t.currentBytePos = s.currentBytePos + BitVec.ofNat 64 bs.length)
    (hheld : t.heldBits = streamBits bs) (hbs : bs <+: bytes.drop (base + s.currentBytePos.toNat)) :
    t.InStep bytes base (pos + s.rem) := by
  have hlen := hbs.length_le
  have hinside := h.inside
  rw [List.length_drop] at hlen
  have hcur : t.currentBytePos.toNat = s.currentBytePos.toNat + bs.length := by
    rw [hcursor, h.toNat_cursor_add (by omega)]
  rw [h.cursor_of_exhausted hn]
  refine ⟨hinv, hfault.trans h.noFault, h.size, by rw [hsource, hcur, Nat.add_assoc], by omega,
    by rw [hheld, hcur, streamBits_length]; omega, ?_⟩
  rw [hheld, streamBits_length, ← streamBits_drop, ← streamBits_take, List.drop_drop, ← List.prefix_iff_eq_take.1 hbs]

/-- What the byte source answers to a read of a reader in step. -/
theorem State.InStep.read (h : s.InStep bytes base pos) (max : Nat) :
    s.source.read max = some ((bytes.drop (base + s.currentBytePos.toNat)).take max,
      .mem bytes (base + s.currentBytePos.toNat +
        ((bytes.drop (base + s.currentBytePos.toNat)).take max).length)) := by
  rw [h.source, read_mem]

end InStep

/-- The reference byte source takes back what it has just given. -/
theorem seek_mem_back {bytes : List Byte} {c t : Nat} (ht : t ≤ c) (hc : c ≤ bytes.length) :
    if t = 0 then ByteSource.mem bytes (c - t) = .mem bytes c
    else (ByteSource.mem bytes c).seek (-(t : Int)) = some (true, .mem bytes (c - t)) := by
  split
  · next h => rw [h, Nat.sub_zero]
  · rw [seek_mem_of_inside (by omega)]
    congr
    omega

/-- The reader after the tail read `b` (42_l2_buffer.md R130, R131). -/
theorem l1TailLoad_of_read {s : State} {b : List Byte} {src : ByteSource}
    (h : s.source.read s.params.wb = some (b, src)) (hb : b.length ≤ s.params.wb) :
    ∃ trace, l1TailLoad s =
      (fun u : State => if b.length = 0 then .fail u else .ok () (loadTail b u))
        { s with source := src, currentBytePos := s.currentBytePos + BitVec.ofNat 64 b.length, trace := trace } := by
  have hwb := toNat_ofNat_wb s.params
  exact ⟨_, by rw [l1TailLoad, srcRead_of_read (by rwa [hwb]) (by rwa [hwb]), bind_ok]; rfl⟩

/-! Total ends: with a value or failing, as every operation over a reference byte source ends. -/

/-- The operation ends with a value, as `Q` says, or fails, as `F` says; it does not raise and does not stop. -/
def Res.Ends {α : Type} (r : Res α) (Q : α → State → Prop) (F : State → Prop) : Prop :=
  match r with
  | .ok a s => Q a s
  | .fail s => F s
  | .raised _ => False
  | .stop _ => False
  | .refuse _ => False

theorem Res.Ends.bind {α β : Type} {r : Res α} {k : α → State → Res β} {P : α → State → Prop}
    {Q : β → State → Prop} {F F' : State → Prop} (h : r.Ends P F') (hk : ∀ a s, P a s → (k a s).Ends Q F)
    (hF : ∀ s, F' s → F s) : (r.bind k).Ends Q F := by
  cases r with
  | ok a s => exact hk a s h
  | fail s => exact hF s h
  | raised | stop | refuse => exact h.elim

theorem Res.Ends.mono {α : Type} {r : Res α} {Q Q' : α → State → Prop} {F F' : State → Prop} (h : r.Ends Q F)
    (hQ : ∀ a s, Q a s → Q' a s) (hF : ∀ s, F s → F' s) : r.Ends Q' F' := by
  cases r with
  | ok a s => exact hQ a s h
  | fail s => exact hF s h
  | raised | stop | refuse => exact h.elim

/-- RELOAD of a reader in step lets go of the register and fills it with the next word of the stream, or with what is
left of the stream; only at the end of the stream it fails, and keeps the register (42_l2_buffer.md R120, R133). -/
def Res.Reloads (r : Res Unit) (bytes : List Byte) (base pos : Nat) (s : State) : Prop :=
  r.Ends (fun _ t => t.InStep bytes base (pos + s.rem) ∧ 1 ≤ t.rem ∧
      t.rem = min s.params.w (endBit bytes base - (pos + s.rem)))
    (fun t => pos + s.rem = endBit bytes base ∧ t.InStep bytes base pos)

section Reload

variable {s : State} {bytes : List Byte} {base pos : Nat} (h : s.InStep bytes base pos)
include h

theorem reload_of_line (hn : s.nextLine < s.params.lineCount) : (reload s).Reloads bytes base pos s := by
  rw [reload_pop hn]
  have hpop := l2Pop_inStep h hn
  have hrem := hpop.rem_le
  have hw := s.params.le_w
  rw [rem_l2Pop] at hrem
  exact ⟨hpop, by rw [rem_l2Pop]; omega, by rw [rem_l2Pop]; omega⟩

variable (hn : s.nextLine = s.params.lineCount)
include hn

/-- An ok RELOAD that brought `bs`, in terms of what it did to the byte source and the bits held. -/
theorem reloads_of_bytes {t : State} {bs : List Byte} (e : reload s = .ok () t)
    (hsource : t.source = .mem bytes (base + s.currentBytePos.toNat + bs.length))
    (hcursor : t.currentBytePos = s.currentBytePos + BitVec.ofNat 64 bs.length)
    (hheld : t.heldBits = streamBits bs) (hbs : bs <+: bytes.drop (base + s.currentBytePos.toNat))
    (hrem : t.rem = min s.params.w (8 * (bytes.length - (base + s.currentBytePos.toNat)))) :
    (reload s).Reloads bytes base pos s := by
  have hpost := reload_post s
  have hcur := h.cursor_of_exhausted hn
  rw [e] at hpost ⊢
  obtain ⟨hx, hfault, hnew, hinv⟩ := hpost
  refine ⟨h.refilled hn (hinv h.inv) hfault hsource hcursor hheld hbs,
    by rw [State.rem, hx.params]; omega, ?_⟩
  rw [hrem, hcur, endBit]
  congr 1
  omega

/-! Whole words: `b` is what the bulk read brings, at least one word. -/

section Words

variable {b : List Byte} (hpre : b <+: bytes.drop (base + s.currentBytePos.toNat)) (hb : s.params.wb ≤ b.length)
  (hread : s.source.read s.params.l2Bytes =
    some (b, .mem bytes (base + s.currentBytePos.toNat + b.length)))
include hpre hb

omit h hn in
/-- A whole word of the stream is left. -/
theorem word_left : s.params.w = min s.params.w (8 * (bytes.length - (base + s.currentBytePos.toNat))) := by
  have hw := s.params.w_eq
  have hle := hpre.length_le
  rw [List.length_drop] at hle
  omega

include hread

/-- A full fill leaves the words of the stream in every line (R123). -/
theorem reload_of_full (hfull : b.length = s.params.l2Bytes) : (reload s).Reloads bytes base pos s := by
  have hlen := h.inv.memory.1
  have hl2 := Params.l2Bytes_eq h.inv.params
  have hpos := Params.lineCount_pos h.inv.params
  have hword := word_left hpre hb
  have hwords := lineBits_writeLines (p := s.params) (b := b) (ls := s.lines) hlen.ge (by omega)
  rw [List.take_of_length_le (by rw [writeLines_length]; omega), List.take_of_length_le (by omega)] at hwords
  refine reloads_of_bytes h hn (reload_full h.inv.params hn.ge hread hfull) rfl rfl ?_ hpre hword
  rw [heldBits_l2Pop (by simp [hlen]; omega)]
  exact hwords

/-- A partial fill leaves whole words of the stream in the last lines, and hands the bytes after them back (R124,
R126). -/
theorem reload_of_partial (hlt : b.length < s.params.l2Bytes) : (reload s).Reloads bytes base pos s := by
  have hwf := h.inv.params
  have hlen := h.inv.memory.1
  have hwb := s.params.le_wb
  have hinside := h.inside
  have hle := hpre.length_le
  rw [List.length_drop] at hle
  have hword := word_left hpre hb
  have hmod := Nat.mod_lt b.length (show 0 < s.params.wb by omega)
  have hdiv := Nat.div_add_mod' b.length s.params.wb
  have hk : b.length / s.params.wb ≤ s.params.lineCount := Nat.div_le_div_right (Nat.le_of_lt hlt)
  have hkpos : 1 ≤ b.length / s.params.wb := Nat.div_pos hb (by omega)
  have hwords : (b.take (b.length / s.params.wb * s.params.wb)).length = b.length / s.params.wb * s.params.wb :=
    List.length_take_of_le (by omega)
  obtain ⟨trace, e⟩ := unseek_of_accepted (t := b.length % s.params.wb)
    (s := packLines (b.length / s.params.wb) (afterBulk b (.mem bytes (base + s.currentBytePos.toNat + b.length)) s))
    (by have := s.params.wb_le; omega) (seek_mem_back (by omega) (by omega))
  have hreload := reload_partial hwf hn.ge hread hlt hb
  rw [e, bind_ok] at hreload
  refine reloads_of_bytes h hn (bs := b.take (b.length / s.params.wb * s.params.wb)) hreload ?_ ?_ ?_
    ((List.take_prefix _ _).trans hpre) hword
  · rw [hwords]
    change ByteSource.mem _ _ = _
    congr 1
    omega
  · have hsplit : BitVec.ofNat 64 b.length = BitVec.ofNat 64 (b.length / s.params.wb * s.params.wb) +
        BitVec.ofNat 64 (b.length % s.params.wb) := by rw [← BitVec.ofNat_add, hdiv]
    rw [hwords]
    change s.currentBytePos + BitVec.ofNat 64 b.length + -BitVec.ofNat 64 _ = _
    rw [hsplit, BitVec.add_assoc, BitVec.add_assoc, BitVec.add_right_neg, BitVec.add_zero]
  · rw [heldBits_l2Pop (by simp [forgetLines]; omega), ← lineBits_writeLines (ls := s.lines) (by omega) (by omega)]
    exact congrArg _ (drop_packed _ (by simp [hlen]) hk)

end Words

/-! The rest of the stream: `b`, less than a word. -/

section Rest

variable {b : List Byte} (hb : b = bytes.drop (base + s.currentBytePos.toNat)) (hlt : b.length < s.params.wb)
include hb hlt

/-- The bulk read and the tail read both bring all of the rest; the first is handed back (R127, R130). -/
theorem reload_rest_eq :
    ∃ u : State, reload s = (if b.length = 0 then .fail u else .ok () (loadTail b u)) ∧ u = { s with
      lines := u.lines, nextLine := s.params.lineCount, unusedLines := s.params.lineCount,
      source := .mem bytes (base + s.currentBytePos.toNat + b.length),
      currentBytePos := s.currentBytePos + BitVec.ofNat 64 b.length, trace := u.trace } := by
  have hwf := h.inv.params
  have hfull := Params.wb_le_l2Bytes hwf
  have hinside := h.inside
  have hlength : b.length = bytes.length - (base + s.currentBytePos.toNat) := by rw [hb, List.length_drop]
  have hbulk := h.read s.params.l2Bytes
  have htail := read_mem bytes (base + s.currentBytePos.toNat) s.params.wb
  rw [← hb, List.take_of_length_le (by omega)] at hbulk htail
  have hback := seek_mem_back (bytes := bytes) (Nat.le_add_left b.length (base + s.currentBytePos.toNat)) (by omega)
  rw [Nat.add_sub_cancel] at hback
  obtain ⟨trace, ereload⟩ := reload_tail hwf hn.ge hbulk hlt hback
  obtain ⟨trace', etail⟩ := l1TailLoad_of_read (s := setIndices s.params.lineCount s.params.lineCount
    { afterBulk b (.mem bytes (base + s.currentBytePos.toNat + b.length)) s with
      source := .mem bytes (base + s.currentBytePos.toNat), currentBytePos := s.currentBytePos, trace := trace })
    htail (Nat.le_of_lt hlt)
  exact ⟨_, ereload.trans etail, rfl⟩

/-- A degenerate fill and the tail load after it put the rest of the stream in the register (R132); where nothing is
left, RELOAD fails (R131). -/
theorem reload_of_rest : (reload s).Reloads bytes base pos s := by
  have hw := s.params.w_eq
  have hpost := reload_post s
  have hlength : b.length = bytes.length - (base + s.currentBytePos.toNat) := by rw [hb, List.length_drop]
  obtain ⟨u, e, hu⟩ := reload_rest_eq h hn hb hlt
  have hp : u.params = s.params := by rw [hu]
  have hnext : u.nextLine = u.params.lineCount := by rw [hu]
  by_cases h0 : b.length = 0
  · rw [if_pos h0] at e
    rw [e] at hpost ⊢
    obtain ⟨-, hfault, hinv⟩ := hpost
    have hheld : u.heldBits = s.heldBits.drop 0 := by
      rw [List.drop_zero, heldBits_of_exhausted (by rw [(hinv h.inv).memory.1, hnext]),
        heldBits_of_exhausted (by rw [h.inv.memory.1, hn]), hu]
      rfl
    refine ⟨?_, h.advance (n := 0) (Nat.zero_le _) (hinv h.inv) hfault ?_ ?_ hheld⟩
    · have hinside := h.inside
      rw [h.cursor_of_exhausted hn, endBit]
      omega
    · rw [hu, h0, h.source]; rfl
    · rw [hu, h0]; exact BitVec.add_zero _
  · rw [if_neg h0] at e
    have hinv := hpost
    rw [e] at hinv
    have hrem : (loadTail b u).rem = 8 * b.length := by
      rw [State.rem, loadTail_params, loadTail_consumedBits, hp]
      omega
    refine reloads_of_bytes h hn e (by rw [loadTail_source, hu]) (by rw [loadTail_currentBytePos, hu]) ?_
      (by rw [hb]) (by omega)
    rw [heldBits_of_exhausted (by rw [(hinv.2.2.2 h.inv).memory.1, loadTail_nextLine, hnext]; rfl), hrem,
      loadTail_params, loadTail_cache, hp]
    exact topBits_eq_streamBits (by omega) (tailWord_toNat (Nat.le_of_lt hlt) _)

end Rest

omit hn in
/-- Every RELOAD of a reader in step pops a line, brings whole words, or brings the rest of the stream. -/
theorem reload_inStep : (reload s).Reloads bytes base pos s := by
  rcases Nat.lt_or_ge s.nextLine s.params.lineCount with hline | hline
  · exact reload_of_line h hline
  · have hn : s.nextLine = s.params.lineCount := Nat.le_antisymm (h.inv.next h.noFault) hline
    have hfull := Params.wb_le_l2Bytes h.inv.params
    rcases Nat.lt_or_ge (bytes.length - (base + s.currentBytePos.toNat)) s.params.wb with hshort | hword
    · exact reload_of_rest h hn rfl (by rwa [List.length_drop])
    · have hread := h.read s.params.l2Bytes
      have hpre := List.take_prefix s.params.l2Bytes (bytes.drop (base + s.currentBytePos.toNat))
      have hb : s.params.wb ≤ ((bytes.drop (base + s.currentBytePos.toNat)).take s.params.l2Bytes).length := by
        rw [List.length_take, List.length_drop]
        omega
      rcases Nat.eq_or_lt_of_le (List.length_take_le s.params.l2Bytes _) with hfull | hlt
      · exact reload_of_full h hn hpre hb hread hfull
      · exact reload_of_partial h hn hpre hb hread hlt

end Reload

end Sys2Proof.Machine
end

section

/-! Reads and seeks against the stream (20_memory.md R45, 00_scope.md R8, 44_commands.md R178): each command answers by
the stream, the position and its operand alone, whatever the parameters of the reader are. -/

namespace Sys2Proof.Machine

/-! Moving by a number of bits. -/

/-- The stream's `n` bits from bit `pos` on, as a word. -/
def streamWord (bytes : List Byte) (base pos n : Nat) : Word :=
  BitVec.ofNat 64 (bitsValue (((streamBits (bytes.drop base)).drop pos).take n))

theorem streamWord_toNat (bytes : List Byte) (base pos : Nat) {n : Nat} (hn : n ≤ 64) :
    (streamWord bytes base pos n).toNat = bitsValue (((streamBits (bytes.drop base)).drop pos).take n) ∧
    (streamWord bytes base pos n).toNat < 2 ^ n := by
  have hlt := bitsValue_lt (((streamBits (bytes.drop base)).drop pos).take n)
  have hn' : bitsValue (((streamBits (bytes.drop base)).drop pos).take n) < 2 ^ n :=
    Nat.lt_of_lt_of_le hlt (Nat.pow_le_pow_right (by decide) (List.length_take_le _ _))
  have h64 : 2 ^ n ≤ 2 ^ 64 := Nat.pow_le_pow_right (by decide) hn
  have hnat := toNat_ofNat_of_lt (Nat.lt_of_lt_of_le hn' h64)
  exact ⟨hnat, hnat.symm ▸ hn'⟩

/-- COMBINE joins neighbouring parts of the stream. -/
theorem combine_streamWord {bytes : List Byte} {base pos m n : Nat} (hmn : m + n ≤ 64)
    (hend : pos + (m + n) ≤ endBit bytes base) :
    combine (streamWord bytes base pos m) (streamWord bytes base (pos + m) n) n =
      streamWord bytes base pos (m + n) := by
  obtain ⟨hhi, hhi'⟩ := streamWord_toNat bytes base pos (show m ≤ 64 by omega)
  obtain ⟨hlo, hlo'⟩ := streamWord_toNat bytes base (pos + m) (show n ≤ 64 by omega)
  have hlen : (((streamBits (bytes.drop base)).drop (pos + m)).take n).length = n := by
    rw [endBit] at hend
    rw [List.length_take, List.length_drop, streamBits_length, List.length_drop]
    omega
  refine BitVec.eq_of_toNat_eq ?_
  rw [combine_toNat hhi' hlo' hmn, (streamWord_toNat bytes base pos hmn).1, List.take_add, bitsValue_append,
    List.drop_drop, hlen, hhi, hlo]

/-- The operation moves a reader at bit `pos` by `n` bits and gives `v`; or these bits are not all there, and it fails
and leaves the reader in step, at `pos` or after it. -/
def Res.Moves {α : Type} (r : Res α) (bytes : List Byte) (base pos n : Nat) (v : α) : Prop :=
  r.Ends (fun a t => pos + n ≤ endBit bytes base ∧ a = v ∧ t.InStep bytes base (pos + n))
    (fun t => endBit bytes base < pos + n ∧ ∃ q, pos ≤ q ∧ t.InStep bytes base q)

theorem Res.Moves.bind {α β : Type} {r : Res α} {k : α → State → Res β} {bytes : List Byte} {base pos m n : Nat}
    {v : α} {v' : β} (h : r.Moves bytes base pos m v)
    (hk : ∀ t, t.InStep bytes base (pos + m) → (k v t).Moves bytes base (pos + m) n v') :
    (r.bind k).Moves bytes base pos (m + n) v' := by
  refine Res.Ends.bind h ?_ fun t ⟨hend, q, hq, ht⟩ => ⟨by omega, q, hq, ht⟩
  rintro _ t ⟨-, rfl, ht⟩
  refine (hk t ht).mono ?_ ?_ <;> simp only [Nat.add_assoc]
  · exact fun _ _ => id
  · exact fun u ⟨hend, q, hq, hu⟩ => ⟨hend, q, by omega, hu⟩

/-- A value computed from the one moved over. -/
theorem Res.Moves.map {α β : Type} {r : Res α} {bytes : List Byte} {base pos n : Nat} {v : α}
    (h : r.Moves bytes base pos n v) (f : α → β) :
    (r.bind fun a t => .ok (f a) t).Moves bytes base pos n (f v) :=
  Res.Ends.bind h (fun _ _ ⟨hend, hv, ht⟩ => ⟨hend, congrArg f hv, ht⟩) fun _ => id

section Operations

variable {s : State} {bytes : List Byte} {base pos : Nat} (h : s.InStep bytes base pos)
include h

/-! Reads (41_l1_register.md R103 to R109). -/

theorem peek_eq_streamWord {n : Nat} (hn : n ≤ s.rem) : peek s.params.w s.cache n = streamWord bytes base pos n := by
  have hw := s.params.w_le
  have hrem : s.rem ≤ s.params.w := Nat.sub_le _ _
  have hheld : topBits s.params.w n s.cache = s.heldBits.take n := by
    rw [heldBits_eq, List.take_append_of_le_length (by simpa using hn), take_topBits hn]
  refine BitVec.eq_of_toNat_eq ?_
  rw [peek_toNat h.inv.cache (by omega), hheld, h.take_held (Nat.le_trans hn h.rem_le_held),
    (streamWord_toNat bytes base pos (by omega)).1]

theorem takeBits_moves {n : Nat} (hn : n ≤ s.rem) :
    (takeBits n s).Moves bytes base pos n (streamWord bytes base pos n) :=
  ⟨Nat.le_trans (Nat.add_le_add_left hn pos) h.rem_le, peek_eq_streamWord h hn, consume_inStep h hn⟩

/-- A straddling read: the register's bits, then what a RELOAD brings; it fails where that is too little (R105,
R106). -/
theorem straddle_moves {n : Nat} (hn : s.rem < n) (hle : n ≤ 32) :
    (straddle n s).Moves bytes base pos n (streamWord bytes base pos n) := by
  have hw := s.params.le_w
  refine Res.Ends.bind (reload_inStep h) ?_ fun t ⟨hend, ht⟩ => ⟨by omega, pos, Nat.le_refl _, ht⟩
  rintro _ t ⟨ht, -, hrem⟩
  split
  · next hshort => exact ⟨by omega, pos + s.rem, by omega, ht⟩
  · next henough =>
    have htake := (takeBits_moves ht (Nat.le_of_not_lt henough)).map
      fun lo => combine (peek s.params.w s.cache s.rem) lo (n - s.rem)
    have hsum : s.rem + (n - s.rem) = n := by omega
    refine htake.mono ?_ ?_ <;> rw [Nat.add_assoc, hsum]
    · rintro _ u ⟨hend, rfl, hu⟩
      refine ⟨hend, ?_, hu⟩
      rw [peek_eq_streamWord h (Nat.le_refl _), combine_streamWord (by omega) (by omega), hsum]
    · exact fun u ⟨hend, q, hq, hu⟩ => ⟨hend, q, by omega, hu⟩

theorem read32_moves {n : Nat} (hpos : 1 ≤ n) (hle : n ≤ 32) :
    (read32 n s).Moves bytes base pos n (streamWord bytes base pos n) := by
  have hensure : (ensureBits s).Ends (fun _ t => t.InStep bytes base pos)
      (fun t => pos = endBit bytes base ∧ t.InStep bytes base pos) := by
    unfold ensureBits
    split
    · next hempty =>
      have hrem : s.rem = 0 := by rw [State.rem, hempty, Nat.sub_self]
      exact (reload_inStep h).mono (fun _ _ ⟨ht, _, _⟩ => by rwa [hrem] at ht)
        fun _ ⟨hend, ht⟩ => ⟨by rwa [hrem] at hend, ht⟩
    · exact h
  refine Res.Ends.bind hensure ?_ fun t ⟨hend, ht⟩ => ⟨by omega, pos, Nat.le_refl _, ht⟩
  intro _ t ht
  split
  · next hn => exact takeBits_moves ht hn
  · next hn => exact straddle_moves ht (Nat.lt_of_not_le hn) hle

/-- A read of 1 to 64 bits, where wide in two parts (44_commands.md R177). -/
theorem readBits_moves {n : Nat} (hpos : 1 ≤ n) (hle : n ≤ 64) :
    (readBits n s).Moves bytes base pos n (streamWord bytes base pos n) := by
  rcases Nat.lt_or_ge 32 n with hwide | hnarrow
  · have hsum : n - 32 + 32 = n := by omega
    rw [readBits_wide hwide]
    have hparts := Res.Moves.bind (k := fun hi u => (read32 32 u).bind fun lo v => .ok (combine hi lo 32) v)
      (read32_moves h (n := n - 32) (by omega) (by omega))
      fun t ht => (read32_moves ht (n := 32) (by omega) (Nat.le_refl _)).map _
    rw [hsum] at hparts
    refine hparts.mono ?_ fun _ => id
    rintro _ u ⟨hend, rfl, hu⟩
    exact ⟨hend, by rw [combine_streamWord (by omega) (by omega), hsum], hu⟩
  · rw [readBits_narrow hnarrow]
    exact read32_moves h hpos hnarrow

/-! Seeks (43_seek.md R150 to R158). -/

omit h in
/-- R151: what is not the residual is the register, whole lines, and whole words of the byte source. -/
theorem seekCalc_identity {n : Nat} (hn : s.rem < n) :
    n = s.rem + s.params.w * (seekCalc n s).skipL2 + 8 * (seekCalc n s).srcBytes + (seekCalc n s).residual := by
  have hdiv := Nat.div_add_mod (n - s.rem) s.params.w
  have hskip : (seekCalc n s).skipL2 ≤ (n - s.rem) / s.params.w := Nat.min_le_left _ _
  have hbytes : 8 * (seekCalc n s).srcBytes = s.params.w * ((n - s.rem) / s.params.w - (seekCalc n s).skipL2) := by
    have hw := s.params.w_eq
    change 8 * (((n - s.rem) / s.params.w - (seekCalc n s).skipL2) * s.params.wb) = _
    rw [Nat.mul_comm _ s.params.wb, ← Nat.mul_assoc, ← hw]
  have hres : (seekCalc n s).residual = (n - s.rem) % s.params.w := rfl
  rw [hbytes, hres, Nat.add_assoc s.rem, ← Nat.mul_add, Nat.add_sub_cancel' hskip, Nat.add_assoc, hdiv]
  omega

/-- With the register and L2 left behind and `m` bytes of the byte source skipped, nothing is held (R154). -/
theorem skipSource_inStep {m : Nat} (hm : base + s.currentBytePos.toNat + m ≤ bytes.length) {u : State}
    (hu : u = { s with
      source := .mem bytes (base + s.currentBytePos.toNat + m),
      currentBytePos := s.currentBytePos + BitVec.ofNat 64 m, trace := u.trace }) :
    (skipLines (s.params.lineCount - s.nextLine) u).InStep bytes base (8 * (s.currentBytePos.toNat + m)) := by
  have hall : u.nextLine + (s.params.lineCount - s.nextLine) = u.params.lineCount := by
    rw [hu]
    exact Nat.add_sub_cancel' (h.inv.next h.noFault)
  have hinv : u.Inv := by rw [hu]; exact h.inv.of_eq rfl rfl rfl rfl rfl rfl rfl
  have hcur : u.currentBytePos.toNat = s.currentBytePos.toNat + m := by rw [hu]; exact h.toNat_cursor_add hm
  have hheld : (skipLines (s.params.lineCount - s.nextLine) u).heldBits = [] := by
    rw [heldBits_of_exhausted (by rw [skipLines_lines, skipLines_nextLine, hall, hinv.memory.1]), rem_skipLines]
    rfl
  exact {
    inv := skipLines_inv hinv fun _ => hall.le
    noFault := by rw [skipLines_fault, hu]; exact h.noFault
    size := h.size
    source := by rw [skipLines_source, skipLines_currentBytePos, hcur, hu, Nat.add_assoc]
    inside := by rw [skipLines_currentBytePos, hcur]; omega
    cursor := by rw [hheld, skipLines_currentBytePos, hcur]; rfl
    held := by rw [hheld]; rfl }

/-- The move beyond the register up to the residual: it fails only where the target is past the stream's end, and then
changes nothing (R153 to R155, R158). -/
theorem seekWhole_moves {n : Nat} (hn : s.rem < n) (h64 : n < 2 ^ 64) :
    (seekWhole (seekCalc n s) s).Ends
      (fun _ t => t.InStep bytes base (pos + (n - (seekCalc n s).residual)) ∧ t.rem = 0)
      (fun t => endBit bytes base < pos + n ∧ t.InStep bytes base pos) := by
  have hid := seekCalc_identity hn
  have hnext := h.inv.next h.noFault
  have havail : (seekCalc n s).skipL2 ≤ s.params.lineCount - s.nextLine := Nat.min_le_right _ _
  have hcursor := h.cursor
  rw [heldBits_length h.inv] at hcursor
  unfold seekWhole
  split
  · next h0 =>
    have hskip := skipLines_inStep h (k := (seekCalc n s).skipL2) (by omega)
    refine ⟨?_, rem_skipLines _ _⟩
    rwa [show n - (seekCalc n s).residual = s.rem + s.params.w * (seekCalc n s).skipL2 by omega]
  · next h0 =>
    have hlt := seekCalc_srcBytes_lt h64 s
    have hall : (seekCalc n s).skipL2 = s.params.lineCount - s.nextLine := by
      refine Nat.min_eq_right (Nat.le_of_lt (Nat.lt_of_sub_ne_zero ?_))
      rw [seekCalc_srcBytes] at h0
      exact (Nat.mul_ne_zero_iff.1 h0).1
    rw [hall] at hid ⊢
    have hinside := h.inside
    have hoff : (BitVec.ofNat 64 (seekCalc n s).srcBytes).toInt = ((seekCalc n s).srcBytes : Int) :=
      toInt_ofNat (by omega)
    by_cases hfit : base + s.currentBytePos.toNat + (seekCalc n s).srcBytes ≤ bytes.length
    · have hseek : s.source.seek (BitVec.ofNat 64 (seekCalc n s).srcBytes).toInt =
          some (true, .mem bytes (base + s.currentBytePos.toNat + (seekCalc n s).srcBytes)) := by
        rw [h.source, hoff, seek_mem_of_inside (by omega)]
        congr
      rw [srcSeek_of_seek hseek, bind_ok, if_pos rfl]
      refine ⟨?_, rem_skipLines _ _⟩
      rw [show pos + (n - (seekCalc n s).residual) = 8 * (s.currentBytePos.toNat + (seekCalc n s).srcBytes) by omega]
      exact skipSource_inStep h hfit rfl
    · have hseek : s.source.seek (BitVec.ofNat 64 (seekCalc n s).srcBytes).toInt = some (false, s.source) := by
        rw [h.source, hoff, seek_mem_of_outside (by omega)]
      rw [srcSeek_of_seek hseek, bind_ok, if_neg (by simp)]
      refine ⟨by rw [endBit]; omega, ?_⟩
      exact h.emit _

/-- SEEK from its first call, once its nested calls move by the residual (R156). -/
theorem seekFuel_succ_moves {n fuel : Nat} (hn : s.rem < n) (h64 : n < 2 ^ 64)
    (hnested : ∀ (q : Nat) (t : State), t.InStep bytes base q → 1 ≤ t.rem →
      (seekFuel fuel (seekCalc n s).residual t).Moves bytes base q (seekCalc n s).residual ()) :
    (seekFuel (fuel + 1) n s).Moves bytes base pos n () := by
  have hid := seekCalc_identity hn
  rw [seekFuel, if_neg (Nat.not_le_of_lt hn)]
  refine Res.Ends.bind (seekWhole_moves h hn h64) ?_ fun t ⟨hend, ht⟩ => ⟨hend, pos, Nat.le_refl _, ht⟩
  rintro _ t ⟨ht, hempty⟩
  split
  · next h0 =>
    rw [h0, Nat.sub_zero] at ht
    have hle := ht.rem_le
    exact ⟨by omega, rfl, ht⟩
  · next h0 =>
    refine Res.Ends.bind (reload_inStep ht) ?_ fun u ⟨hend, hu⟩ => ⟨by omega, _, Nat.le_add_right _ _, hu⟩
    rintro _ u ⟨hu, hrem, -⟩
    have hsum : pos + (n - (seekCalc n s).residual) + t.rem + (seekCalc n s).residual = pos + n := by omega
    refine (hnested _ u hu hrem).mono ?_ ?_ <;> rw [hsum]
    · exact fun _ _ => id
    · exact fun v ⟨hend, q, hq, hv⟩ => ⟨hend, q, by omega, hv⟩

theorem seekFuel_moves {n fuel : Nat} (hfuel : n < fuel) (h64 : n < 2 ^ 64) (hrem : 1 ≤ s.rem) :
    (seekFuel fuel n s).Moves bytes base pos n () := by
  induction fuel generalizing s pos n with
  | zero => omega
  | succ fuel ih =>
    rcases Nat.lt_or_ge s.rem n with hn | hn
    · have hid := seekCalc_identity hn
      exact seekFuel_succ_moves h hn h64 fun q t ht hrem => ih ht (by omega) (by omega) hrem
    · rw [seekFuel, if_pos hn]
      exact ⟨Nat.le_trans (Nat.add_le_add_left hn pos) h.rem_le, rfl, consume_inStep h hn⟩

theorem seek_moves {n : Nat} (h64 : n < 2 ^ 64) : (seek n s).Moves bytes base pos n () := by
  rcases Nat.lt_or_ge s.rem n with hn | hn
  · have hres := seekCalc_residual_lt n s
    have hw := s.params.w_le
    exact seekFuel_succ_moves h hn h64 fun q t ht hrem => seekFuel_moves ht hres (by omega) hrem
  · rw [seek, seekFuel, if_pos hn]
    exact ⟨Nat.le_trans (Nat.add_le_add_left hn pos) h.rem_le, rfl, consume_inStep h hn⟩

end Operations

/-! Commands: the answer is a function of the stream, the position and the command. -/

/-- The bits a read or a seek asks for. -/
def bitsAsked : Instr → Nat
  | .rdu n => n.toNat
  | .rds n => n.toNat
  | .skb n => n.toNat
  | _ => 0

/-- Whether a command is a read or a seek of a legal operand (R170 step 2). -/
def asksLegally : Instr → Bool
  | .rdu n => legalWidth n
  | .rds n => legalWidth n
  | .skb n => legalCount n
  | _ => false

/-- The data of an OK answer at bit `pos` (R171 to R173). -/
def streamData (bytes : List Byte) (base pos : Nat) : Instr → Arg
  | .rdu n => streamWord bytes base pos n.toNat
  | .rds n => sext (streamWord bytes base pos n.toNat) n.toNat
  | _ => 0

/-- The answer to a command that asks for `n` bits and is answered `d` where the stream has them. -/
def moveAnswer (bytes : List Byte) (base pos n : Nat) (d : Arg) : Response :=
  if pos + n ≤ endBit bytes base then ⟨.ok, d⟩ else ⟨.fail, 0⟩

/-- The answer of a reader at bit `pos` to every command but POS and RSY (R170, R176, R178). -/
def streamAnswer (bytes : List Byte) (base pos : Nat) (i : Instr) : Response :=
  if asksLegally i then moveAnswer bytes base pos (bitsAsked i) (streamData bytes base pos i) else ⟨.invalid, 0⟩

theorem streamAnswer_ne_fail {bytes : List Byte} {base pos : Nat} {i : Instr}
    (h : pos + bitsAsked i ≤ endBit bytes base) : (streamAnswer bytes base pos i).status ≠ .fail := by
  rw [streamAnswer, moveAnswer, if_pos h]
  split <;> nofun

/-- The command `i`, begun in `s` at bit `pos`, issues its transactions, is answered `rsp`, and leaves the reader in
step: where the bits it asked for end after an OK, where it stood after an INVALID. -/
def Answers (i : Instr) (r : StepResult) (s : State) (bytes : List Byte) (base pos : Nat) (rsp : Response) : Prop :=
  ∃ (t : State) (ts : List Transaction) (q : Nat), r = .next t ∧
    t.trace = s.trace ++ ts.map .transaction ++ [.response i rsp] ∧ t.InStep bytes base q ∧
    (rsp.status ≠ .fail → q = pos + if rsp.status = .ok then bitsAsked i else 0)

section Commands

variable {s : State} {bytes : List Byte} {base pos : Nat} (h : s.InStep bytes base pos)
include h

theorem respond_answers (i : Instr) : Answers i (respond i .invalid 0 s) s bytes base pos ⟨.invalid, 0⟩ :=
  ⟨_, [], pos, rfl, by simp, h.emit _, fun _ => rfl⟩

omit h in
theorem finish_answers {i : Instr} {r : Res Arg} {d : Arg} (hmoves : r.Moves bytes base pos (bitsAsked i) d)
    (hlegal : r.Legal s) : Answers i (finish i r) s bytes base pos (moveAnswer bytes base pos (bitsAsked i) d) := by
  cases r with
  | ok v t =>
    obtain ⟨hend, rfl, ht⟩ := hmoves
    obtain ⟨ts, e, -⟩ := State.Issues.trace hlegal
    rw [moveAnswer, if_pos hend]
    exact ⟨_, ts, _, rfl, congrArg (· ++ _) e, ht.emit _, fun _ => rfl⟩
  | fail t =>
    obtain ⟨hend, q, -, ht⟩ := hmoves
    obtain ⟨ts, e, -⟩ := State.Issues.trace hlegal
    rw [moveAnswer, if_neg (Nat.not_le_of_lt hend)]
    exact ⟨_, ts, q, rfl, congrArg (· ++ _) e, ht.emit _, fun hne => absurd rfl hne⟩
  | raised | stop | refuse => exact hmoves.elim

theorem runCommand_answers {i : Instr} {legal : Bool} {body : State → Res Arg} {d : Arg}
    (hmoves : legal = true → (body s).Moves bytes base pos (bitsAsked i) d) (hlegal : (body s).Legal s) :
    Answers i (runCommand i legal body s) s bytes base pos
      (if legal then moveAnswer bytes base pos (bitsAsked i) d else ⟨.invalid, 0⟩) := by
  cases legal with
  | true =>
    rw [runCommand_legal h.noFault]
    exact finish_answers (hmoves rfl) hlegal
  | false =>
    rw [runCommand_illegal h.noFault]
    exact respond_answers h i

theorem rejectReserved_answers (i : Instr) : Answers i (rejectReserved i s) s bytes base pos ⟨.invalid, 0⟩ := by
  rw [rejectReserved, unlessFault, if_neg (by simp [h.noFault])]
  exact respond_answers h i

/-- A reader in step answers by the stream, the position and the command. -/
theorem exec_answers {i : Instr} (hport : i.port = .command) (hne : ∀ a, i ≠ .pos a ∧ i ≠ .rsy a) :
    Answers i (exec i s) s bytes base pos (streamAnswer bytes base pos i) := by
  have hwf := h.inv.params
  cases i with
  | rdu n =>
    refine runCommand_answers h (fun hn => ?_) (readBits_legal _ hwf)
    obtain ⟨h1, h64⟩ := of_decide_eq_true hn
    exact readBits_moves h h1 h64
  | rds n =>
    rw [exec_rds]
    refine runCommand_answers h (fun hn => ?_)
      (Res.Legal.bind (readBits_legal _ hwf) fun _ u _ => ok_legal _ rfl rfl rfl)
    obtain ⟨h1, h64⟩ := of_decide_eq_true hn
    exact (readBits_moves h h1 h64).map fun v => sext v n.toNat
  | skb n =>
    rw [exec_skb]
    refine runCommand_answers h (fun _ => ?_)
      (Res.Legal.bind (seekFuel_legal _ n.isLt hwf) fun _ u _ => ok_legal _ rfl rfl rfl)
    exact (seek_moves h n.isLt).map fun _ => 0
  | pos a => exact absurd rfl (hne a).1
  | rsy p => exact absurd rfl (hne p).2
  | rsvd5 a => exact rejectReserved_answers h _
  | rsvd6 a => exact rejectReserved_answers h _
  | rsvd7 a => exact rejectReserved_answers h _
  | srcRd | srcSk => nomatch hport

end Commands

end Sys2Proof.Machine

namespace Sys2Proof

open Machine

/-- Settles O59: both readers give the answer of the stream, which speaks of no parameter. -/
theorem parametersDoNotChangeAnswers : Obligations.ParametersDoNotChangeAnswers := by
  intro s s' bytes base pos i h h' hport hne
  obtain ⟨t, ts, q, e, htrace, ht, hq⟩ := exec_answers h hport hne
  obtain ⟨t', ts', q', e', htrace', ht', hq'⟩ := exec_answers h' hport hne
  refine ⟨t, t', (streamAnswer bytes base pos i).status, (streamAnswer bytes base pos i).data, ts, ts', q, q', e, e',
    htrace, htrace', ht, ht', fun hst => (hq hst).trans (hq' hst).symm, fun n hi => ?_⟩
  have hasked : bitsAsked i = n.toNat := by rcases hi with rfl | rfl | rfl <;> rfl
  refine ⟨fun hok => ?_, fun hend => streamAnswer_ne_fail (by rwa [hasked])⟩
  rw [hq (by rw [hok]; nofun), if_pos hok, hasked]

end Sys2Proof
end

section

/-! The two ports' words and the response word as numbers (30_encoding.md R61, R62, R67 to R69): every number a port
can carry is the encoding of one instruction of that port. -/

namespace Sys2Proof

/-- The command with operation code `op`, 7 or more standing for RSVD7 (R62). -/
def commandOf (op arg : Nat) : Instr :=
  if op = 0 then .rdu (BitVec.ofNat 64 arg)
  else if op = 1 then .rds (BitVec.ofNat 64 arg)
  else if op = 2 then .skb (BitVec.ofNat 64 arg)
  else if op = 3 then .pos (BitVec.ofNat 64 arg)
  else if op = 4 then .rsy (BitVec.ofNat 64 arg)
  else if op = 5 then .rsvd5 (BitVec.ofNat 64 arg)
  else if op = 6 then .rsvd6 (BitVec.ofNat 64 arg)
  else .rsvd7 (BitVec.ofNat 64 arg)

/-- The byte-source request of a kind, 1 or more standing for SRC.SK (R69). -/
def requestOf (kind a : Nat) : Instr :=
  if kind = 0 then .srcRd (BitVec.ofNat 64 a) else .srcSk (BitVec.ofNat 64 a)

theorem commandOf_port (op arg : Nat) : (commandOf op arg).port = .command := by
  unfold commandOf
  split_ifs <;> rfl

theorem requestOf_port (kind a : Nat) : (requestOf kind a).port = .source := by
  unfold requestOf
  split_ifs <;> rfl

theorem commandWord_ofNat_toNat {op arg : Nat} (hop : op < 8) (harg : arg < 2 ^ 64) :
    (commandWord (BitVec.ofNat 3 op) (BitVec.ofNat 64 arg)).toNat = op * 2 ^ 64 + arg := by
  rw [Laws.commandWord_toNat, BitVec.toNat_ofNat, BitVec.toNat_ofNat, Nat.mod_eq_of_lt hop, Nat.mod_eq_of_lt harg]

theorem requestWord_ofNat_toNat {kind a : Nat} (hkind : kind < 2) (ha : a < 2 ^ 64) :
    (requestWord (BitVec.ofNat 1 kind) (BitVec.ofNat 64 a)).toNat = kind * 2 ^ 64 + a := by
  rw [Laws.requestWord_toNat, BitVec.toNat_ofNat, BitVec.toNat_ofNat, Nat.mod_eq_of_lt hkind, Nat.mod_eq_of_lt ha]

/-- The operation code stands above the argument, which is kept whole (R61). -/
theorem encode_commandOf {op arg : Nat} (hop : op < 8) (harg : arg < 2 ^ 64) :
    encode (commandOf op arg) = op * 2 ^ 64 + arg := by
  rw [← commandWord_ofNat_toNat hop harg]
  interval_cases op <;> rfl

/-- The kind bit stands above the operand, which is kept whole (R69). -/
theorem encode_requestOf {kind a : Nat} (hkind : kind < 2) (ha : a < 2 ^ 64) :
    encode (requestOf kind a) = kind * 2 ^ 64 + a := by
  rw [← requestWord_ofNat_toNat hkind ha]
  interval_cases kind <;> rfl

theorem encode_lt (i : Instr) : encode i < 2 ^ i.port.width := by
  cases i <;> exact BitVec.isLt _

/-- The encoding reaches every word of a port. -/
theorem exists_encode_eq {port : Port} {n : Nat} (hn : n < 2 ^ port.width) :
    ∃ i : Instr, i.port = port ∧ encode i = n := by
  have harg : n % 2 ^ 64 < 2 ^ 64 := Nat.mod_lt _ (Nat.two_pow_pos 64)
  have hfields : n / 2 ^ 64 * 2 ^ 64 + n % 2 ^ 64 = n := Nat.div_add_mod' n (2 ^ 64)
  cases port with
  | command =>
    have hop : n / 2 ^ 64 < 8 := Nat.div_lt_of_lt_mul hn
    exact ⟨_, commandOf_port _ _, (encode_commandOf hop harg).trans hfields⟩
  | source =>
    have hkind : n / 2 ^ 64 < 2 := Nat.div_lt_of_lt_mul hn
    exact ⟨_, requestOf_port _ _, (encode_requestOf hkind harg).trans hfields⟩

theorem decodeWord_command {n : Nat} (hn : n < 2 ^ Port.command.width) :
    decodeWord .command n = .instr (decodeCommand (BitVec.ofNat 67 n)) :=
  if_pos hn

theorem decodeWord_source {n : Nat} (hn : n < 2 ^ Port.source.width) :
    decodeWord .source n = .instr (decodeRequest (BitVec.ofNat 65 n)) :=
  if_pos hn

/-- The numbers above a port's words are no instruction. -/
theorem lt_of_decodeWord_eq_instr {port : Port} {n : Nat} {i : Instr} (h : decodeWord port n = .instr i) :
    n < 2 ^ port.width := by
  by_contra hn
  cases port with
  | command => nomatch (if_neg hn).symm.trans h
  | source => nomatch (if_neg hn).symm.trans h

theorem decodeWord_encode {port : Port} {i : Instr} (hport : i.port = port) :
    decodeWord port (encode i) = .instr i := by
  have hlt := encode_lt i
  rw [hport] at hlt
  cases port with
  | command => rw [decodeWord_command hlt, decodeCommand_encode hport]
  | source => rw [decodeWord_source hlt, decodeRequest_encode hport]

open Machine

theorem response_word_toNat (r : Response) : r.word.toNat = r.status.code.toNat * 2 ^ 64 + r.data.toNat := by
  rw [Response.word, BitVec.toNat_append, ← Nat.shiftLeft_add_eq_or_of_lt r.data.isLt, Nat.shiftLeft_eq]

/-- Settles O2: the word fits its port, and each port's decoder reads its own words back. -/
theorem decodeOfEncodeIsIdentity : Obligations.DecodeOfEncodeIsIdentity :=
  fun _ => decodeWord_encode rfl

/-- Settles O3: a number that decodes is the encoding of some instruction of its port, and that one decodes to
itself. -/
theorem encodeOfDecodeIsIdentity : Obligations.EncodeOfDecodeIsIdentity := by
  intro port n i h
  obtain ⟨j, hport, rfl⟩ := exists_encode_eq (lt_of_decodeWord_eq_instr h)
  obtain rfl : j = i := Decoded.instr.inj ((decodeWord_encode hport).symm.trans h)
  exact ⟨hport, rfl⟩

/-- Settles O4: the number is the encoding of the command of that operation code. -/
theorem operationCodes : Obligations.OperationCodes := by
  intro op arg hop harg
  rw [← encode_commandOf hop harg]
  exact decodeWord_encode (commandOf_port op arg)

/-- Settles O1: twelve closed words, evaluated. -/
theorem specWordsDecode : Obligations.SpecWordsDecode := by
  unfold Obligations.SpecWordsDecode
  decide

/-- Settles O5: the status code stands above the data, which it leaves whole. -/
theorem responseWordFields : Obligations.ResponseWordFields := by
  intro r
  rw [response_word_toNat]
  cases r.status <;> rfl

end Sys2Proof
end

section

/-! The bit functions alone (40_bit_extract_and_mask.md): each by the bits of its result and by the number it is. -/

namespace Sys2Proof.Machine

/-! Masks and shifts. -/

theorem getLsbD_eq_false_of_lt {c : Word} {w i : Nat} (hc : c.toNat < 2 ^ w) (hi : w ≤ i) : c.getLsbD i = false :=
  Nat.testBit_lt_two_pow (Nat.lt_of_lt_of_le hc (Nat.pow_le_pow_right (by decide) hi))

theorem selMask_toNat {p : Params} {n : Nat} (hn : n ≤ p.w) : (selMask p.w n).toNat = 2 ^ p.w - 2 ^ (p.w - n) := by
  have hpow : 2 ^ n ≤ 2 ^ 64 := Nat.pow_le_pow_right (by decide) (Nat.le_trans hn p.w_le)
  have hones : (BitVec.ofNat 64 (2 ^ n - 1)).toNat = 2 ^ n - 1 :=
    toNat_ofNat_of_lt (Nat.lt_of_lt_of_le (Nat.sub_lt (Nat.two_pow_pos n) Nat.one_pos) hpow)
  rw [selMask, shlW_toNat p.w_le, hones, Nat.sub_mul, Nat.one_mul, ← Nat.pow_add, Nat.add_sub_cancel' hn]
  exact Nat.mod_eq_of_lt (Nat.sub_lt (Nat.two_pow_pos _) (Nat.two_pow_pos _))

/-- The mask is DROP of `n` ones, which leaves them at the most significant end. -/
theorem getLsbD_selMask {p : Params} {n : Nat} (hn : n ≤ p.w) (i : Nat) :
    (selMask p.w n).getLsbD i = decide (p.w - n ≤ i ∧ i < p.w) := by
  have hw := p.w_le
  rw [show selMask p.w n = dropBits p.w (BitVec.ofNat 64 (2 ^ n - 1)) (p.w - n) from rfl, getLsbD_dropBits,
    BitVec.getLsbD_ofNat, Nat.testBit_two_pow_sub_one, Bool.eq_iff_iff]
  simp only [Bool.and_eq_true, decide_eq_true_eq]
  omega

theorem getLsbD_tailMask {p : Params} {c : Word} {cb : Nat} (hc : c.toNat < 2 ^ p.w) (hcb : cb ≤ p.w) (i : Nat) :
    (tailMask p.w c cb).getLsbD i = (decide (cb ≤ i) && c.getLsbD i) := by
  rw [tailMask, BitVec.getLsbD_and, getLsbD_selMask (Nat.sub_le _ _), Nat.sub_sub_self hcb]
  rcases Nat.lt_or_ge i p.w with hi | hi
  · simp only [hi, and_true, Bool.and_comm]
  · rw [getLsbD_eq_false_of_lt hc hi, Bool.false_and, Bool.and_false]

theorem peek_toNat_eq_div {p : Params} {c : Word} {n : Nat} (hc : c.toNat < 2 ^ p.w) (hn : n ≤ p.w) :
    (peek p.w c n).toNat = c.toNat / 2 ^ (p.w - n) := by
  have hmask := tailMask_toNat p hc (Nat.sub_le p.w n)
  rw [tailMask, Nat.sub_sub_self hn] at hmask
  rw [peek, shrW_toNat, hmask, Nat.mul_div_cancel _ (Nat.two_pow_pos _)]

theorem peek_lt {p : Params} {c : Word} {n : Nat} (hc : c.toNat < 2 ^ p.w) (hn : n ≤ p.w) :
    (peek p.w c n).toNat < 2 ^ n := by
  have hbits := bitsValue_lt (topBits p.w n c)
  rwa [topBits_length, ← peek_toNat hc hn] at hbits

theorem peek_full {p : Params} {c : Word} (hc : c.toNat < 2 ^ p.w) : peek p.w c p.w = c := by
  refine BitVec.eq_of_toNat_eq ?_
  rw [peek_toNat_eq_div hc (Nat.le_refl _), Nat.sub_self, Nat.pow_zero, Nat.div_one]

theorem dropBits_full (p : Params) (c : Word) : dropBits p.w c p.w = 0 := by
  refine BitVec.eq_of_toNat_eq ?_
  rw [dropBits, shlW_toNat p.w_le, Nat.mul_mod_left]
  rfl

theorem dropBits_zero {p : Params} {c : Word} (hc : c.toNat < 2 ^ p.w) : dropBits p.w c 0 = c := by
  refine BitVec.eq_of_toNat_eq ?_
  rw [dropBits, shlW_toNat p.w_le, Nat.pow_zero, Nat.mul_one, Nat.mod_eq_of_lt hc]

/-! Bytes. -/

/-- Byte `j` of a big-endian number stands above the `bs.length - 1 - j` bytes after it. -/
theorem ofBytesBE_div_mod (bs : List Byte) (j : Nat) (h : j < bs.length) :
    ofBytesBE bs / 2 ^ (8 * (bs.length - 1 - j)) % 2 ^ 8 = bs[j].toNat := by
  induction bs generalizing j with
  | nil => nomatch h
  | cons b bs ih =>
    have hlt : ofBytesBE bs < 2 ^ (8 * bs.length) := by rw [Nat.pow_mul]; exact ofBytesBE_lt bs
    rw [ofBytesBE_cons]
    cases j with
    | zero =>
      rw [List.length_cons, Nat.add_sub_cancel, Nat.sub_zero, Nat.mul_comm b.toNat,
        Nat.mul_add_div (Nat.two_pow_pos _), Nat.div_eq_of_lt hlt, Nat.add_zero]
      exact Nat.mod_eq_of_lt b.isLt
    | succ j =>
      have hj : j < bs.length := Nat.lt_of_succ_lt_succ h
      have hsplit : 2 ^ (8 * bs.length) = 2 ^ (8 * (bs.length - 1 - j)) * (2 ^ 8 * 2 ^ (8 * j)) := by
        rw [← Nat.pow_add, ← Nat.pow_add]
        congr 1
        omega
      have hplace : bs.length + 1 - 1 - (j + 1) = bs.length - 1 - j := by omega
      rw [List.getElem_cons_succ, ← ih j hj, List.length_cons, hplace, hsplit, Nat.mul_left_comm,
        Nat.mul_add_div (Nat.two_pow_pos _), Nat.mul_left_comm, Nat.mul_add_mod]

/-- The first slot of a stored line is the most significant byte of its normal form, in either lane order (R83). -/
theorem extractByte_beNorm_lineOfSlots {p : Params} {bs : List Byte} (hbs : bs.length = p.wb) {j : Nat}
    (h : j < bs.length) : (beNorm p (lineOfSlots p bs)).extractLsb' (8 * (p.wb - 1 - j)) 8 = bs[j] := by
  refine BitVec.eq_of_toNat_eq ?_
  rw [BitVec.extractLsb'_toNat, beNorm_lineOfSlots hbs, Nat.shiftRight_eq_div_pow, ← hbs, ofBytesBE_div_mod bs j h]

/-! Joining and widening. -/

theorem combine_lt {hi lo : Arg} {m n : Nat} (hhi : hi.toNat < 2 ^ m) (hlo : lo.toNat < 2 ^ n) (h : m + n ≤ 64) :
    (combine hi lo n).toNat < 2 ^ (m + n) := by
  rw [combine_toNat hhi hlo h]
  calc hi.toNat * 2 ^ n + lo.toNat < (hi.toNat + 1) * 2 ^ n := by rw [Nat.succ_mul]; omega
    _ ≤ 2 ^ m * 2 ^ n := Nat.mul_le_mul_right _ hhi
    _ = 2 ^ (m + n) := (Nat.pow_add 2 m n).symm

/-- The bits that SEXT sets (R86): the ones from position `n` up. -/
theorem allOnes_shiftLeft_eq {n : Nat} (hn : n ≤ 64) :
    BitVec.allOnes 64 <<< n = BitVec.ofNat 64 (2 ^ 64 - 2 ^ n) := by
  have hpow : 2 ^ n ≤ 2 ^ 64 := Nat.pow_le_pow_right (by decide) hn
  have hpos := Nat.two_pow_pos n
  refine BitVec.eq_of_toNat_eq ?_
  rw [toNat_ofNat_of_lt (by omega), BitVec.toNat_shiftLeft, BitVec.toNat_allOnes, Nat.shiftLeft_eq]
  have hsum : (2 ^ 64 - 1) * 2 ^ n = 2 ^ 64 - 2 ^ n + 2 ^ 64 * (2 ^ n - 1) := by omega
  rw [hsum, Nat.add_mul_mod_self_left, Nat.mod_eq_of_lt (by omega)]

/-- SEXT is the sign extension of the `n`-bit word `v` to 64 bits. -/
theorem sext_eq_signExtend {v : Arg} {n : Nat} (hpos : 1 ≤ n) (hv : v.toNat < 2 ^ n) :
    sext v n = (v.setWidth n).signExtend 64 := by
  have hmsb : (v.setWidth n).msb = v.getLsbD (n - 1) := by
    rw [BitVec.msb_eq_getLsbD_last, BitVec.getLsbD_setWidth, decide_eq_true (by omega), Bool.true_and]
  refine BitVec.eq_of_getLsbD_eq fun i hi => ?_
  rw [BitVec.getLsbD_signExtend, BitVec.getLsbD_setWidth, hmsb, decide_eq_true hi, Bool.true_and, sext]
  rcases Nat.lt_or_ge i n with hin | hin
  · split <;> simp [hin]
  · rw [if_neg (Nat.not_lt_of_le hin)]
    cases hsign : v.getLsbD (n - 1) with
    | false => exact getLsbD_eq_false_of_lt hv hin
    | true =>
      have hshift : i - n < 64 := Nat.lt_of_le_of_lt (Nat.sub_le i n) hi
      rw [if_pos rfl, BitVec.getLsbD_or, BitVec.getLsbD_shiftLeft, BitVec.getLsbD_allOnes, decide_eq_true hi,
        decide_eq_true hshift, decide_eq_false (Nat.not_lt_of_le hin)]
      exact Bool.or_true _

theorem sext_toInt {v : Arg} {n : Nat} (hpos : 1 ≤ n) (hn : n ≤ 64) (hv : v.toNat < 2 ^ n) :
    (sext v n).toInt = if v.toNat < 2 ^ (n - 1) then (v.toNat : Int) else (v.toNat : Int) - 2 ^ n := by
  have hhalf : 2 ^ n = 2 * 2 ^ (n - 1) := by rw [← Nat.pow_succ', Nat.succ_eq_add_one, Nat.sub_add_cancel hpos]
  have hsign : 2 * v.toNat < 2 ^ n ↔ v.toNat < 2 ^ (n - 1) := by omega
  rw [sext_eq_signExtend hpos hv, BitVec.toInt_signExtend_of_le hn, BitVec.toInt_eq_toNat_cond,
    BitVec.toNat_setWidth, Nat.mod_eq_of_lt hv]
  simp only [hsign, Nat.cast_pow, Nat.cast_ofNat]

end Sys2Proof.Machine

namespace Sys2Proof

open Machine

/-- Settles O6: the mask by its number and by its bits. -/
theorem selectionMaskIsTheTopBits : Obligations.SelectionMaskIsTheTopBits :=
  fun _ _ hn => ⟨selMask_toNat hn, getLsbD_selMask hn⟩

/-- Settles O7: the masked word is a multiple of the divisor, so the shift loses nothing. -/
theorem peekReturnsTheTopBits : Obligations.PeekReturnsTheTopBits :=
  fun _ _ _ hc _ hn => ⟨peek_toNat_eq_div hc hn, peek_lt hc hn, peek_full hc⟩

/-- Settles O8: bit by bit, with a full-width and an empty drop. -/
theorem dropShiftsZerosIn : Obligations.DropShiftsZerosIn := by
  intro p c n hc hn
  refine ⟨fun i => ?_, dropBits_full p c, dropBits_zero hc⟩
  rw [getLsbD_dropBits, ← Bool.and_assoc, Bool.and_comm (decide (i < p.w)), ← Bool.decide_and]

/-- Settles O9: the normal form of a stored line is the number of its slots, the earliest the most significant. -/
theorem normalisationUndoesTheLaneOrder : Obligations.NormalisationUndoesTheLaneOrder :=
  fun _ _ hbs => ⟨beNorm_lt (lineOfSlots_lt hbs), fun _ => extractByte_beNorm_lineOfSlots hbs, fun _ _ => rfl⟩

/-- Settles O10: the mask is the selection mask of the `W - cb` bits kept. -/
theorem tailMaskClearsTheConsumedBits : Obligations.TailMaskClearsTheConsumedBits :=
  fun _ _ _ => getLsbD_tailMask

/-- Settles O11: the shifted first part fits and leaves room for the second. -/
theorem combineJoinsTwoParts : Obligations.CombineJoinsTwoParts :=
  fun _ _ _ _ hhi hlo h => ⟨combine_toNat hhi hlo h, combine_lt hhi hlo h⟩

/-- Settles O12: by the sign bit, and as the signed number that sign extension keeps. -/
theorem signExtensionIsTwosComplement : Obligations.SignExtensionIsTwosComplement := by
  intro v n hpos hn hv
  refine ⟨fun hclear => ?_, fun hset => ?_, sext_toInt hpos hn hv⟩
  · rw [sext, hclear, if_neg Bool.false_ne_true]
  · rw [sext, if_pos hset, allOnes_shiftLeft_eq hn]

end Sys2Proof
end

section

/-! Reads of bits that are there (41_l1_register.md R104, R109, 44_commands.md R171, R172, R177): inside the stream, and
among the bits the reader holds, where no transaction is issued. -/

namespace Sys2Proof.Machine

/-! A read whose width is legal is its execution (44_commands.md R170). -/

theorem legalWidth_of_le {n : Arg} (hpos : 1 ≤ n.toNat) (hn : n.toNat ≤ 64) : legalWidth n = true :=
  decide_eq_true ⟨hpos, hn⟩

theorem exec_rdu_of_legal {s : State} {n : Arg} (hf : s.fault = false) (hpos : 1 ≤ n.toNat) (hn : n.toNat ≤ 64) :
    exec (.rdu n) s = finish (.rdu n) (readBits n.toNat s) := by
  rw [exec_rdu, legalWidth_of_le hpos hn, runCommand_legal hf]

theorem exec_rds_of_legal {s : State} {n : Arg} (hf : s.fault = false) (hpos : 1 ≤ n.toNat) (hn : n.toNat ≤ 64) :
    exec (.rds n) s = finish (.rds n) ((readBits n.toNat s).bind fun v t => .ok (sext v n.toNat) t) := by
  rw [exec_rds, legalWidth_of_le hpos hn, runCommand_legal hf]

/-! Inside the stream (41_l1_register.md R109). -/

/-- A command whose execution moves inside the stream is answered OK. -/
theorem finish_of_moves {i : Instr} {r : Res Arg} {s : State} {bytes : List Byte} {base pos n : Nat} {d : Arg}
    (hmoves : r.Moves bytes base pos n d) (hlegal : r.Legal s) (hend : pos + n ≤ endBit bytes base) :
    ∃ (t : State) (ts : List Transaction), finish i r = .next t ∧ t.InStep bytes base (pos + n) ∧
      t.trace = s.trace ++ ts.map .transaction ++ [answer i .ok d] ∧ t.params = s.params ∧ t.inbox = s.inbox := by
  cases r with
  | ok v t =>
    obtain ⟨-, rfl, ht⟩ := hmoves
    obtain ⟨hparams, hinbox, ts, htrace, -⟩ : s.Issues t := hlegal
    exact ⟨_, ts, finish_ok i v t, ht.emit _, congrArg (· ++ _) htrace, hparams, hinbox⟩
  | fail t => exact absurd hend (Nat.not_le_of_lt hmoves.1)
  | raised | stop | refuse => exact hmoves.elim

/-! The fast path (41_l1_register.md R104). -/

/-- PEEK as the quotient it is (40_bit_extract_and_mask.md R81). -/
theorem peek_eq_ofNat_div {p : Params} {c : Word} {n : Nat} (hc : c.toNat < 2 ^ p.w) (hn : n ≤ p.w) :
    peek p.w c n = BitVec.ofNat 64 (c.toNat / 2 ^ (p.w - n)) := by
  rw [← peek_toNat_eq_div hc hn, BitVec.ofNat_toNat, BitVec.setWidth_eq]

theorem rem_le_w (s : State) : s.rem ≤ s.params.w := Nat.sub_le _ _

/-! Bits the reader holds (42_l2_buffer.md R133). -/

/-- Bits as a word, the most significant first. -/
def bitsWord (bits : List Bool) : Word := BitVec.ofNat 64 (bitsValue bits)

theorem bitsWord_toNat {bits : List Bool} (h : bits.length ≤ 64) : (bitsWord bits).toNat = bitsValue bits :=
  toNat_ofNat_of_lt (Nat.lt_of_lt_of_le (bitsValue_lt bits) (Nat.pow_le_pow_right (by decide) h))

/-- COMBINE appends bits (40_bit_extract_and_mask.md R85). -/
theorem combine_bitsWord {hi lo : List Bool} (h : hi.length + lo.length ≤ 64) :
    combine (bitsWord hi) (bitsWord lo) lo.length = bitsWord (hi ++ lo) := by
  have hhi : (bitsWord hi).toNat = bitsValue hi := bitsWord_toNat (by omega)
  have hlo : (bitsWord lo).toNat = bitsValue lo := bitsWord_toNat (by omega)
  refine BitVec.eq_of_toNat_eq ?_
  rw [combine_toNat (hhi ▸ bitsValue_lt hi) (hlo ▸ bitsValue_lt lo) h, hhi, hlo, ← bitsValue_append]
  exact (bitsWord_toNat (by rwa [List.length_append])).symm

theorem peek_eq_bitsWord {s : State} (h : s.Inv) {n : Nat} (hn : n ≤ s.rem) :
    peek s.params.w s.cache n = bitsWord (s.heldBits.take n) := by
  have hw := s.params.w_le
  have hrem := rem_le_w s
  have hheld : s.heldBits.take n = topBits s.params.w n s.cache := by
    rw [heldBits_eq, List.take_append_of_le_length (by simpa using hn), take_topBits hn]
  refine BitVec.eq_of_toNat_eq ?_
  rw [hheld, bitsWord_toNat (by rw [topBits_length]; omega), peek_toNat h.cache (by omega)]

/-- From `s` to `t` the reader lets go of the first `n` bits it holds, and nothing but the register and `nextLine`
changes. -/
structure State.Passes (s t : State) (n : Nat) : Prop where
  inv   : t.Inv
  held  : t.heldBits = s.heldBits.drop n
  frame : t = { s with cache := t.cache, consumedBits := t.consumedBits, nextLine := t.nextLine }

theorem State.Passes.trans {s t u : State} {m n : Nat} (h : s.Passes t m) (h' : t.Passes u n) :
    s.Passes u (m + n) where
  inv := h'.inv
  held := by rw [h'.held, h.held, List.drop_drop]
  frame := by rw [h'.frame, h.frame]

theorem consume_passes {s : State} (h : s.Inv) {n : Nat} (hn : n ≤ s.rem) : s.Passes (consume n s) n :=
  ⟨consume_inv h hn, heldBits_consume hn, rfl⟩

theorem l2Pop_passes {s : State} (h : s.Inv) (hn : s.nextLine < s.params.lineCount) :
    s.Passes (l2Pop s) s.rem where
  inv := l2Pop_inv h hn
  held := by
    rw [heldBits_l2Pop (by rwa [h.memory.1]), heldBits_eq, List.drop_left' (topBits_length _ _ _)]
  frame := rfl

/-- A bit that is held, but not in the register, is in a line not yet promoted. -/
theorem line_left {s : State} (h : s.Inv) {n : Nat} (hn : s.rem < n) (hheld : n ≤ s.heldBits.length) :
    s.nextLine < s.params.lineCount := by
  rw [heldBits_length h] at hheld
  by_contra hline
  rw [Nat.sub_eq_zero_of_le (Nat.le_of_not_lt hline), Nat.mul_zero] at hheld
  omega

/-- The operation ends ok with the first `n` bits that `s` holds, which alone it takes. -/
def Res.Delivers (r : Res Word) (s : State) (n : Nat) : Prop :=
  ∃ t, r = .ok (bitsWord (s.heldBits.take n)) t ∧ s.Passes t n

/-- Bits let go of and the bits delivered after them, joined by COMBINE. -/
theorem State.Passes.combine {r : Res Word} {s t : State} {m n : Nat} (h : s.Passes t m) (hr : r.Delivers t n)
    (h64 : m + n ≤ 64) (hheld : m + n ≤ s.heldBits.length) :
    (r.bind fun lo u => .ok (Machine.combine (bitsWord (s.heldBits.take m)) lo n) u).Delivers s (m + n) := by
  obtain ⟨u, rfl, hu⟩ := hr
  have hhi : (s.heldBits.take m).length = m := List.length_take_of_le (by omega)
  have hlo : ((s.heldBits.drop m).take n).length = n :=
    List.length_take_of_le (by rw [List.length_drop]; omega)
  have hjoin := combine_bitsWord (hi := s.heldBits.take m) (lo := (s.heldBits.drop m).take n) (by omega)
  rw [hlo, ← List.take_add] at hjoin
  exact ⟨u, by rw [bind_ok, h.held, hjoin], h.trans hu⟩

theorem takeBits_delivers {s : State} (h : s.Inv) {n : Nat} (hn : n ≤ s.rem) : (takeBits n s).Delivers s n :=
  ⟨_, by rw [takeBits, peek_eq_bitsWord h hn], consume_passes h hn⟩

/-- Beyond the register a read of at most 32 bits promotes one line, which covers what is missing (41_l1_register.md
R103, R105). -/
theorem read32_beyond_delivers {s : State} (h : s.Inv) {n : Nat} (hn : s.rem < n) (hle : n ≤ 32)
    (hheld : n ≤ s.heldBits.length) : (read32 n s).Delivers s n := by
  have hw := s.params.le_w
  have hline := line_left h hn hheld
  have hpop := l2Pop_passes h hline
  unfold read32 ensureBits
  split
  · next hempty =>
    have hrem : s.rem = 0 := by rw [State.rem, hempty, Nat.sub_self]
    obtain ⟨t, e, ht⟩ := takeBits_delivers hpop.inv (n := n) (by rw [rem_l2Pop]; omega)
    rw [hrem] at hpop
    rw [reload_pop hline, bind_ok, if_pos (by rw [rem_l2Pop]; omega), e, hpop.held, List.drop_zero]
    exact ⟨t, rfl, by simpa using hpop.trans ht⟩
  · have hsum : s.rem + (n - s.rem) = n := by omega
    have hparts := hpop.combine (takeBits_delivers hpop.inv (n := n - s.rem) (by rw [rem_l2Pop]; omega)) (by omega)
      (by omega)
    rw [bind_ok, if_neg (by omega), straddle, reload_pop hline, bind_ok, if_neg (by rw [rem_l2Pop]; omega),
      peek_eq_bitsWord h (Nat.le_refl _)]
    rwa [hsum] at hparts

theorem read32_delivers {s : State} (h : s.Inv) {n : Nat} (hpos : 1 ≤ n) (hle : n ≤ 32)
    (hheld : n ≤ s.heldBits.length) : (read32 n s).Delivers s n := by
  rcases Nat.lt_or_ge s.rem n with hn | hn
  · exact read32_beyond_delivers h hn hle hheld
  · rw [read32_of_le hpos hn]
    exact takeBits_delivers h hn

/-- A read of bits held, where wide in two parts (44_commands.md R177). -/
theorem readBits_delivers {s : State} (h : s.Inv) {n : Nat} (hpos : 1 ≤ n) (hle : n ≤ 64)
    (hheld : n ≤ s.heldBits.length) : (readBits n s).Delivers s n := by
  rcases Nat.lt_or_ge 32 n with hwide | hnarrow
  · have hsum : n - 32 + 32 = n := by omega
    obtain ⟨t, e, ht⟩ := read32_delivers h (n := n - 32) (by omega) (by omega) (by omega)
    have hlow := read32_delivers ht.inv (n := 32) (by omega) (by omega) (by rw [ht.held, List.length_drop]; omega)
    have hparts := ht.combine hlow (by omega) (by omega)
    rw [readBits_wide hwide, e, bind_ok]
    rwa [hsum] at hparts
  · rw [readBits_narrow hnarrow]
    exact read32_delivers h hpos hnarrow hheld

/-- The derived position moves on by the bits let go of (10_state.md R32). -/
theorem State.Passes.logicalBitPos {s t : State} {n : Nat} (h : s.Passes t n) (hs : s.Inv) (hf : s.fault = false)
    (hn : n ≤ s.heldBits.length) : t.logicalBitPos = s.logicalBitPos + n := by
  have hfault : t.fault = false := by rw [h.frame]; exact hf
  have hcursor : t.currentBytePos = s.currentBytePos := by rw [h.frame]
  rw [logicalBitPos_eq hs hf, logicalBitPos_eq h.inv hfault, hcursor, h.held, List.length_drop]
  omega

end Sys2Proof.Machine

namespace Sys2Proof

open Machine

/-- Settles O54: a read of a reader in step moves by its width with the stream's bits as its value. -/
theorem readReturnsTheStream : Obligations.ReadReturnsTheStream := by
  intro s bytes base pos n h hpos hn hend
  rw [exec_rdu_of_legal h.noFault hpos hn]
  exact finish_of_moves (readBits_moves h hpos hn) (readBits_legal _ h.inv.params) hend

/-- Settles O41: TAKE is the whole execution. -/
theorem readFromTheRegister : Obligations.ReadFromTheRegister := by
  intro s n h hf hpos hle hn
  rw [exec_rdu_of_legal hf hpos (by omega), readBits_narrow hle, read32_of_le hpos hn, takeBits, finish_ok,
    peek_eq_ofNat_div h.cache (Nat.le_trans hn (rem_le_w s))]
  rfl

/-- Settles O42: the read delivers the next bits held, and RDS extends what RDU answers. -/
theorem bufferedReadFrame : Obligations.BufferedReadFrame := by
  intro s n h hf hpos hn hheld
  obtain ⟨t, e, ht⟩ := readBits_delivers h hpos hn hheld
  refine ⟨t, ht.held, ht.logicalBitPos h hf hheld, ht.frame, ?_, ?_⟩
  · rw [exec_rdu_of_legal hf hpos hn, e, finish_ok, bitsWord]
  · rw [exec_rds_of_legal hf hpos hn, e, bind_ok, finish_ok, bitsWord]

end Sys2Proof
end

section

/-! Straddling reads that fail (41_l1_register.md R105, R106): what a RELOAD that fails leaves of the reader. -/

namespace Sys2Proof.Machine

/-! The tracked cursor after a transaction (20_memory.md R54). -/

theorem srcRead_cursor (max : Arg) (s : State) :
    (srcRead max s).Post
      (fun b t => ∃ src trace, t = { s with
        source := src, currentBytePos := s.currentBytePos + BitVec.ofNat 64 b.length, trace := trace })
      (fun _ => False) (fun _ => False) := by
  rcases srcRead_cases max s with ⟨b, src, -, -, e⟩ | ⟨-, e⟩ | ⟨b, src, -, -, e⟩ <;> rw [e]
  · exact ⟨src, _, rfl⟩
  · trivial
  · trivial

theorem unseek_cursor {n : Nat} (hn : n < 2 ^ 63) (s : State) :
    (unseek n s).Post
      (fun _ t => ∃ src trace, t = { s with
        source := src, currentBytePos := s.currentBytePos + -BitVec.ofNat 64 n, trace := trace })
      (fun _ => False) (fun _ => True) := by
  rcases Nat.eq_zero_or_pos n with rfl | hpos
  · exact ⟨s.source, s.trace, by simp⟩
  · rcases unseek_cases hpos hn s with ⟨src, -, e⟩ | ⟨src, -, e⟩ | ⟨-, e⟩ <;> rw [e]
    · exact ⟨src, _, rfl⟩
    · trivial
    · trivial

/-! A RELOAD that fails (42_l2_buffer.md R120, R127, R131): what its bulk read brought is handed back. -/

/-- `t` is `s` with L2 exhausted: but for the buffer and the byte source the reader is as it was. -/
def State.Exhausts (s t : State) : Prop :=
  ∃ lines unused src trace, t = { s with
    lines := lines, nextLine := s.params.lineCount, unusedLines := unused, source := src, trace := trace }

theorem l2Refill_fail (s : State) : (l2Refill s).Post (fun _ _ => True) s.Exhausts (fun _ => True) := by
  have hwb := s.params.wb_le
  have hpos := s.params.le_wb
  rcases l2Refill_cases s with ⟨b, s1, e, h⟩ | ⟨f, e⟩ | ⟨r, e⟩
  · have hread := srcRead_cursor (BitVec.ofNat 64 s.params.l2Bytes) s
    rw [e, post_ok] at hread
    obtain ⟨src, trace, rfl⟩ := hread
    rcases h with ⟨-, e2⟩ | ⟨-, -, e2⟩ | ⟨-, hlt, e2⟩ <;> rw [e2]
    · trivial
    · have hmod := Nat.mod_lt b.length (show 0 < s.params.wb by omega)
      exact (unseek_cursor (by omega) _).bind (fun _ _ _ => trivial) (fun _ => False.elim) fun _ => id
    · refine (unseek_cursor (by omega) _).bind ?_ (fun _ => False.elim) fun _ => id
      rintro _ _ ⟨src2, trace2, rfl⟩
      have hback : s.currentBytePos + BitVec.ofNat 64 b.length + -BitVec.ofNat 64 b.length = s.currentBytePos := by
        rw [BitVec.add_assoc, BitVec.add_right_neg, BitVec.add_zero]
      exact ⟨writeLines s.params b s.lines, s.params.lineCount, src2, trace2,
        by simp [setIndices, fillBuffer, hback]⟩
  · rw [e]; trivial
  · rw [e]; trivial

theorem l1TailLoad_fail (s : State) :
    (l1TailLoad s).Post (fun _ _ => True)
      (fun t => ∃ src trace, t = { s with source := src, trace := trace }) (fun _ => False) := by
  rcases l1TailLoad_cases s with ⟨b, s1, e, -, ⟨h0, e2⟩ | ⟨-, e2⟩⟩ | ⟨f, e⟩ | ⟨r, e⟩
  · have hread := srcRead_cursor (BitVec.ofNat 64 s.params.wb) s
    rw [e, post_ok] at hread
    obtain ⟨src, trace, rfl⟩ := hread
    rw [e2]
    exact ⟨src, trace, by simp [h0]⟩
  · rw [e2]; trivial
  · rw [e]; trivial
  · rw [e]; trivial

/-- A RELOAD fails only where no line was left, and leaves none. -/
theorem reload_fail {s t : State} (h : reload s = .fail t) : s.params.lineCount ≤ s.nextLine ∧ s.Exhausts t := by
  rcases Nat.lt_or_ge s.nextLine s.params.lineCount with hline | hline
  · rw [reload_pop hline] at h
    nomatch h
  · refine ⟨hline, ?_⟩
    have hrefill := l2Refill_fail s
    rw [reload_refill hline] at h
    cases hr : l2Refill s with
    | fail u =>
      have htail := l1TailLoad_fail u
      rw [hr] at h hrefill
      rw [show l1TailLoad u = .fail t from h] at htail
      obtain ⟨lines, unused, _, _, rfl⟩ := hrefill
      obtain ⟨src, trace, rfl⟩ := htail
      exact ⟨lines, unused, src, trace, rfl⟩
    | ok | raised | stop | refuse => rw [hr] at h; nomatch h

/-- With no line left, neither before nor after, the register's bits are all that is held. -/
theorem State.Exhausts.heldBits {s t : State} (h : s.Exhausts t) (hs : s.Inv) (ht : t.Inv)
    (hline : s.params.lineCount ≤ s.nextLine) : t.heldBits = s.heldBits := by
  obtain ⟨lines, unused, src, trace, rfl⟩ := h
  rw [heldBits_of_exhausted ht.memory.1.le, heldBits_of_exhausted (hs.memory.1.le.trans hline)]
  rfl

/-- A straddling read of at most 32 bits is its straddling path (41_l1_register.md R105). -/
theorem exec_rdu_straddle {s : State} {n : Arg} (hf : s.fault = false) (hrem : 1 ≤ s.rem) (hn : s.rem < n.toNat)
    (hle : n.toNat ≤ 32) : exec (.rdu n) s = finish (.rdu n) (straddle n.toNat s) := by
  have hheld : s.consumedBits ≠ s.params.w := by simp only [State.rem] at hrem; omega
  rw [exec_rdu_of_legal hf (by omega) (by omega), readBits_narrow hle, read32, ensureBits, if_neg hheld, bind_ok,
    if_neg (Nat.not_le_of_lt hn)]

end Sys2Proof.Machine

namespace Sys2Proof

open Machine

/-- Settles O43: a failed RELOAD leaves what is held as it was; after a RELOAD that brings too little nothing of the
new register is taken. -/
theorem straddlingReadFailures : Obligations.StraddlingReadFailures := by
  intro s u n h hf hrem hn hle
  rw [exec_rdu_straddle hf hrem hn hle, straddle]
  refine ⟨fun e => ?_, fun e hshort => by rw [e, bind_ok, if_pos hshort, finish_fail]⟩
  have hpost := reload_post s
  rw [e] at hpost
  obtain ⟨-, hfault, hinv⟩ := hpost
  obtain ⟨hline, hexhausts⟩ := reload_fail e
  have hnext : s.nextLine = s.params.lineCount := Nat.le_antisymm (h.next hf) hline
  have hheld := hexhausts.heldBits h (hinv h) hline
  have hpos : u.logicalBitPos = 8 * u.currentBytePos.toNat - (s.heldBits.length : Int) :=
    hheld ▸ logicalBitPos_eq (hinv h) (hfault.trans hf)
  obtain ⟨lines, unused, src, trace, rfl⟩ := hexhausts
  exact ⟨by rw [e, bind_fail, finish_fail], rfl, rfl, hnext.symm, rfl, hheld,
    hpos.trans (logicalBitPos_eq h hf).symm⟩

end Sys2Proof
end

section

/-! The L2 buffer by byte address (20_memory.md R45, 42_l2_buffer.md R122, R125), and RELOAD with no line left by what
its bulk read brings: a full, a partial or a degenerate fill, the end of the stream (R123 to R133). -/

namespace Sys2Proof.Machine

/-! The bytes of a buffer. -/

section BufferByte

variable {p : Params} {a k : Nat}

theorem bufferByte_cons_of_lt (l : Word) (ls : List Word) (ha : a < p.wb) :
    bufferByte p (l :: ls) a = (lineSlots p l).getD a 0 := by
  rw [bufferByte, Nat.div_eq_of_lt ha, Nat.mod_eq_of_lt ha, List.getD_cons_zero]

theorem bufferByte_drop (p : Params) (k : Nat) (ls : List Word) (a : Nat) :
    bufferByte p (ls.drop k) a = bufferByte p ls (k * p.wb + a) := by
  have hpos : 0 < p.wb := Nat.lt_of_lt_of_le (by decide) p.le_wb
  have hline : (ls.drop k).getD (a / p.wb) 0 = ls.getD (a / p.wb + k) 0 := by
    rw [List.getD_eq_getElem?_getD, List.getElem?_drop, Nat.add_comm, ← List.getD_eq_getElem?_getD]
  rw [bufferByte, bufferByte, Nat.add_comm (k * p.wb), Nat.add_mul_div_right _ _ hpos, Nat.add_mul_mod_self_right,
    hline]

theorem bufferByte_cons_of_le (l : Word) (ls : List Word) (ha : p.wb ≤ a) :
    bufferByte p (l :: ls) a = bufferByte p ls (a - p.wb) := by
  have hdrop := bufferByte_drop p 1 (l :: ls) (a - p.wb)
  rw [Nat.one_mul, Nat.add_sub_cancel' ha] at hdrop
  exact hdrop.symm

theorem bufferByte_take (ls : List Word) (ha : a < k * p.wb) : bufferByte p (ls.take k) a = bufferByte p ls a := by
  have hk : a / p.wb < k := Nat.div_lt_of_lt_mul (Nat.mul_comm k p.wb ▸ ha)
  have hline : (ls.take k).getD (a / p.wb) 0 = ls.getD (a / p.wb) 0 := by
    rw [List.getD_eq_getElem?_getD, List.getElem?_take_of_lt hk, ← List.getD_eq_getElem?_getD]
  rw [bufferByte, bufferByte, hline]

/-- The slots of a line after a write: the bytes written, then the old ones (R122). -/
theorem getD_take_append_drop {α : Type} {n i : Nat} (hi : i < n) (xs ys : List α) (d : α) :
    (xs.take n ++ ys.drop (xs.take n).length).getD i d = xs.getD i (ys.getD i d) := by
  simp only [List.getD_eq_getElem?_getD]
  rcases Nat.lt_or_ge i xs.length with hlt | hge
  · rw [List.getElem?_append_left (by rw [List.length_take]; omega), List.getElem?_take_of_lt hi,
      List.getElem?_eq_getElem hlt, Option.getD_some, Option.getD_some]
  · rw [List.getElem?_append_right (by rw [List.length_take]; omega), List.getElem?_drop, List.getElem?_eq_none hge,
      Nat.add_sub_cancel' (by rw [List.length_take]; omega), Option.getD_none]

/-- The buffer after a write holds the bytes written at the addresses 0, 1, .., and its old bytes after them. -/
theorem bufferByte_writeLines {b : List Byte} {ls : List Word} (hb : b.length ≤ ls.length * p.wb) (a : Nat) :
    bufferByte p (writeLines p b ls) a = b.getD a (bufferByte p ls a) := by
  induction ls generalizing b a with
  | nil =>
    obtain rfl : b = [] := List.eq_nil_of_length_eq_zero (by simpa using hb)
    rfl
  | cons l ls ih =>
    rw [writeLines]
    split
    · next h0 =>
      obtain rfl : b = [] := List.eq_nil_of_length_eq_zero h0
      rfl
    · rcases Nat.lt_or_ge a p.wb with hfirst | hrest
      · rw [bufferByte_cons_of_lt _ _ hfirst, bufferByte_cons_of_lt _ _ hfirst,
          lineSlots_lineOfSlots (slots_length p b l), getD_take_append_drop hfirst]
      · rw [List.length_cons, Nat.succ_mul] at hb
        rw [bufferByte_cons_of_le _ _ hrest, bufferByte_cons_of_le _ _ hrest, ih (by rw [List.length_drop]; omega)]
        simp only [List.getD_eq_getElem?_getD, List.getElem?_drop, Nat.add_sub_cancel' hrest]

/-- The lines not yet promoted after a partial fill of `k` words hold the first `k` words of the buffer (R125). -/
theorem bufferByte_packed (free : Nat) {ls : List Word} (hlen : ls.length = p.lineCount) (hk : k ≤ p.lineCount)
    (ha : a < k * p.wb) :
    bufferByte p (forgetLines p (p.lineCount - k) free (moveLines (p.lineCount - k) k ls))
      ((p.lineCount - k) * p.wb + a) = bufferByte p ls a := by
  rw [← bufferByte_drop, drop_packed free hlen hk, bufferByte_take ls ha]

/-- The first line of the lines not yet promoted after a partial fill. -/
theorem getD_packed (free : Nat) {ls : List Word} (hlen : ls.length = p.lineCount) (hk : k ≤ p.lineCount)
    (hpos : 1 ≤ k) :
    (forgetLines p (p.lineCount - k) free (moveLines (p.lineCount - k) k ls)).getD (p.lineCount - k) 0 =
      ls.getD 0 0 := by
  have hdrop := congrArg (·.getD 0 0) (drop_packed free hlen hk)
  simpa only [List.getD_eq_getElem?_getD, List.getElem?_drop, Nat.add_zero, List.getElem?_take_of_lt hpos] using hdrop

/-- The first word of a bulk read, as the register it is promoted to (R83, R121). -/
theorem beNorm_writeLines_head {b : List Byte} {ls : List Word} (hb : p.wb ≤ b.length) (hls : 1 ≤ ls.length) :
    (beNorm p ((writeLines p b ls).getD 0 0)).toNat = ofBytesBE (b.take p.wb) := by
  cases ls with
  | nil => nomatch hls
  | cons l ls =>
    rw [writeLines_cons_of_le l ls hb, List.getD_cons_zero, beNorm_lineOfSlots (List.length_take_of_le hb)]

end BufferByte

theorem writeLines_nil (p : Params) (ls : List Word) : writeLines p [] ls = ls := by
  cases ls <;> rfl

/-- A bulk read of legal length fits the buffer, which holds `L2_BYTES` bytes (R7). -/
theorem length_le_mul_wb_of_le_l2Bytes {p : Params} {ls : List Word} (hwf : p.wf) (hls : Memory.wf p ls) {b : List Byte}
    (hb : b.length ≤ p.l2Bytes) : b.length ≤ ls.length * p.wb := by
  rwa [hls.1, ← Params.l2Bytes_eq hwf]

/-! An un-seek, with what it leaves in the trace (R126, R127, R135). -/

/-- What an accepted un-seek by `t` bytes adds to the trace; none is issued for `t = 0`. -/
def unseekEvents (t : Nat) : List Event :=
  if t = 0 then [] else [.transaction (.seek (-(BitVec.ofNat 64 t)) true)]

/-- The reader after an accepted un-seek by `t` bytes, which leaves the byte source `src`. -/
def handBack (t : Nat) (src : ByteSource) (s : State) : State :=
  { s with
    source := src, currentBytePos := s.currentBytePos + -(BitVec.ofNat 64 t), trace := s.trace ++ unseekEvents t }

theorem unseek_eq_handBack {t : Nat} {s : State} {src : ByteSource} (ht : t < 2 ^ 63)
    (h : if t = 0 then src = s.source else s.source.seek (-(t : Int)) = some (true, src)) :
    unseek t s = .ok () (handBack t src s) := by
  by_cases h0 : t = 0
  · subst h0
    obtain rfl : src = s.source := by simpa using h
    simp [handBack, unseekEvents]
  · rw [if_neg h0, ← toInt_neg_ofNat ht] at h
    rw [unseek, if_neg h0, srcSeek_of_seek h, handBack, unseekEvents, if_neg h0]
    rfl

/-- Of `n` bytes read `t` are handed back: the tracked cursor has moved by the others (20_memory.md R54). -/
theorem add_ofNat_add_neg_ofNat (x : BitVec 64) {n t : Nat} (h : t ≤ n) :
    x + BitVec.ofNat 64 n + -(BitVec.ofNat 64 t) = x + BitVec.ofNat 64 (n - t) := by
  have hsplit : BitVec.ofNat 64 n = BitVec.ofNat 64 (n - t) + BitVec.ofNat 64 t := by
    rw [← BitVec.ofNat_add, Nat.sub_add_cancel h]
  rw [hsplit, ← BitVec.add_assoc, BitVec.add_assoc _ (BitVec.ofNat 64 t), BitVec.add_right_neg, BitVec.add_zero]

/-! RELOAD with no line left, each fill by the state it ends in. -/

/-- The reader after a tail read that brought `b` and left the byte source `src` (R130). -/
def afterTail (b : List Byte) (src : ByteSource) (s : State) : State :=
  { s with source := src, currentBytePos := s.currentBytePos + BitVec.ofNat 64 b.length }.log
    (.read (BitVec.ofNat 64 s.params.wb) b)

/-- How a tail load ends that brought `b`: failing where this is no byte (R131, R132). -/
def endTail (b : List Byte) (s : State) : Res Unit := if b.length = 0 then .fail s else .ok () (loadTail b s)

theorem l1TailLoad_eq {s : State} {b : List Byte} {src : ByteSource}
    (h : s.source.read s.params.wb = some (b, src)) (hb : b.length ≤ s.params.wb) :
    l1TailLoad s = endTail b (afterTail b src s) := by
  have hwb := toNat_ofNat_wb s.params
  rw [l1TailLoad, srcRead_of_read (by rwa [hwb]) (by rwa [hwb]), bind_ok]
  rfl

section Reload

variable {s : State} {b : List Byte} {src src2 : ByteSource} (hwf : s.params.wf)
  (hn : s.params.lineCount ≤ s.nextLine) (h : s.source.read s.params.l2Bytes = some (b, src))
include hwf hn h

/-- A partial fill whose un-seek is accepted: the first of the whole words is promoted (R124 to R126). -/
theorem reload_partial_accepted (hle : s.params.wb ≤ b.length) (hlt : b.length < s.params.l2Bytes)
    (hseek : if b.length % s.params.wb = 0 then src2 = src
      else src.seek (-((b.length % s.params.wb : Nat) : Int)) = some (true, src2)) :
    reload s = .ok () (l2Pop (handBack (b.length % s.params.wb) src2
      (packLines (b.length / s.params.wb) (afterBulk b src s)))) := by
  have hmod := Nat.mod_lt b.length (show 0 < s.params.wb by have := s.params.le_wb; omega)
  have hwb := s.params.wb_le
  rw [reload_partial hwf hn h hlt hle, unseek_eq_handBack (by omega) hseek, bind_ok]

/-- A degenerate fill whose un-seek is accepted, and the tail read `b'` after it, with L2 exhausted (R127, R130). -/
theorem reload_degenerate_accepted {b' : List Byte} {src3 : ByteSource} (hlt : b.length < s.params.wb)
    (hseek : if b.length = 0 then src2 = src else src.seek (-(b.length : Int)) = some (true, src2))
    (htail : src2.read s.params.wb = some (b', src3)) (hle : b'.length ≤ s.params.wb) :
    reload s = endTail b' (afterTail b' src3 (setIndices s.params.lineCount s.params.lineCount
      (handBack b.length src2 (afterBulk b src s)))) := by
  have hwb := s.params.wb_le
  rw [reload_degenerate hwf hn h hlt, unseek_eq_handBack (by omega) hseek, bind_ok]
  exact l1TailLoad_eq htail hle

end Reload

end Sys2Proof.Machine

namespace Sys2Proof

open Machine

/-- Settles O13: an address below the number of bytes written reads its byte, any other its old one. -/
theorem bufferWriteThenRead : Obligations.BufferWriteThenRead := by
  intro p bytes ls hwf hls hbytes
  have hfit := length_le_mul_wb_of_le_l2Bytes hwf hls hbytes
  refine ⟨writeLines_wf bytes hls, fun a ha => ?_, fun a ha => ?_⟩ <;> rw [bufferByte_writeLines hfit]
  · exact List.getD_eq_getElem bytes _ ha
  · exact List.getD_eq_default bytes _ ha

/-- Settles O14: every line is overwritten, and the first is promoted. -/
theorem fullFill : Obligations.FullFill := by
  intro s b src hinv hn hread hb
  have hlines : 1 ≤ s.lines.length := hinv.memory.1 ▸ Params.lineCount_pos hinv.params
  have hword : s.params.wb ≤ b.length := hb ▸ Params.wb_le_l2Bytes hinv.params
  have hfit := length_le_mul_wb_of_le_l2Bytes hinv.params hinv.memory (b := b) (by omega)
  refine ⟨_, reload_full hinv.params hn.ge hread hb, rfl, rfl, rfl, beNorm_writeLines_head hword hlines,
    fun a ha => ?_, by rw [← hb]; rfl, rfl, rfl, rfl, rfl, rfl⟩
  exact (bufferByte_writeLines hfit a).trans (List.getD_eq_getElem b _ ha)

/-- Settles O15: the whole words are written from address 0 and moved to the end of the buffer, the rest is handed
back. -/
theorem partialFill : Obligations.PartialFill := by
  intro s b src src2 hinv hn hread hle hlt hseek
  have hwb := s.params.le_wb
  have hlines : 1 ≤ s.lines.length := hinv.memory.1 ▸ Params.lineCount_pos hinv.params
  have hfit := length_le_mul_wb_of_le_l2Bytes hinv.params hinv.memory (b := b) (by omega)
  have hlen : (writeLines s.params b s.lines).length = s.params.lineCount := (writeLines_length ..).trans hinv.memory.1
  have hwords : b.length / s.params.wb ≤ s.params.lineCount := Nat.div_le_div_right (Nat.le_of_lt hlt)
  have hpos : 1 ≤ b.length / s.params.wb := Nat.div_pos hle (by omega)
  have hwhole : b.length - b.length % s.params.wb = b.length / s.params.wb * s.params.wb := by
    have := Nat.div_add_mod' b.length s.params.wb
    omega
  refine ⟨_, reload_partial_accepted hinv.params hn.ge hread hle hlt hseek, rfl, rfl, rfl, ?_,
    fun a ha haligned => ?_, ?_, rfl, ?_, rfl, rfl, rfl⟩
  · exact (congrArg (fun l => (beNorm s.params l).toNat) (getD_packed _ hlen hwords hpos)).trans
      (beNorm_writeLines_head hle hlines)
  · exact (bufferByte_packed _ hlen hwords haligned).trans
      ((bufferByte_writeLines hfit a).trans (List.getD_eq_getElem b _ ha))
  · rw [← hwhole]
    exact add_ofNat_add_neg_ofNat _ (Nat.mod_le _ _)
  · exact List.append_assoc ..

/-- Settles O16: the degenerate fill leaves the register and the bytes after its own alone, the tail load fills the
register. -/
theorem degenerateFillThenTailLoad : Obligations.DegenerateFillThenTailLoad := by
  intro s b b' src src2 src3 hinv hn hread hlt hseek htail hpos hle
  have hfull := Params.wb_le_l2Bytes hinv.params
  have hfit := length_le_mul_wb_of_le_l2Bytes hinv.params hinv.memory (b := b) (by omega)
  have hreload := reload_degenerate_accepted hinv.params hn.ge hread hlt hseek htail hle
  refine ⟨_, hreload.trans (if_neg (by omega)), rfl, rfl, rfl, tailWord_toNat hle _, fun a ha => ?_, ?_, rfl, ?_, rfl,
    rfl, rfl⟩
  · exact (bufferByte_writeLines hfit a).trans (List.getD_eq_default b _ ha)
  · have hback := add_ofNat_add_neg_ofNat s.currentBytePos (Nat.le_refl b.length)
    rw [Nat.sub_self, BitVec.add_zero] at hback
    exact congrArg (· + _) hback
  · exact congrArg (· ++ _) (List.append_assoc ..)

/-- Settles O17: a degenerate fill of no byte issues no un-seek, and the tail read of no byte fails. -/
theorem reloadFailsAtEndOfStream : Obligations.ReloadFailsAtEndOfStream := by
  intro s src src2 hinv hn hread htail
  have hwb := s.params.le_wb
  rw [reload_degenerate_accepted hinv.params hn.ge hread (Nat.lt_of_lt_of_le (by decide) hwb) rfl htail
    (Nat.zero_le _)]
  simp [endTail, afterTail, handBack, afterBulk, setIndices, fillBuffer, State.log, unseekEvents, writeLines_nil, hn]

/-- Settles O18: a RELOAD that fails changes nothing but the buffer, its two counters and the byte source. -/
theorem failedReloadKeepsTheRegister : Obligations.FailedReloadKeepsTheRegister := by
  intro s t h
  obtain ⟨-, lines, unused, src, trace, rfl⟩ := reload_fail h
  exact ⟨rfl, rfl, rfl, rfl, rfl, rfl, rfl⟩

end Sys2Proof
end

section

/-! A RELOAD that raises Fault or stops, wherever in a command it stands (42_l2_buffer.md R135, 60_exceptions.md R204;
20_memory.md R50, R53). -/

namespace Sys2Proof.Machine

/-! A refused un-seek. -/

/-- The reader after an un-seek by `t` bytes that the byte source, then `src`, refused. -/
def refuseUnseek (t : Nat) (src : ByteSource) (s : State) : State :=
  raiseFault ({ s with source := src }.log (.seek (-(BitVec.ofNat 64 t)) false))

theorem unseek_of_refused {t : Nat} {s : State} {src : ByteSource} (ht : t < 2 ^ 63) (h0 : t ≠ 0)
    (h : s.source.seek (-(t : Int)) = some (false, src)) : unseek t s = .raised (refuseUnseek t src s) := by
  rw [← toInt_neg_ofNat ht] at h
  rw [unseek, if_neg h0, srcSeek_of_seek h]
  rfl

/-- From `s` to `u` the bulk read `b` and its un-seek, refused, have raised Fault and left the byte source `src`. -/
structure State.Faults (s u : State) (b : List Byte) (src : ByteSource) : Prop where
  fault  : u.fault = true
  source : u.source = src
  params : u.params = s.params
  inbox  : u.inbox = s.inbox
  trace  : u.trace = s.trace ++ [.transaction (.read (BitVec.ofNat 64 s.params.l2Bytes) b),
    .transaction (.seek (-(BitVec.ofNat 64 (b.length % s.params.wb))) false)]

/-- A RELOAD whose un-seek is refused raises Fault, after a partial and after a degenerate fill alike (R135). -/
theorem reload_unseek_refused {s : State} {b : List Byte} {src src2 : ByteSource} (hwf : s.params.wf)
    (hn : s.params.lineCount ≤ s.nextLine) (h : s.source.read s.params.l2Bytes = some (b, src))
    (hlt : b.length < s.params.l2Bytes) (hmod : b.length % s.params.wb ≠ 0)
    (hseek : src.seek (-((b.length % s.params.wb : Nat) : Int)) = some (false, src2)) :
    ∃ u, reload s = .raised u ∧ s.Faults u b src2 := by
  have hwb := s.params.wb_le
  have hlt2 := Nat.mod_lt b.length (show 0 < s.params.wb by have := s.params.le_wb; omega)
  rcases Nat.lt_or_ge b.length s.params.wb with hshort | hlong
  · have hall := Nat.mod_eq_of_lt hshort
    rw [hall] at hmod hseek
    refine ⟨refuseUnseek b.length src2 (afterBulk b src s), ?_, rfl, rfl, rfl, rfl,
      by rw [hall]; exact List.append_assoc ..⟩
    rw [reload_degenerate hwf hn h hshort, unseek_of_refused (by omega) hmod hseek, bind_raised]
  · refine ⟨refuseUnseek (b.length % s.params.wb) src2 (packLines (b.length / s.params.wb) (afterBulk b src s)), ?_,
      rfl, rfl, rfl, rfl, List.append_assoc ..⟩
    rw [reload_partial hwf hn h hlt hlong, unseek_of_refused (by omega) hmod hseek, bind_raised]

/-- The response of the command comes after the two transactions. -/
theorem State.Faults.trace_emit {s u : State} {b : List Byte} {src : ByteSource} (h : s.Faults u b src) (e : Event) :
    (u.emit [e]).trace = s.trace ++ [.transaction (.read (BitVec.ofNat 64 s.params.l2Bytes) b),
      .transaction (.seek (-(BitVec.ofNat 64 (b.length % s.params.wb))) false), e] := by
  rw [emit_trace, h.trace, List.append_assoc]
  rfl

/-! Reads: the RELOAD a command meets first, and the one after it. -/

/-- A read of more bits than the register holds ends as its first RELOAD does: at once, or after a first part that the
register covers, which changes the register alone. -/
theorem readBits_first_reload {s : State} {n : Nat} (hn : s.rem < n) (hle : n ≤ 64) :
    ∃ c cb, ∀ cmd r, (reload (loadL1 c cb s)).ending cmd = some r → (readBits n s).ending cmd = some r := by
  rcases Nat.lt_or_ge 32 n with hwide | hnarrow
  · rw [readBits_wide hwide]
    rcases Nat.lt_or_ge s.rem (n - 32) with hfirst | hsecond
    · exact ⟨s.cache, s.consumedBits, fun _ _ h => ending_bind (read32_ending hfirst h) _⟩
    · have hrem : (consume (n - 32) s).rem < 32 := by
        rw [rem_consume]
        omega
      rw [read32_of_le (by omega) hsecond, takeBits, bind_ok]
      exact ⟨dropBits s.params.w s.cache (n - 32), s.consumedBits + (n - 32),
        fun _ _ h => ending_bind (read32_ending hrem h) _⟩
  · rw [readBits_narrow hnarrow]
    exact ⟨s.cache, s.consumedBits, fun _ _ => read32_ending hn⟩

/-- The RELOAD of READ32 after its entry reload, where this brings too few bits. -/
theorem read32_ending_again {cmd : Instr} {s s1 : State} {n : Nat} {r : StepResult}
    (hempty : s.consumedBits = s.params.w) (hs1 : reload s = .ok () s1) (hn : s1.rem < n)
    (h : (reload s1).ending cmd = some r) : (read32 n s).ending cmd = some r := by
  rw [read32, ensureBits, if_pos hempty, hs1, bind_ok, if_neg (Nat.not_le_of_lt hn)]
  exact ending_bind h _

/-- The READ32 of a narrow read, and either READ32 of a wide one. -/
theorem exec_read_ending_of_read32 {s : State} {n : Arg} {r : StepResult} {cmd : Instr} (hf : s.fault = false)
    (hpos : 1 ≤ n.toNat) (hn : n.toNat ≤ 64) (hcmd : cmd ∈ [Instr.rdu n, .rds n]) :
    (n.toNat ≤ 32 → (read32 n.toNat s).ending cmd = some r → exec cmd s = r) ∧
    (33 ≤ n.toNat → (read32 (n.toNat - 32) s).ending cmd = some r → exec cmd s = r) ∧
    (∀ (hi : Word) (s1 : State), 33 ≤ n.toNat → read32 (n.toNat - 32) s = .ok hi s1 →
      (read32 32 s1).ending cmd = some r → exec cmd s = r) := by
  refine ⟨fun hnarrow h => ?_, fun hwide h => ?_, fun hi s1 hwide hs1 h => ?_⟩ <;>
    refine exec_read_ending hf hpos hn hcmd ?_
  · rwa [readBits_narrow hnarrow]
  · rw [readBits_wide hwide]
    exact ending_bind h _
  · rw [readBits_wide hwide, hs1, bind_ok]
    exact ending_bind h _

/-! Seeks (43_seek.md R153 to R157). -/

/-- A nested call of SEEK is a SEEK: after a RELOAD the bound on nested calls does not matter (R157). -/
theorem seekFuel_residual_eq_seek {s s1 s2 : State} {n : Nat} (hp : s1.params = s.params)
    (hs2 : reload s1 = .ok () s2) :
    seekFuel s.params.w (seekCalc n s).residual s2 = seek (seekCalc n s).residual s2 := by
  have hpost := reload_post s1
  have hres := seekCalc_residual_lt n s
  rw [hs2] at hpost
  obtain ⟨hx, -, hnew, -⟩ := hpost
  have hp2 : s2.params = s.params := hx.params.trans hp
  have hrem : 1 ≤ s2.rem := by
    rw [State.rem, hp2, ← hp]
    omega
  exact seekFuel_of_lt hrem hres (by rw [hp2]; omega)

/-- The forward seek of SKB. -/
theorem exec_skb_forward_ending {s : State} {n : Arg} {r : StepResult} (hf : s.fault = false) (hn : s.rem < n.toNat)
    (h : (seekWhole (seekCalc n.toNat s) s).ending (.skb n) = some r) : exec (.skb n) s = r := by
  refine exec_skb_ending hf (by omega) ?_
  rw [seek_beyond hn]
  exact ending_bind h _

/-- The nested SEEK of SKB. -/
theorem exec_skb_nested_ending {s s1 s2 : State} {n : Arg} {r : StepResult} (hf : s.fault = false)
    (hn : s.rem < n.toNat) (hwhole : seekWhole (seekCalc n.toNat s) s = .ok () s1)
    (hres : (seekCalc n.toNat s).residual ≠ 0) (hs2 : reload s1 = .ok () s2)
    (h : (seek (seekCalc n.toNat s).residual s2).ending (.skb n) = some r) : exec (.skb n) s = r := by
  refine exec_skb_ending hf (by omega) ?_
  rw [seek_beyond hn, hwhole, bind_ok, if_neg hres, hs2, bind_ok,
    seekFuel_residual_eq_seek (seekWhole_params hf hwhole) hs2]
  exact h

theorem seekWhole_inbox {s s1 : State} {n : Nat} (h : seekWhole (seekCalc n s) s = .ok () s1) :
    s1.inbox = s.inbox := by
  have hpost := seekWhole_post n s
  rw [h] at hpost
  exact hpost.1.inbox

end Sys2Proof.Machine

namespace Sys2Proof

open Machine

/-- Settles O19: the RELOAD raises; a read meets it first, a seek after its forward move, and each ends there. -/
theorem refusedUnseekRaisesFault : Obligations.RefusedUnseekRaisesFault := by
  refine ⟨?_, ?_, ?_⟩
  · intro s b src src2 hinv hnext hread hlt hmod hseek
    obtain ⟨u, e, hu⟩ := reload_unseek_refused hinv.params hnext.ge hread hlt hmod hseek
    exact ⟨u, e, hu.fault, hu.source, hu.params, hu.inbox, hu.trace⟩
  · intro s n b src src2 hinv hf hrem hn hnext hread hlt hmod hseek cmd hcmd
    obtain ⟨c, cb, hend⟩ := readBits_first_reload hrem hn
    obtain ⟨u, e, hu⟩ := reload_unseek_refused (s := loadL1 c cb s) hinv.params hnext.ge hread hlt hmod hseek
    exact ⟨u.emit [answer cmd .fault 0],
      exec_read_ending hf (by omega) hn hcmd (hend cmd _ (congrArg (Res.ending cmd) e)), hu.fault, hu.source, hu.params,
      hu.inbox, hu.trace_emit _⟩
  · intro s s1 n b src src2 hinv hf hrem hwhole hres hnext hread hlt hmod hseek
    have hp := seekWhole_params hf hwhole
    rw [← hp] at hread hlt hmod hseek hnext ⊢
    obtain ⟨u, e, hu⟩ := reload_unseek_refused (hp ▸ hinv.params) hnext.ge hread hlt hmod hseek
    exact ⟨u.emit [answer (.skb n) .fault 0],
      exec_skb_residual_ending hf hrem hwhole hres (congrArg (Res.ending (.skb n)) e), hu.fault, hu.source, hu.params,
      hu.inbox.trans (seekWhole_inbox hwhole), hu.trace_emit _⟩

/-- Settles O60: by the place of the RELOAD in READ32, of READ32 in the read, and of either seek or RELOAD in SKB. -/
theorem reloadEndsTheCommand : Obligations.ReloadEndsTheCommand := by
  refine ⟨fun cmd s n r => read32_ending, fun cmd s s1 n r => read32_ending_again, fun s n r hf hpos hn cmd hcmd =>
    exec_read_ending_of_read32 hf hpos hn hcmd, fun s n r hf hn => ⟨exec_skb_forward_ending hf hn, ?_⟩⟩
  exact fun s1 hwhole hres => ⟨exec_skb_residual_ending hf hn hwhole hres,
    fun s2 hs2 => exec_skb_nested_ending hf hn hwhole hres hs2⟩

end Sys2Proof
end

section

/-! The refill machine of 42_l2_buffer.md R137, phase by phase: from each phase it ends as the part of RELOAD that the
phase begins. -/

namespace Sys2Proof.Machine

theorem refillRun_succ (fuel : Nat) (ph : RefillPhase) (s : State) :
    refillRun (fuel + 1) ph s = (refillPhaseStep ph s).bind (refillRun fuel) := rfl

/-! The final phases stay where they are. -/

theorem refillRun_doneOk (fuel : Nat) (s : State) : refillRun fuel .doneOk s = .ok () s := by
  induction fuel with
  | zero => rfl
  | succ fuel ih => exact ih

theorem refillRun_doneFail (fuel : Nat) (s : State) : refillRun fuel .doneFail s = .fail s := by
  induction fuel with
  | zero => rfl
  | succ fuel ih => exact ih

theorem refillRun_faulted (fuel : Nat) (s : State) : refillRun fuel .faulted s = .raised s := by
  induction fuel with
  | zero => rfl
  | succ fuel ih => exact ih

/-! The phases with work to do, each with the transitions it needs. -/

theorem refillRun_pop (fuel : Nat) (s : State) : refillRun (fuel + 1) .pop s = .ok () (l2Pop s) :=
  refillRun_doneOk fuel (l2Pop s)

theorem refillRun_tailRd (fuel : Nat) (s : State) : refillRun (fuel + 1) .tailRd s = l1TailLoad s := by
  rw [refillRun_succ, refillPhaseStep, l1TailLoad, bind_assoc]
  congr 1
  funext b u
  split
  · exact refillRun_doneFail fuel u
  · exact refillRun_doneOk fuel _

/-- After an un-seek that is issued the machine goes on, or Fault is raised (R126, R127, R135). -/
theorem refillRun_after_unseek {t : Nat} (ht : t ≠ 0) (s : State) (fuel : Nat) (ph : RefillPhase) (f : State → State)
    (k : State → Res Unit) (hk : ∀ u, refillRun fuel ph (f u) = k u) :
    ((srcSeek (-(BitVec.ofNat 64 t)) s).bind fun accepted u =>
      if accepted then .ok ph (f u) else .ok .faulted (raiseFault u)).bind (refillRun fuel) =
    (unseek t s).bind fun _ u => k u := by
  rw [unseek, if_neg ht, bind_assoc, bind_assoc]
  congr 1
  funext accepted u
  cases accepted with
  | true => exact hk u
  | false => exact refillRun_faulted fuel _

theorem refillRun_unseekP {t : Nat} (ht : t ≠ 0) (fuel : Nat) (s : State) :
    refillRun (fuel + 2) (.unseekP t) s = (unseek t s).bind fun _ u => .ok () (l2Pop u) :=
  refillRun_after_unseek ht s (fuel + 1) .pop id _ fun u => refillRun_pop fuel u

theorem refillRun_unseekD {t : Nat} (ht : t ≠ 0) (fuel : Nat) (s : State) :
    refillRun (fuel + 2) (.unseekD t) s = (unseek t s).bind fun _ u => l1TailLoad (exhaustL2 u) :=
  refillRun_after_unseek ht s (fuel + 1) .tailRd exhaustL2 _ fun u => refillRun_tailRd fuel (exhaustL2 u)

/-- The move of a partial fill, then its un-seek where one is needed (R125, R126). -/
theorem refillRun_move (fuel aligned t : Nat) (s : State) :
    refillRun (fuel + 3) (.move aligned t) s = (unseek t (packLines aligned s)).bind fun _ u => .ok () (l2Pop u) := by
  rw [refillRun_succ, refillPhaseStep, bind_ok]
  by_cases h0 : t = 0
  · rw [h0]
    exact refillRun_pop (fuel + 1) _
  · rw [if_pos (Nat.one_le_iff_ne_zero.2 h0)]
    exact refillRun_unseekP h0 fuel _

/-- A degenerate fill is handed back, with no transaction where it brought no byte, before the tail read (R127,
R130). -/
theorem refillRun_degenerate (fuel n : Nat) (s : State) :
    (if 1 ≤ n then Res.ok (RefillPhase.unseekD n) s else .ok .tailRd (exhaustL2 s)).bind (refillRun (fuel + 2)) =
      (unseek n s).bind fun _ u => l1TailLoad (exhaustL2 u) := by
  by_cases h0 : n = 0
  · rw [h0]
    exact refillRun_tailRd (fuel + 1) _
  · rw [if_pos (Nat.one_le_iff_ne_zero.2 h0)]
    exact refillRun_unseekD h0 fuel s

/-! The bulk read. -/

/-- The end of RELOAD, by the end of its refill (R120). -/
def orTailLoad : Res Unit → Res Unit
  | .fail s => l1TailLoad s
  | r => r

theorem reload_eq_orTailLoad {s : State} (h : s.params.lineCount ≤ s.nextLine) :
    reload s = orTailLoad (l2Refill s) := by
  rw [reload_refill h]
  cases l2Refill s <;> rfl

/-- An un-seek does not fail, and keeps the parameters. -/
theorem orTailLoad_unseek (t : Nat) (s : State) {k k' : State → Res Unit}
    (hk : ∀ u : State, u.params = s.params → orTailLoad (k u) = k' u) :
    orTailLoad ((unseek t s).bind fun _ u => k u) = (unseek t s).bind fun _ u => k' u := by
  have hpost := unseek_post t s
  cases hr : unseek t s with
  | ok _ u =>
    rw [hr] at hpost
    exact hk u hpost.1.params
  | fail u =>
    rw [hr] at hpost
    exact hpost.elim
  | raised | stop | refuse => rfl

/-- From the bulk read on, the machine takes the path of the fill its answer makes (R122 to R127). -/
theorem refillRun_bulkRd (s : State) : refillRun 4 .bulkRd s = orTailLoad (l2Refill s) := by
  rcases srcRead_cases (BitVec.ofNat 64 s.params.l2Bytes) s with ⟨b, src, -, -, e⟩ | ⟨-, e⟩ | ⟨_, _, -, -, e⟩ <;>
    simp only [refillRun_succ 3, refillPhaseStep, l2Refill, e, bind_ok, bind_stop, bind_refuse]
  · split
    · exact refillRun_pop 2 _
    · split
      · exact (refillRun_move 0 _ _ _).trans
          (orTailLoad_unseek _ _ (k := fun u => .ok () (l2Pop u)) fun _ _ => rfl).symm
      · refine (refillRun_degenerate 1 _ _).trans (orTailLoad_unseek _ _ fun u hu => ?_).symm
        have hp : u.params = s.params := hu
        rw [orTailLoad, exhaustL2, hp]
  · rfl
  · rfl

/-- The machine pops a line that is left, as RELOAD does, and otherwise begins with the bulk read. -/
theorem refillFsm_eq_reload (s : State) : refillFsm s = reload s := by
  rw [refillFsm, refillRun_succ, refillPhaseStep, bind_ok]
  by_cases hline : s.nextLine < s.params.lineCount
  · rw [if_pos hline, refillRun_pop, reload_pop hline]
  · rw [if_neg hline, refillRun_bulkRd, reload_eq_orTailLoad (Nat.le_of_not_lt hline)]

end Sys2Proof.Machine

namespace Sys2Proof

/-- Settles O20: by the phases of the machine's path, of which the longest has five. -/
theorem refillMachineIsReload : Obligations.RefillMachineIsReload := Machine.refillFsm_eq_reload

end Sys2Proof
end

section

/-! Seeks (43_seek.md R150 to R158, 44_commands.md R173): SKB by the place of its target, and SEEK as the recursion it
is described by. -/

namespace Sys2Proof.Machine

theorem bind_congr_of_ok {α β : Type} {r : Res α} {k k' : α → State → Res β}
    (h : ∀ a s, r = .ok a s → k a s = k' a s) : r.bind k = r.bind k' := by
  cases r with
  | ok a s => exact h a s rfl
  | fail | raised | stop | refuse => rfl

/-- SKB of a legal count is the execution of SEEK (R170). -/
theorem exec_skb_of_legal {s : State} {n : Arg} (hf : s.fault = false) (hpos : 1 ≤ n.toNat) :
    exec (.skb n) s = finish (.skb n) ((seek n.toNat s).bind fun _ t => .ok 0 t) := by
  rw [exec_skb, show legalCount n = true from decide_eq_true hpos, runCommand_legal hf]

theorem seek_within {n : Nat} {s : State} (hn : n ≤ s.rem) : seek n s = .ok () (consume n s) := if_pos hn

/-- A transaction, then a response, as they stand in the trace. -/
theorem emit_log (s : State) (t : Transaction) (e : Event) : (s.log t).emit [e] = s.emit [.transaction t, e] := by
  simp only [State.emit, State.log, List.append_assoc, List.singleton_append]

theorem skipLines_log (k : Nat) (s : State) (t : Transaction) : skipLines k (s.log t) = (skipLines k s).log t := rfl

/-! The move up to the residual (R153 to R155). -/

section SeekWhole

variable {s : State} {n : Nat} {src : ByteSource}

/-- A target in the buffer needs no byte-source seek (R153). -/
theorem seekWhole_of_le (h : (n - s.rem) / s.params.w ≤ s.params.lineCount - s.nextLine) :
    seekWhole (seekCalc n s) s = .ok () (skipLines ((n - s.rem) / s.params.w) s) := by
  have hbytes : (seekCalc n s).srcBytes = 0 := by
    rw [seekCalc_srcBytes, Nat.sub_eq_zero_of_le h, Nat.zero_mul]
  have hskip : (seekCalc n s).skipL2 = (n - s.rem) / s.params.w := Nat.min_eq_left h
  rw [seekWhole, if_pos hbytes, hskip]

/-- A target beyond the buffer is reached by one byte-source seek, and is not where that is refused (R154, R155). -/
theorem seekWhole_of_seek {m : Nat} {accepted : Bool} (h64 : n < 2 ^ 64) (hm : 1 ≤ m)
    (hbeyond : (n - s.rem) / s.params.w = s.params.lineCount - s.nextLine + m)
    (hseek : s.source.seek ((m * s.params.wb : Nat) : Int) = some (accepted, src)) :
    seekWhole (seekCalc n s) s =
      if accepted then .ok () (skipLines (s.params.lineCount - s.nextLine) ({ s with
        source := src, currentBytePos := s.currentBytePos + BitVec.ofNat 64 (m * s.params.wb) }.log
          (.seek (BitVec.ofNat 64 (m * s.params.wb)) true)))
      else .fail ({ s with source := src }.log (.seek (BitVec.ofNat 64 (m * s.params.wb)) false)) := by
  have hbytes : (seekCalc n s).srcBytes = m * s.params.wb := by
    rw [seekCalc_srcBytes, hbeyond, Nat.add_sub_cancel_left]
  have hskip : (seekCalc n s).skipL2 = s.params.lineCount - s.nextLine :=
    Nat.min_eq_right (Nat.le.intro hbeyond.symm)
  have hne : m * s.params.wb ≠ 0 := Nat.mul_ne_zero (by omega) (by have := s.params.le_wb; omega)
  have hlt := seekCalc_srcBytes_lt h64 s
  rw [hbytes] at hlt
  rw [← toInt_ofNat (by omega)] at hseek
  rw [seekWhole, hbytes, hskip, if_neg hne, srcSeek_of_seek hseek, bind_ok]
  cases accepted <;> rfl

end SeekWhole

/-- SKB to a word boundary, `k` words after the register, is the whole-line move alone: no residual is left (R156). -/
theorem exec_skb_of_words {s : State} {n : Arg} {k : Nat} (hf : s.fault = false) (hk : 1 ≤ k)
    (hn : n.toNat = s.rem + s.params.w * k) :
    (n.toNat - s.rem) / s.params.w = k ∧
      exec (.skb n) s = finish (.skb n) ((seekWhole (seekCalc n.toNat s) s).bind fun _ t => .ok 0 t) := by
  have hw : 0 < s.params.w := Nat.lt_of_lt_of_le (by decide) s.params.le_w
  have hbeyond : s.rem < n.toNat := hn ▸ Nat.lt_add_of_pos_right (Nat.mul_pos hw hk)
  have hwords : n.toNat - s.rem = s.params.w * k := Nat.sub_eq_of_eq_add' hn
  have hres : (seekCalc n.toNat s).residual = 0 := (congrArg (· % s.params.w) hwords).trans (Nat.mul_mod_right _ _)
  refine ⟨by rw [hwords, Nat.mul_div_cancel_left k hw], ?_⟩
  simp only [exec_skb_of_legal hf (Nat.one_le_of_lt hbeyond), seek_beyond hbeyond, if_pos hres, bind_assoc, bind_ok]

end Sys2Proof.Machine

namespace Sys2Proof

open Machine

/-- Settles O56: SEEK of a reader in step moves by its count. -/
theorem seekMovesTheCursor : Obligations.SeekMovesTheCursor := by
  intro s bytes base pos n h hpos hend
  rw [exec_skb_of_legal h.noFault hpos]
  exact finish_of_moves ((seek_moves h n.isLt).map fun _ => 0)
    ((seekFuel_legal _ n.isLt h.inv.params).bind fun _ _ _ => ok_legal _ rfl rfl rfl) hend

/-- Settles O26: whole lines and residual are quotient and remainder by the width, and so few bits are few bytes. -/
theorem seekCalcIdentity : Obligations.SeekCalcIdentity := fun s n hn h64 =>
  ⟨seekCalc_identity hn, rfl, seekCalc_residual_lt n s, rfl, Nat.mul_mod_left _ _, seekCalc_srcBytes_lt h64 s⟩

/-- Settles O27: consuming is the whole execution. -/
theorem seekInsideTheRegister : Obligations.SeekInsideTheRegister := by
  intro s n hf hpos hn
  rw [exec_skb_of_legal hf hpos, seek_within hn, bind_ok, finish_ok]
  rfl

/-- Settles O28: the lines are skipped, and no residual is left. -/
theorem seekToALineInTheBuffer : Obligations.SeekToALineInTheBuffer := by
  intro s n k hf hk hline hn
  obtain ⟨hwhole, e⟩ := exec_skb_of_words hf hk hn
  rw [e, seekWhole_of_le (by omega), hwhole]
  rfl

/-- Settles O29: the lines left are skipped after the byte source's seek, and no residual is left. -/
theorem seekThroughTheByteSource : Obligations.SeekThroughTheByteSource := by
  intro s n m src hinv hf hm hn hseek
  have hall : s.nextLine + (s.params.lineCount - s.nextLine) = s.params.lineCount :=
    Nat.add_sub_cancel' (hinv.next hf)
  obtain ⟨hwhole, e⟩ := exec_skb_of_words hf (Nat.le_add_left_of_le hm) hn
  rw [e, seekWhole_of_seek n.isLt hm hwhole hseek, if_pos rfl, bind_ok, finish_ok, skipLines_log, emit_log,
    skipLines, hall]
  rfl

/-- Settles O30: the byte source's seek comes before any change. -/
theorem refusedForwardSeekChangesNothing : Obligations.RefusedForwardSeekChangesNothing := by
  intro s n src _ hf hbeyond hfar hseek
  have hwhole := (Nat.add_sub_cancel' hfar.le).symm
  rw [exec_skb_of_legal hf (by omega), seek_beyond hbeyond,
    seekWhole_of_seek n.isLt (Nat.sub_pos_of_lt hfar) hwhole hseek, if_neg Bool.false_ne_true, bind_fail, bind_fail,
    finish_fail, emit_log]

/-- Settles O31: the nested call is a SEEK, for the bound does not matter after a RELOAD. -/
theorem seekIsItsRecursion : Obligations.SeekIsItsRecursion := by
  intro n s
  split
  · next hn => exact seek_within hn
  · next hn =>
    rw [seek_beyond (Nat.lt_of_not_le hn)]
    refine bind_congr_of_ok fun _ s1 hs1 => ?_
    have hpost := seekWhole_post n s
    rw [hs1] at hpost
    have hp : s1.params = s.params := hpost.1.params
    split
    · rfl
    · exact bind_congr_of_ok fun _ s2 hs2 => seekFuel_residual_eq_seek hp hs2

end Sys2Proof
end

section

/-! Commands that read no stream (44_commands.md R170, R174 to R176): the fault flag before everything else, the reserved
codes, POS and RSY. -/

namespace Sys2Proof.Machine

/-- A reserved code answers by the flag alone. -/
theorem rejectReserved_eq (cmd : Instr) (s : State) :
    rejectReserved cmd s = .next (s.emit [answer cmd (if s.fault then .fault else .invalid) 0]) := by
  unfold rejectReserved unlessFault
  split <;> rfl

end Sys2Proof.Machine

namespace Sys2Proof

open Machine

/-- Settles O32: the flag is the first thing every command but RSY looks at. -/
theorem faultFlagBarsEveryCommandButRsy : Obligations.FaultFlagBarsEveryCommandButRsy := by
  intro i s hport hne hf
  cases i with
  | rdu n => rw [exec_rdu, runCommand_fault hf]
  | rds n => rw [exec_rds, runCommand_fault hf]
  | skb n => rw [exec_skb, runCommand_fault hf]
  | pos a => rw [exec_pos, runCommand_fault hf]
  | rsy p => exact absurd rfl (hne p)
  | rsvd5 | rsvd6 | rsvd7 => exact (rejectReserved_eq _ s).trans (by rw [if_pos hf])
  | srcRd | srcSk => nomatch hport

/-- Settles O34: each of the three codes is rejected alike. -/
theorem reservedCodesHaveNoEffect : Obligations.ReservedCodesHaveNoEffect := by
  intro s a i hi
  simp only [List.mem_cons, List.not_mem_nil, or_false] at hi
  rcases hi with rfl | rfl | rfl <;> exact rejectReserved_eq _ s

/-- Settles O35: the execution of POS, which every operand reaches, is to look at the cursor. -/
theorem posReturnsTheTrackedCursor : Obligations.PosReturnsTheTrackedCursor := by
  intro s a
  rw [exec_pos]
  split
  · next hf => exact runCommand_fault hf
  · next hf => exact runCommand_legal (Bool.eq_false_of_not_eq_true hf)

/-- Settles O36: RSY looks at no flag, and its effect is that of `resync`. -/
theorem rsyResynchronises : Obligations.RsyResynchronises := fun _ _ => rfl

end Sys2Proof
end

section

/-! RDS beside RDU, and reads of more than 32 bits (44_commands.md R172, R177). -/

namespace Sys2Proof.Machine

/-! A response and the state before it (44_commands.md R170). -/

/-- The state before a response, and the response, are told by the state after it. -/
theorem emit_answer_inj {s u : State} {cmd : Instr} {st st' : Status} {d d' : Arg}
    (h : s.emit [answer cmd st d] = u.emit [answer cmd st' d']) : s = u ∧ st = st' ∧ d = d' := by
  cases s
  cases u
  simp only [State.emit, State.mk.injEq] at h
  obtain ⟨rfl, rfl, rfl, rfl, rfl, rfl, rfl, rfl, rfl, rfl, htrace, rfl⟩ := h
  obtain ⟨rfl, hevent⟩ := List.append_inj' htrace rfl
  cases hevent
  exact ⟨rfl, rfl, rfl⟩

section Mapped

variable {cmd cmd' : Instr} {s u : State} {st : Status} {d : Arg} (f : Arg → Arg)

/-- An execution whose value is then changed by `f` ends as before, with an OK result changed by `f`. -/
theorem finish_map {r : Res Arg} (h : finish cmd r = .next (u.emit [answer cmd st d])) :
    finish cmd' (r.bind fun v t => .ok (f v) t) = .next (u.emit [answer cmd' st (if st = .ok then f d else 0)]) := by
  rcases finish_next h with ⟨v, t, rfl, e⟩ | ⟨t, rfl, e⟩ | ⟨t, rfl, e⟩ <;>
  · obtain ⟨rfl, rfl, rfl⟩ := emit_answer_inj e
    rfl

/-- So does a command with this execution: the flag and the operand are looked at before it (R170). -/
theorem runCommand_map {legal : Bool} {body : State → Res Arg}
    (h : runCommand cmd legal body s = .next (u.emit [answer cmd st d])) :
    runCommand cmd' legal (fun s => (body s).bind fun v t => .ok (f v) t) s =
      .next (u.emit [answer cmd' st (if st = .ok then f d else 0)]) := by
  cases hf : s.fault with
  | true =>
    rw [runCommand_fault hf, Host.Outcome.next.injEq] at h
    obtain ⟨rfl, rfl, rfl⟩ := emit_answer_inj h
    exact runCommand_fault hf
  | false =>
    cases legal with
    | true =>
      rw [runCommand_legal hf] at h ⊢
      exact finish_map f h
    | false =>
      rw [runCommand_illegal hf, Host.Outcome.next.injEq] at h
      obtain ⟨rfl, rfl, rfl⟩ := emit_answer_inj h
      exact runCommand_illegal hf

end Mapped

/-- A value computed from the operation's own issues nothing. -/
theorem Res.Legal.map {α β : Type} {r : Res α} {s : State} (h : r.Legal s) (f : α → β) :
    (r.bind fun a t => .ok (f a) t).Legal s :=
  h.bind fun _ _ _ => ok_legal _ rfl rfl rfl

/-! The values of reads fit their widths (40_bit_extract_and_mask.md R81, R85). -/

theorem peek_lt_two_pow (p : Params) (c : Word) {n : Nat} (hn : n ≤ p.w) : (peek p.w c n).toNat < 2 ^ n := by
  have hmask : (c &&& selMask p.w n).toNat < 2 ^ p.w := by
    rw [BitVec.and_comm]
    exact and_lt_two_pow (shlW_lt p.w_le _ _)
  rw [peek, shrW_toNat, Nat.div_lt_iff_lt_mul (Nat.two_pow_pos _), ← Nat.pow_add, Nat.add_sub_cancel' hn]
  exact hmask

theorem post_true {α : Type} (r : Res α) : r.Post (fun _ _ => True) (fun _ => True) (fun _ => True) := by
  cases r <;> trivial

theorem straddle_lt {n : Nat} {s : State} (hn : s.rem < n) (hle : n ≤ 32) :
    (straddle n s).Post (fun v _ => v.toNat < 2 ^ n) (fun _ => True) (fun _ => True) := by
  have hw := s.params.le_w
  refine (post_true (reload s)).bind (fun _ t _ => ?_) (fun _ => id) fun _ => id
  split
  · trivial
  · have hw' := t.params.le_w
    have hlt := combine_lt (peek_lt_two_pow s.params s.cache (n := s.rem) (by omega))
      (peek_lt_two_pow t.params t.cache (n := n - s.rem) (by omega)) (by omega)
    rwa [Nat.add_sub_cancel' hn.le] at hlt

theorem read32_lt {n : Nat} (hle : n ≤ 32) (s : State) :
    (read32 n s).Post (fun v _ => v.toNat < 2 ^ n) (fun _ => True) (fun _ => True) := by
  refine (post_true (ensureBits s)).bind (fun _ t _ => ?_) (fun _ => id) fun _ => id
  split
  · exact peek_lt_two_pow t.params t.cache (Nat.le_trans hle t.params.le_w)
  · next hn => exact straddle_lt (Nat.lt_of_not_le hn) hle

theorem lt_of_read32_eq_ok {n : Nat} {s u : State} {v : Word} (hle : n ≤ 32) (h : read32 n s = .ok v u) :
    v.toNat < 2 ^ n := by
  have hlt := read32_lt hle s
  rwa [h] at hlt

end Sys2Proof.Machine

namespace Sys2Proof

open Machine

/-- Settles O55: the unsigned read moves by its width, and its value is then extended. -/
theorem signedReadReturnsTheStream : Obligations.SignedReadReturnsTheStream := by
  intro s bytes base pos n h hpos hn hend
  rw [exec_rds_of_legal h.noFault hpos hn]
  exact finish_of_moves ((readBits_moves h hpos hn).map fun v => sext v n.toNat) ((readBits_legal _ h.inv.params).map _)
    hend

/-- Settles O37: RDS executes RDU, and extends its value. -/
theorem rdsIsRduSignExtended : Obligations.RdsIsRduSignExtended := by
  intro n s u st d h
  rw [exec_rdu] at h
  rw [exec_rds]
  exact runCommand_map (fun v => sext v n.toNat) h

/-- Settles O44: the first part that fails ends the read; two parts that fit are joined as numbers. -/
theorem wideReadIsTwoReads : Obligations.WideReadIsTwoReads := by
  intro s u v n h l hf hwide hn
  rw [exec_rdu_of_legal hf (by omega) hn, readBits_wide hwide]
  refine ⟨fun hhigh => ?_, fun hhigh hlow => ?_, fun _ hhigh hlow => ?_⟩
  · rw [hhigh, bind_fail, finish_fail]
  · rw [hhigh, bind_ok, hlow, bind_fail, finish_fail]
  · have hh := lt_of_read32_eq_ok (by omega) hhigh
    have hl := lt_of_read32_eq_ok (by omega) hlow
    rw [hhigh, bind_ok, hlow, bind_ok, finish_ok, ← combine_toNat hh hl (by omega), BitVec.ofNat_toNat,
      BitVec.setWidth_eq]

end Sys2Proof
end

section

/-! Reads and seeks past the end of the stream (44_commands.md R178, 43_seek.md R158, R160). -/

namespace Sys2Proof.Machine

/-- A command whose execution would move past the end of the stream is answered FAIL. -/
theorem finish_of_moves_past {i : Instr} {r : Res Arg} {s : State} {bytes : List Byte} {base pos n : Nat} {d : Arg}
    (hmoves : r.Moves bytes base pos n d) (hlegal : r.Legal s) (hpast : endBit bytes base < pos + n) :
    ∃ (t : State) (ts : List Transaction) (q : Nat), finish i r = .next t ∧ t.InStep bytes base q ∧
      pos ≤ q ∧ q ≤ endBit bytes base ∧ t.trace = s.trace ++ ts.map .transaction ++ [answer i .fail 0] := by
  cases r with
  | ok v t => exact absurd hpast (Nat.not_lt_of_le hmoves.1)
  | fail t =>
    obtain ⟨-, q, hq, ht⟩ := hmoves
    obtain ⟨ts, htrace, -⟩ := State.Issues.trace hlegal
    exact ⟨_, ts, q, finish_fail i t, ht.emit _, hq, Nat.le_of_add_right_le ht.rem_le, congrArg (· ++ _) htrace⟩
  | raised | stop | refuse => exact hmoves.elim

end Sys2Proof.Machine

namespace Sys2Proof

open Machine

/-- Settles O57: the operand is legal, for the reader stands inside the stream, and the execution fails in step. -/
theorem pastTheEndFails : Obligations.PastTheEndFails := by
  intro s bytes base pos n i h hpast hi
  have hwf := h.inv.params
  have hpos : 1 ≤ n.toNat := by
    have hinside : pos ≤ 8 * (bytes.length - base) := Nat.le_of_add_right_le h.rem_le
    omega
  rcases hi with rfl | ⟨hn, rfl | rfl⟩
  · rw [exec_skb_of_legal h.noFault hpos]
    exact finish_of_moves_past ((seek_moves h n.isLt).map fun _ => 0) ((seekFuel_legal _ n.isLt hwf).map _) hpast
  · rw [exec_rdu_of_legal h.noFault hpos hn]
    exact finish_of_moves_past (readBits_moves h hpos hn) (readBits_legal _ hwf) hpast
  · rw [exec_rds_of_legal h.noFault hpos hn]
    exact finish_of_moves_past ((readBits_moves h hpos hn).map fun v => sext v n.toNat) ((readBits_legal _ hwf).map _)
      hpast

end Sys2Proof
end

section

/-! The frame of a command (44_commands.md R170 to R174, 20_memory.md R49): its transactions, then its one response; the
buffer changes by a read transaction only, the byte source and the tracked cursor by any. -/

namespace Sys2Proof.Machine

/-! What transactions may change. -/

/-- From `s` to `t` parameters and inputs stay, and the trace grows by transactions; without a read among them the buffer
stays, and without any the byte source and the tracked cursor. -/
structure State.Frames (s t : State) : Prop where
  params : t.params = s.params
  inbox  : t.inbox = s.inbox
  issued : ∃ ts : List Transaction, t.trace = s.trace ++ ts.map .transaction ∧
    ((∀ m b, .read m b ∉ ts) → t.lines = s.lines ∧ t.unusedLines = s.unusedLines) ∧
    (ts = [] → t.source = s.source ∧ t.currentBytePos = s.currentBytePos)

/-- An update of the register and `nextLine` alone. -/
theorem State.Frames.of_register {s t : State} (h : t = { s with
    cache := t.cache, consumedBits := t.consumedBits, nextLine := t.nextLine }) : s.Frames t := by
  rw [h]
  exact ⟨rfl, rfl, [], (List.append_nil _).symm, fun _ => ⟨rfl, rfl⟩, fun _ => ⟨rfl, rfl⟩⟩

theorem State.Frames.refl (s : State) : s.Frames s := .of_register rfl

theorem State.Frames.trans {s t u : State} (h : s.Frames t) (h' : t.Frames u) : s.Frames u := by
  obtain ⟨ts, htrace, hbuffer, hsource⟩ := h.issued
  obtain ⟨ts', htrace', hbuffer', hsource'⟩ := h'.issued
  refine ⟨h'.params.trans h.params, h'.inbox.trans h.inbox, ts ++ ts', by simp [htrace, htrace'], fun hno => ?_,
    fun hnil => ?_⟩
  · obtain ⟨hlines, hunused⟩ := hbuffer fun m b hm => hno m b (List.mem_append_left _ hm)
    obtain ⟨hlines', hunused'⟩ := hbuffer' fun m b hm => hno m b (List.mem_append_right _ hm)
    exact ⟨hlines'.trans hlines, hunused'.trans hunused⟩
  · obtain ⟨hts, hts'⟩ := List.append_eq_nil_iff.1 hnil
    exact ⟨(hsource' hts').1.trans (hsource hts).1, (hsource' hts').2.trans (hsource hts).2⟩

/-- After a read transaction the frame asks nothing of the buffer and of the byte source. -/
theorem State.Frames.of_read {s s1 t u : State} {max : Arg} {b : List Byte} {k : Nat}
    (hread : srcRead max s = .ok b s1) (h : s1.Extends t k) (hp : u.params = t.params) (hi : u.inbox = t.inbox)
    (ht : u.trace = t.trace) : s.Frames u := by
  obtain ⟨hparams, hinbox, ts, htrace, -⟩ := h
  rcases srcRead_cases max s with ⟨b', src, -, -, e⟩ | ⟨-, e⟩ | ⟨b', src, -, -, e⟩ <;> cases e.symm.trans hread
  exact ⟨hp.trans hparams, hi.trans hinbox, .read max b :: ts, by simp [ht, htrace],
    fun hno => absurd (List.mem_cons_self ..) (hno max b), nofun⟩

/-! Operations inside a command. -/

/-- The operation `r`, begun in `s`, keeps the frame however it ends. -/
def Res.Framed {α : Type} (r : Res α) (s : State) : Prop := r.Post (fun _ t => s.Frames t) s.Frames s.Frames

theorem Res.Framed.of_frames {α : Type} {r : Res α} {s t : State} (hr : r.Framed t) (h : s.Frames t) : r.Framed s :=
  hr.mono (fun _ _ => h.trans) (fun _ => h.trans) (fun _ => h.trans)

theorem Res.Framed.bind {α β : Type} {r : Res α} {k : α → State → Res β} {s : State} (h : r.Framed s)
    (hk : ∀ a t, (k a t).Framed t) : (r.bind k).Framed s :=
  Res.Post.bind h (fun a t ht => (hk a t).of_frames ht) (fun _ => id) (fun _ => id)

theorem ok_framed {α : Type} (a : α) (s : State) : (Res.ok a s).Framed s := State.Frames.refl s

theorem fail_framed {α : Type} (s : State) : (Res.fail s : Res α).Framed s := State.Frames.refl s

theorem Res.Framed.map {α β : Type} {r : Res α} {s : State} (h : r.Framed s) (f : α → β) :
    (r.bind fun a t => .ok (f a) t).Framed s :=
  h.bind fun a t => ok_framed (f a) t

theorem srcSeek_framed (off : Arg) (s : State) : (srcSeek off s).Framed s := by
  rcases srcSeek_cases off s with ⟨src, -, e⟩ | ⟨src, -, e⟩ | ⟨-, e⟩ <;> rw [e]
  · exact ⟨rfl, rfl, [.seek off true], rfl, fun _ => ⟨rfl, rfl⟩, nofun⟩
  · exact ⟨rfl, rfl, [.seek off false], rfl, fun _ => ⟨rfl, rfl⟩, nofun⟩
  · trivial

theorem State.Extends.unseek {s t : State} (h : s.Extends t 0) (n : Nat) :
    (unseek n t).Post (fun _ u => s.Extends u 1) (fun _ => False) (fun u => s.Extends u 1) :=
  (unseek_post n t).mono (fun _ _ hu => h.trans hu.1) (fun _ => id) fun _ hu => h.trans hu.1

/-- Whatever a refill does to the buffer, it does after its bulk read. -/
theorem l2Refill_framed (s : State) : (l2Refill s).Framed s := by
  rcases l2Refill_cases s with ⟨b, s1, e, h⟩ | ⟨f, e⟩ | ⟨r, e⟩
  · have hfill : s1.Extends (fillBuffer b s1) 0 := (State.Extends.refl s1 0).upTo (Nat.le_refl 0) rfl rfl rfl
    have hpack : s1.Extends (packLines (b.length / s.params.wb) (fillBuffer b s1)) 0 :=
      hfill.upTo (Nat.le_refl 0) rfl rfl rfl
    rcases h with ⟨-, e2⟩ | ⟨-, -, e2⟩ | ⟨-, -, e2⟩ <;> rw [e2]
    · exact .of_read e hfill rfl rfl rfl
    · exact (hpack.unseek _).bind (fun _ _ hu => .of_read e hu rfl rfl rfl) (fun _ => False.elim)
        fun _ hu => .of_read e hu rfl rfl rfl
    · exact (hfill.unseek _).bind (fun _ _ hu => .of_read e hu rfl rfl rfl) (fun _ => False.elim)
        fun _ hu => .of_read e hu rfl rfl rfl
  · rw [e]; trivial
  · rw [e]; trivial

theorem l1TailLoad_framed (s : State) : (l1TailLoad s).Framed s := by
  rcases l1TailLoad_cases s with ⟨b, s1, e, -, ⟨-, e2⟩ | ⟨-, e2⟩⟩ | ⟨f, e⟩ | ⟨r, e⟩
  · rw [e2]
    exact .of_read e (.refl s1 0) rfl rfl rfl
  · rw [e2]
    exact .of_read e (.refl s1 0) rfl rfl rfl
  · rw [e]; trivial
  · rw [e]; trivial

theorem reload_framed (s : State) : (reload s).Framed s := by
  rcases Nat.lt_or_ge s.nextLine s.params.lineCount with h | h
  · rw [reload_pop h]
    exact State.Frames.of_register rfl
  · rw [reload_refill h]
    have hrefill := l2Refill_framed s
    cases hr : l2Refill s with
    | fail t => rw [hr] at hrefill; exact (l1TailLoad_framed t).of_frames hrefill
    | ok | raised | stop | refuse => rwa [hr] at hrefill

theorem takeBits_framed (n : Nat) (s : State) : (takeBits n s).Framed s := State.Frames.of_register rfl

theorem straddle_framed (n : Nat) (s : State) : (straddle n s).Framed s := by
  refine (reload_framed s).bind fun _ s2 => ?_
  split
  · exact fail_framed s2
  · exact (takeBits_framed _ s2).map _

theorem read32_framed (n : Nat) (s : State) : (read32 n s).Framed s := by
  have hensure : (ensureBits s).Framed s := by
    unfold ensureBits
    split
    · exact reload_framed s
    · exact ok_framed () s
  refine hensure.bind fun _ s1 => ?_
  split
  · exact takeBits_framed n s1
  · exact straddle_framed n s1

theorem readBits_framed (n : Nat) (s : State) : (readBits n s).Framed s := by
  unfold readBits
  split
  · exact read32_framed n s
  · exact (read32_framed _ s).bind fun hi s1 => (read32_framed 32 s1).map _

theorem seekWhole_framed (plan : SeekPlan) (s : State) : (seekWhole plan s).Framed s := by
  unfold seekWhole
  split
  · exact State.Frames.of_register rfl
  · refine (srcSeek_framed _ s).bind fun accepted s1 => ?_
    split
    · exact State.Frames.of_register rfl
    · exact fail_framed s1

theorem seekFuel_framed (fuel n : Nat) (s : State) : (seekFuel fuel n s).Framed s := by
  induction fuel generalizing n s with
  | zero => exact fail_framed s
  | succ fuel ih =>
    unfold seekFuel
    split
    · exact State.Frames.of_register rfl
    · refine (seekWhole_framed _ s).bind fun _ s1 => ?_
      split
      · exact ok_framed () s1
      · exact (reload_framed s1).bind fun _ s2 => ih _ s2

/-! Commands. -/

/-- The command `i` ends in `t`: its transactions, then its one response, with data 0 unless it is OK (R68, R170). -/
def EndsFramed (i : Instr) (s t : State) : Prop :=
  ∃ (u : State) (st : Status) (d : Arg), s.Frames u ∧ t = u.emit [answer i st d] ∧ (st ≠ .ok → d = 0)

theorem State.Frames.endsFramed {s u : State} (h : s.Frames u) (i : Instr) (st : Status) :
    EndsFramed i s (u.emit [answer i st 0]) := ⟨u, st, 0, h, rfl, fun _ => rfl⟩

theorem runCommand_endsFramed {cmd : Instr} {legal : Bool} {body : State → Res Arg} {s t : State}
    (h : runCommand cmd legal body s = .next t) (hbody : (body s).Framed s) : EndsFramed cmd s t := by
  cases hf : s.fault with
  | true =>
    rw [runCommand_fault hf] at h
    cases h
    exact (State.Frames.refl s).endsFramed ..
  | false =>
    cases legal with
    | false =>
      rw [runCommand_illegal hf] at h
      cases h
      exact (State.Frames.refl s).endsFramed ..
    | true =>
      rw [runCommand_legal hf] at h
      rcases finish_next h with ⟨v, u, hr, rfl⟩ | ⟨u, hr, rfl⟩ | ⟨u, hr, rfl⟩ <;> rw [hr] at hbody
      · exact ⟨u, .ok, v, hbody, rfl, fun hne => absurd rfl hne⟩
      · exact State.Frames.endsFramed hbody ..
      · exact State.Frames.endsFramed hbody ..

theorem rejectReserved_endsFramed {cmd : Instr} {s t : State} (h : rejectReserved cmd s = .next t) :
    EndsFramed cmd s t := by
  rw [rejectReserved_eq] at h
  cases h
  exact (State.Frames.refl s).endsFramed ..

theorem exec_endsFramed {i : Instr} {s t : State} (hport : i.port = .command) (hne : ∀ p, i ≠ .rsy p)
    (h : exec i s = .next t) : EndsFramed i s t := by
  cases i with
  | rdu n => exact runCommand_endsFramed h (readBits_framed _ s)
  | rds n =>
    rw [exec_rds] at h
    exact runCommand_endsFramed h ((readBits_framed _ s).map _)
  | skb n =>
    rw [exec_skb] at h
    exact runCommand_endsFramed h ((seekFuel_framed _ _ s).map _)
  | pos a => exact runCommand_endsFramed h (ok_framed _ s)
  | rsy p => exact absurd rfl (hne p)
  | rsvd5 | rsvd6 | rsvd7 => exact rejectReserved_endsFramed h
  | srcRd | srcSk => nomatch hport

/-- The flag stays unless the command is answered FAULT. -/
theorem exec_fault_eq_or_raised {i : Instr} {s u : State} {st : Status} {d : Arg} (hne : ∀ p, i ≠ .rsy p)
    (h : exec i s = .next (u.emit [answer i st d])) :
    u.fault = s.fault ∨ u.fault = true ∧ st = .fault ∧ d = 0 := by
  rcases exec_next h with hk | ⟨-, -, v, hv, e⟩ | ⟨⟨p, hp⟩, -⟩
  · exact .inl hk.fault
  · obtain ⟨rfl, rfl, rfl⟩ := emit_answer_inj e
    exact .inr ⟨hv.fault, rfl, rfl⟩
  · exact absurd hp (hne p)

end Sys2Proof.Machine

namespace Sys2Proof

open Machine

/-- Settles O21: by the frame, and RSY by its response alone. -/
theorem oneResponseAfterTheTransactions : Obligations.OneResponseAfterTheTransactions := by
  intro i s t hport h
  by_cases hrsy : ∃ p, i = .rsy p
  · obtain ⟨p, rfl⟩ := hrsy
    cases h
    exact ⟨[], .ok, 0, by simp [answer], fun _ => rfl⟩
  · obtain ⟨u, st, d, hu, rfl, hd⟩ := exec_endsFramed hport (not_exists.1 hrsy) h
    obtain ⟨ts, htrace, -⟩ := hu.issued
    exact ⟨ts, st, d, congrArg (· ++ _) htrace, hd⟩

/-- Settles O22: the frame of the execution, which the response leaves as it is. -/
theorem commandFrame : Obligations.CommandFrame := by
  intro i s t evs hport hne h htrace
  obtain ⟨u, st, d, hu, rfl, -⟩ := exec_endsFramed hport hne h
  obtain ⟨ts, hts, hbuffer, hsource⟩ := hu.issued
  have hevs : evs = ts.map .transaction ++ [answer i st d] := by
    rw [emit_trace, hts, List.append_assoc] at htrace
    exact (List.append_cancel_left htrace).symm
  rw [hevs, transactionsOf_append_answer]
  have hflag := (exec_fault_eq_or_raised hne h).imp_right fun ⟨hfault, hst, hd⟩ =>
    And.intro hfault (show answer i .fault 0 ∈ ts.map Event.transaction ++ [answer i st d] by simp [hst, hd])
  exact ⟨hu.params, hu.inbox, hflag, hbuffer, hsource⟩

end Sys2Proof
end

section

/-! Invalid requests (60_exceptions.md R205, 30_encoding.md R63, R64): which operands are illegal, and that nothing else
is answered INVALID, since an execution answers OK, FAIL or FAULT and a request word no response at all. -/

namespace Sys2Proof.Machine

/-! The illegal operands. -/

theorem legalWidth_eq_false_iff {n : Arg} : legalWidth n = false ↔ n.toNat = 0 ∨ 65 ≤ n.toNat := by
  rw [legalWidth, decide_eq_false_iff_not]
  omega

theorem legalCount_eq_false_iff {n : Arg} : legalCount n = false ↔ n = 0 := by
  rw [legalCount, decide_eq_false_iff_not, Nat.not_le, Nat.lt_one_iff]
  exact BitVec.toNat_inj (y := 0)

/-! The last event of the trace. -/

theorem status_eq_of_emit_answer {u : State} {cmd cmd' : Instr} {st st' : Status} {d d' : Arg} {evs : List Event}
    (h : (u.emit [answer cmd st d]).trace = evs ++ [answer cmd' st' d']) : st = st' := by
  cases (List.append_inj' h rfl).2
  rfl

/-- A command answered INVALID had an illegal operand: the flag and every end of the execution answer otherwise
(R170). -/
theorem legal_eq_false_of_invalid {cmd : Instr} {legal : Bool} {body : State → Res Arg} {s t : State}
    {evs : List Event} {d : Arg} (h : runCommand cmd legal body s = .next t)
    (htrace : t.trace = evs ++ [answer cmd .invalid d]) : legal = false := by
  cases hf : s.fault with
  | true =>
    rw [runCommand_fault hf] at h
    cases h
    nomatch status_eq_of_emit_answer htrace
  | false =>
    cases legal with
    | false => rfl
    | true =>
      rw [runCommand_legal hf] at h
      rcases finish_next h with ⟨v, u, -, rfl⟩ | ⟨u, -, rfl⟩ | ⟨u, -, rfl⟩ <;>
        nomatch status_eq_of_emit_answer htrace

/-- A request word that stands alone leaves its transaction as the last event. -/
theorem exec_request_trace {i : Instr} {s t : State} (hport : i.port = .source) (h : exec i s = .next t) :
    ∃ x : Transaction, t.trace = s.trace ++ [.transaction x] := by
  cases i with
  | srcRd m =>
    rw [exec_srcRd] at h
    rcases srcRead_cases m s with ⟨b, src, -, -, e⟩ | ⟨-, e⟩ | ⟨b, src, -, -, e⟩ <;> rw [e] at h <;> cases h
    exact ⟨.read m b, rfl⟩
  | srcSk o =>
    rw [exec_srcSk] at h
    rcases srcSeek_cases o s with ⟨src, -, e⟩ | ⟨src, -, e⟩ | ⟨-, e⟩ <;> rw [e] at h <;> cases h
    · exact ⟨.seek o true, rfl⟩
    · exact ⟨.seek o false, rfl⟩
  | _ => nomatch hport

theorem exec_request_not_answered {i j : Instr} {s t : State} {evs : List Event} {st : Status} {d : Arg}
    (hport : i.port = .source) (h : exec i s = .next t) : t.trace ≠ evs ++ [answer j st d] := by
  obtain ⟨x, hx⟩ := exec_request_trace hport h
  intro htrace
  nomatch (List.append_inj' (hx.symm.trans htrace) rfl).2

/-- The causes of INVALID (60_exceptions.md R205): a width, a count or an operation code that is not legal. -/
theorem exec_invalid_causes {i : Instr} {s t : State} {evs : List Event} {d : Arg} (h : exec i s = .next t)
    (htrace : t.trace = evs ++ [answer i .invalid d]) :
    (∃ n, (i = .rdu n ∨ i = .rds n) ∧ (n.toNat = 0 ∨ 65 ≤ n.toNat)) ∨ i = .skb 0 ∨
      (∃ a, i = .rsvd5 a ∨ i = .rsvd6 a ∨ i = .rsvd7 a) := by
  cases i with
  | rdu n => exact .inl ⟨n, .inl rfl, legalWidth_eq_false_iff.1 (legal_eq_false_of_invalid h htrace)⟩
  | rds n =>
    rw [exec_rds] at h
    exact .inl ⟨n, .inr rfl, legalWidth_eq_false_iff.1 (legal_eq_false_of_invalid h htrace)⟩
  | skb n =>
    rw [exec_skb] at h
    exact .inr (.inl (congrArg _ (legalCount_eq_false_iff.1 (legal_eq_false_of_invalid h htrace))))
  | pos a => nomatch legal_eq_false_of_invalid h htrace
  | rsy p =>
    cases h
    nomatch status_eq_of_emit_answer (u := resync p s) htrace
  | rsvd5 a => exact .inr (.inr ⟨a, .inl rfl⟩)
  | rsvd6 a => exact .inr (.inr ⟨a, .inr (.inl rfl)⟩)
  | rsvd7 a => exact .inr (.inr ⟨a, .inr (.inr rfl)⟩)
  | srcRd | srcSk => exact absurd htrace (exec_request_not_answered rfl h)

end Sys2Proof.Machine

namespace Sys2Proof

open Machine

/-- Settles O33: an illegal operand is answered before the execution, a reserved code by the flag alone, and the causes
are those of `exec_invalid_causes`. -/
theorem invalidRequestsAreRejected : Obligations.InvalidRequestsAreRejected := by
  refine ⟨fun s n hf hn => ?_, fun s hf => ?_, fun s a i hf hi => ?_, fun i s t evs d => exec_invalid_causes⟩
  · have hlegal := legalWidth_eq_false_iff.2 hn
    rw [exec_rdu, exec_rds, hlegal]
    exact ⟨runCommand_illegal hf, runCommand_illegal hf⟩
  · rw [exec_skb, legalCount_eq_false_iff.2 rfl]
    exact runCommand_illegal hf
  · rw [reservedCodesHaveNoEffect s a i hi, hf]
    rfl

end Sys2Proof
end

section

/-! The transactions of a command counted (70_reset_and_hazards.md R232), and its end over a byte source that answers
them (20_memory.md R41, R52): both said at once, as what an operation inside a command spends. -/

namespace Sys2Proof.Machine

/-! Legal answers (20_memory.md R41), and a byte source that has them left. -/

/-- The coming read answers where the next read is a tail read: its own, then those of `legalAnswers`. -/
def legalTailAnswers (p : Params) : List (List Byte) → Bool
  | [] => true
  | c :: reads => decide (c.length ≤ p.wb) && legalAnswers p reads

/-- After a bulk answer of at least a word comes the next bulk read's. -/
theorem legalAnswers_of_word {p : Params} {b : List Byte} {reads : List (List Byte)}
    (h : legalAnswers p (b :: reads) = true) (hb : p.wb ≤ b.length) : legalAnswers p reads = true := by
  cases reads with
  | nil => rfl
  | cons c reads =>
    rw [legalAnswers, if_neg (Nat.not_lt_of_le hb), Bool.and_eq_true] at h
    exact h.2

/-- After a bulk answer of less than a word comes a tail read's. -/
theorem legalTailAnswers_of_short {p : Params} {b : List Byte} {reads : List (List Byte)}
    (h : legalAnswers p (b :: reads) = true) (hb : b.length < p.wb) : legalTailAnswers p reads = true := by
  cases reads with
  | nil => rfl
  | cons c reads =>
    rw [legalAnswers, if_pos hb, Bool.and_eq_true] at h
    exact h.2

/-- The byte source has `k` answers of either kind left, whose reads are `legal`; the reference byte source always
has. -/
def State.Supplied (s : State) (legal : Params → List (List Byte) → Bool) (k : Nat) : Prop :=
  match s.source with
  | .mem _ _ => True
  | .scripted reads seeks => s.params.wf ∧ legal s.params reads = true ∧ k ≤ reads.length ∧ k ≤ seeks.length

section Supplied

variable {s t : State} {legal : Params → List (List Byte) → Bool} {k : Nat}

theorem supplied_of_mem {bytes : List Byte} {c : Nat} (h : s.source = .mem bytes c) : s.Supplied legal k := by
  rw [State.Supplied, h]
  trivial

theorem supplied_iff_of_scripted {reads : List (List Byte)} {seeks : List Bool} (h : s.source = .scripted reads seeks) :
    s.Supplied legal k ↔
      s.params.wf ∧ legal s.params reads = true ∧ k ≤ reads.length ∧ k ≤ seeks.length := by
  rw [State.Supplied, h]

theorem State.Supplied.mono {j : Nat} (h : s.Supplied legal k) (hjk : j ≤ k) : s.Supplied legal j := by
  cases hs : s.source with
  | mem bytes c => exact supplied_of_mem hs
  | scripted reads seeks =>
    rw [supplied_iff_of_scripted hs] at h ⊢
    obtain ⟨hwf, hlegal, hreads, hseeks⟩ := h
    exact ⟨hwf, hlegal, hjk.trans hreads, hjk.trans hseeks⟩

/-- An update of the reader's own elements leaves the answers. -/
theorem State.Supplied.of_eq (h : s.Supplied legal k) (hp : t.params = s.params) (hs : t.source = s.source) :
    t.Supplied legal k := by
  unfold State.Supplied
  rwa [hp, hs]

end Supplied

/-! Ends with a state. -/

/-- The operation does not stop: it ends with a value, as `Q` says, fails, as `F` says, or raises Fault. -/
def Res.Completes {α : Type} (r : Res α) (Q : α → State → Prop) (F : State → Prop) : Prop :=
  match r with
  | .ok a s => Q a s
  | .fail s => F s
  | .raised _ => True
  | .stop _ => False
  | .refuse _ => False

theorem completes_ok {α : Type} (a : α) (s : State) (Q : α → State → Prop) (F : State → Prop) :
    (Res.ok a s).Completes Q F ↔ Q a s := Iff.rfl

theorem Res.Completes.bind {α β : Type} {r : Res α} {k : α → State → Res β} {P : α → State → Prop}
    {Q : β → State → Prop} {F F' : State → Prop} (h : r.Completes P F') (hk : ∀ a s, P a s → (k a s).Completes Q F)
    (hF : ∀ s, F' s → F s) : (r.bind k).Completes Q F := by
  cases r with
  | ok a s => exact hk a s h
  | fail s => exact hF s h
  | raised s => trivial
  | stop | refuse => exact h.elim

theorem Res.Completes.mono {α : Type} {r : Res α} {Q Q' : α → State → Prop} {F F' : State → Prop}
    (h : r.Completes Q F) (hQ : ∀ a s, Q a s → Q' a s) (hF : ∀ s, F s → F' s) : r.Completes Q' F' := by
  cases r with
  | ok a s => exact hQ a s h
  | fail s => exact hF s h
  | raised s => trivial
  | stop | refuse => exact h.elim

/-! Each transaction takes one answer. -/

/-- The reference byte source answers every seek, and stays the same stream (20_memory.md R52). -/
theorem seek_mem (bytes : List Byte) (c : Nat) (off : Int) :
    ∃ accepted c', (ByteSource.mem bytes c).seek off = some (accepted, .mem bytes c') := by
  rw [ByteSource.seek]
  split
  · exact ⟨true, _, rfl⟩
  · exact ⟨false, c, rfl⟩

section Transactions

variable {s : State} {k : Nat}

/-- The bulk read: after an answer of less than a word, which is no full one, a tail read's is next. -/
theorem bulkRead_completes (h : s.Supplied legalAnswers (k + 1)) :
    (srcRead (BitVec.ofNat 64 s.params.l2Bytes) s).Completes
      (fun b t => (b.length = s.params.l2Bytes ∨ s.params.wb ≤ b.length → t.Supplied legalAnswers k) ∧
        (b.length < s.params.wb → t.Supplied legalTailAnswers k))
      (fun _ => False) := by
  cases hs : s.source with
  | mem bytes c =>
    rw [srcRead_of_read (hs ▸ read_mem bytes c _) (List.length_take_le _ _), completes_ok]
    exact ⟨fun _ => supplied_of_mem rfl, fun _ => supplied_of_mem rfl⟩
  | scripted reads seeks =>
    obtain ⟨hwf, hlegal, hreads, hseeks⟩ := (supplied_iff_of_scripted hs).1 h
    cases reads with
    | nil => nomatch hreads
    | cons b reads =>
      have hl2 := toNat_ofNat_of_lt hwf.2.2
      have hword : b.length = s.params.l2Bytes ∨ s.params.wb ≤ b.length → s.params.wb ≤ b.length :=
        fun hb => hb.elim (fun hfull => hfull ▸ Params.wb_le_l2Bytes hwf) id
      have hread : s.source.read s.params.l2Bytes = some (b, .scripted reads seeks) := by rw [hs]; rfl
      rw [srcRead_of_read (by rwa [hl2]) (hl2.symm ▸ legalAnswers_head hlegal)]
      exact ⟨fun hb => ⟨hwf, legalAnswers_of_word hlegal (hword hb), Nat.le_of_succ_le_succ hreads, by omega⟩,
        fun hb => ⟨hwf, legalTailAnswers_of_short hlegal hb, Nat.le_of_succ_le_succ hreads, by omega⟩⟩

theorem tailRead_completes (h : s.Supplied legalTailAnswers (k + 1)) :
    (srcRead (BitVec.ofNat 64 s.params.wb) s).Completes (fun _ t => t.Supplied legalAnswers k) (fun _ => False) := by
  cases hs : s.source with
  | mem bytes c =>
    rw [srcRead_of_read (hs ▸ read_mem bytes c _) (List.length_take_le _ _), completes_ok]
    exact supplied_of_mem rfl
  | scripted reads seeks =>
    obtain ⟨hwf, hlegal, hreads, hseeks⟩ := (supplied_iff_of_scripted hs).1 h
    cases reads with
    | nil => nomatch hreads
    | cons c reads =>
      have hwb := toNat_ofNat_wb s.params
      rw [legalTailAnswers, Bool.and_eq_true, decide_eq_true_eq] at hlegal
      have hread : s.source.read s.params.wb = some (c, .scripted reads seeks) := by rw [hs]; rfl
      rw [srcRead_of_read (by rwa [hwb]) (hwb.symm ▸ hlegal.1)]
      exact ⟨hwf, hlegal.2, Nat.le_of_succ_le_succ hreads, by omega⟩

variable {legal : Params → List (List Byte) → Bool}

theorem srcSeek_completes (off : Arg) (h : s.Supplied legal (k + 1)) :
    (srcSeek off s).Completes (fun _ t => t.Supplied legal k) (fun _ => False) := by
  cases hs : s.source with
  | mem bytes c =>
    obtain ⟨accepted, c', hseek⟩ := seek_mem bytes c off.toInt
    rw [srcSeek_of_seek (hs ▸ hseek), completes_ok]
    exact supplied_of_mem rfl
  | scripted reads seeks =>
    obtain ⟨hwf, hlegal, hreads, hseeks⟩ := (supplied_iff_of_scripted hs).1 h
    cases seeks with
    | nil => nomatch hseeks
    | cons accepted seeks =>
      rw [srcSeek_of_seek (src := .scripted reads seeks) (by rw [hs]; rfl)]
      exact ⟨hwf, hlegal, by omega, Nat.le_of_succ_le_succ hseeks⟩

/-- An un-seek takes one answer, or none where it is omitted. -/
theorem unseek_completes (t : Nat) (h : s.Supplied legal (k + 1)) :
    (unseek t s).Completes (fun _ u => u.Supplied legal k) (fun _ => False) := by
  unfold unseek
  split
  · exact h.mono (Nat.le_succ k)
  · refine (srcSeek_completes _ h).bind (fun accepted u hu => ?_) (fun _ => id)
    cases accepted with
    | true => exact hu
    | false => trivial

theorem l2Refill_completes (h : s.Supplied legalAnswers (k + 2)) :
    (l2Refill s).Completes (fun _ t => t.Supplied legalAnswers k) (fun t => t.Supplied legalTailAnswers k) := by
  refine (bulkRead_completes h).bind (fun b s1 ⟨hword, hshort⟩ => ?_) (fun _ => False.elim)
  by_cases hfull : b.length = s.params.l2Bytes
  · rw [if_pos hfull]
    exact ((hword (.inl hfull)).mono (Nat.le_succ k)).of_eq rfl rfl
  rw [if_neg hfull]
  by_cases hle : s.params.wb ≤ b.length
  · have haligned : 1 ≤ b.length / s.params.wb := Nat.div_pos hle (Nat.lt_of_lt_of_le (by decide) s.params.le_wb)
    rw [if_pos haligned]
    have hpack := (hword (.inr hle)).of_eq (t := packLines (b.length / s.params.wb) (fillBuffer b s1)) rfl rfl
    exact (unseek_completes _ hpack).bind (fun _ u hu => hu.of_eq rfl rfl) (fun _ => False.elim)
  · have hlt := Nat.lt_of_not_le hle
    rw [Nat.div_eq_of_lt hlt, if_neg (by decide)]
    have hfill := (hshort hlt).of_eq (t := fillBuffer b s1) rfl rfl
    exact (unseek_completes _ hfill).bind (fun _ u hu => hu.of_eq rfl rfl) (fun _ => False.elim)

theorem l1TailLoad_completes (h : s.Supplied legalTailAnswers (k + 1)) :
    (l1TailLoad s).Completes (fun _ t => t.Supplied legalAnswers k) (fun t => t.Supplied legalAnswers k) := by
  refine (tailRead_completes h).bind (fun b s1 hs1 => ?_) (fun _ => False.elim)
  split
  · exact hs1
  · exact hs1.of_eq rfl rfl

/-- RELOAD takes at most three answers (42_l2_buffer.md R120 to R133). -/
theorem reload_completes (h : s.Supplied legalAnswers (k + 3)) :
    (reload s).Completes (fun _ t => t.Supplied legalAnswers k) (fun t => t.Supplied legalAnswers k) := by
  rcases Nat.lt_or_ge s.nextLine s.params.lineCount with hn | hn
  · rw [reload_pop hn]
    exact (h.mono (Nat.le_add_right k 3)).of_eq rfl rfl
  · rw [reload_refill hn]
    have hrefill := l2Refill_completes h
    cases hr : l2Refill s with
    | ok u t => rw [hr] at hrefill; exact State.Supplied.mono hrefill (Nat.le_succ k)
    | fail t => rw [hr] at hrefill; exact l1TailLoad_completes hrefill
    | raised t => trivial
    | stop | refuse => rw [hr] at hrefill; exact hrefill.elim

end Transactions

/-! What an operation inside a command spends. -/

/-- The operation `r`, begun in `s`, issues at most `k` transactions, and it stops only where the byte source has not
so many answers left. -/
structure Res.Spends {α : Type} (r : Res α) (s : State) (k : Nat) : Prop where
  bounded   : r.Post (fun _ t => s.Extends t k) (fun t => s.Extends t k) (fun t => s.Extends t k)
  completes : ∀ j, s.Supplied legalAnswers (j + k) →
    r.Completes (fun _ t => t.Supplied legalAnswers j) (fun t => t.Supplied legalAnswers j)

theorem Res.Spends.mono {α : Type} {r : Res α} {s : State} {j k : Nat} (h : r.Spends s j) (hjk : j ≤ k) :
    r.Spends s k where
  bounded := h.bounded.mono (fun _ _ hx => hx.mono hjk) (fun _ hx => hx.mono hjk) (fun _ hx => hx.mono hjk)
  completes i hs := h.completes i (hs.mono (Nat.add_le_add_left hjk i))

/-- Operations in sequence spend what both spend. -/
theorem Res.Spends.bind {α β : Type} {r : Res α} {f : α → State → Res β} {s : State} {j k : Nat} (h : r.Spends s j)
    (hf : ∀ a t, r = .ok a t → (f a t).Spends t k) : (r.bind f).Spends s (j + k) where
  bounded := by
    have hr := h.bounded
    cases r with
    | ok a t =>
      exact (hf a t rfl).bounded.mono (fun _ _ => State.Extends.trans hr) (fun _ => State.Extends.trans hr)
        (fun _ => State.Extends.trans hr)
    | fail t => exact State.Extends.mono hr (Nat.le_add_right j k)
    | raised t => exact State.Extends.mono hr (Nat.le_add_right j k)
    | stop | refuse => trivial
  completes i hs := by
    have hr := h.completes (i + k) (hs.mono (by omega))
    cases r with
    | ok a t => exact (hf a t rfl).completes i hr
    | fail t => exact State.Supplied.mono hr (Nat.le_add_right i k)
    | raised t => trivial
    | stop | refuse => exact hr.elim

theorem Res.Spends.params_of_ok {α : Type} {r : Res α} {s t : State} {k : Nat} {a : α} (h : r.Spends s k)
    (hr : r = .ok a t) : t.params = s.params := by
  have hx := h.bounded
  rw [hr] at hx
  exact hx.params

/-- An update of the reader's own elements spends nothing. -/
theorem ok_spends {α : Type} (a : α) {s t : State} {k : Nat} (hp : t.params = s.params) (hi : t.inbox = s.inbox)
    (ht : t.trace = s.trace) (hs : t.source = s.source) : (Res.ok a t).Spends s k where
  bounded := (State.Extends.refl s k).upTo (Nat.le_refl k) hp hi ht
  completes j h := (h.mono (Nat.le_add_right j k)).of_eq hp hs

theorem fail_spends {α : Type} (s : State) (k : Nat) : (Res.fail s : Res α).Spends s k where
  bounded := State.Extends.refl s k
  completes j h := h.mono (Nat.le_add_right j k)

theorem Res.Spends.map {α β : Type} {r : Res α} {s : State} {k : Nat} (h : r.Spends s k) (f : α → β) :
    (r.bind fun a t => .ok (f a) t).Spends s k :=
  h.bind (k := 0) fun a _ _ => ok_spends (f a) rfl rfl rfl rfl

theorem srcSeek_spends (off : Arg) (s : State) : (srcSeek off s).Spends s 1 where
  bounded := (srcSeek_post off s).mono (fun _ _ h => h.1) (fun _ => False.elim) (fun _ => False.elim)
  completes _ h := (srcSeek_completes off h).mono (fun _ _ => id) (fun _ => False.elim)

theorem reload_spends (s : State) : (reload s).Spends s 3 where
  bounded := (reload_post s).mono (fun _ _ h => h.1) (fun _ h => h.1) (fun _ h => h.1)
  completes _ h := reload_completes h

/-! Reads: at most two RELOADs in each READ32. -/

theorem takeBits_spends (n : Nat) (s : State) : (takeBits n s).Spends s 0 := ok_spends _ rfl rfl rfl rfl

theorem straddle_spends (n : Nat) (s : State) : (straddle n s).Spends s 3 := by
  refine (reload_spends s).bind (k := 0) fun _ s2 _ => ?_
  split
  · exact fail_spends s2 0
  · exact (takeBits_spends _ s2).map _

theorem read32_spends (n : Nat) (s : State) : (read32 n s).Spends s 6 := by
  have hensure : (ensureBits s).Spends s 3 := by
    unfold ensureBits
    split
    · exact reload_spends s
    · exact ok_spends () rfl rfl rfl rfl
  refine hensure.bind (k := 3) fun _ s1 _ => ?_
  split
  · exact (takeBits_spends n s1).mono (by decide)
  · exact straddle_spends n s1

theorem readBits_spends (n : Nat) (s : State) : (readBits n s).Spends s 12 := by
  unfold readBits
  split
  · exact (read32_spends n s).mono (by decide)
  · exact (read32_spends _ s).bind (k := 6) fun hi s1 _ => (read32_spends 32 s1).map _

/-! Seeks: the forward seek of the first call, then a RELOAD for each residual (43_seek.md R157). -/

theorem seekWhole_spends (plan : SeekPlan) (s : State) : (seekWhole plan s).Spends s 1 := by
  unfold seekWhole
  split
  · exact ok_spends () rfl rfl rfl rfl
  · refine (srcSeek_spends _ s).bind (k := 0) fun accepted s1 _ => ?_
    cases accepted with
    | true => exact ok_spends () rfl rfl rfl rfl
    | false => exact fail_spends s1 0

/-- Within the word that follows the register there is no whole word to skip, and so no byte-source seek. -/
theorem seekWhole_spends_of_lt {n : Nat} {s : State} (hn : n < s.params.w) :
    (seekWhole (seekCalc n s) s).Spends s 0 := by
  have hwhole : (n - s.rem) / s.params.w = 0 := Nat.div_eq_of_lt (by omega)
  rw [seekWhole_of_le (hwhole ▸ Nat.zero_le _)]
  exact ok_spends () rfl rfl rfl rfl

/-- A RELOAD that succeeds brings at least 8 bits. -/
theorem rem_ge_of_reload {s t : State} (h : reload s = .ok () t) : 8 ≤ t.rem := by
  have hpost := reload_post s
  rw [h] at hpost
  obtain ⟨hx, -, hnew, -⟩ := hpost
  rw [State.rem, hx.params]
  omega

/-- What is left of a residual after the register. -/
theorem seekCalc_residual_le (n : Nat) (s : State) : (seekCalc n s).residual ≤ n - s.rem := Nat.mod_le _ _

/-- A nested SEEK of less than a word, of a register with at least 8 bits: each RELOAD leaves 8 bits less to go. -/
theorem seekFuel_spends {fuel n : Nat} {s : State} (hn : n < s.params.w) (hrem : 8 ≤ s.rem) :
    (seekFuel fuel n s).Spends s (3 * (n / 8)) := by
  induction fuel generalizing n s with
  | zero => exact fail_spends s _
  | succ fuel ih =>
    unfold seekFuel
    split
    · exact ok_spends () rfl rfl rfl rfl
    · next hbeyond =>
      have hres := seekCalc_residual_le n s
      have hcost : 0 + (3 + 3 * ((seekCalc n s).residual / 8)) ≤ 3 * (n / 8) := by omega
      refine ((seekWhole_spends_of_lt hn).bind fun _ s1 hs1 => ?_).mono hcost
      split
      · exact ok_spends () rfl rfl rfl rfl
      · refine (reload_spends s1).bind fun _ s2 hs2 => ih ?_ (rem_ge_of_reload hs2)
        rw [(reload_spends s1).params_of_ok hs2, (seekWhole_spends _ s).params_of_ok hs1]
        exact seekCalc_residual_lt n s

/-- SEEK: one forward seek, and a RELOAD for each 8 bits of a word (R157). -/
theorem seek_spends (n : Nat) (s : State) : (seek n s).Spends s (1 + 3 * (1 + s.params.w / 8)) := by
  rcases Nat.lt_or_ge s.rem n with hn | hn
  · have hres := seekCalc_residual_lt n s
    have hcost : 1 + (3 + 3 * ((seekCalc n s).residual / 8)) ≤ 1 + 3 * (1 + s.params.w / 8) := by omega
    rw [seek_beyond hn]
    refine ((seekWhole_spends _ s).bind fun _ s1 hs1 => ?_).mono hcost
    split
    · exact ok_spends () rfl rfl rfl rfl
    · refine (reload_spends s1).bind fun _ s2 hs2 => seekFuel_spends ?_ (rem_ge_of_reload hs2)
      rwa [(reload_spends s1).params_of_ok hs2, (seekWhole_spends _ s).params_of_ok hs1]
  · rw [seek_within hn]
    exact ok_spends () rfl rfl rfl rfl

/-! Commands. -/

/-- The most transactions a command issues (70_reset_and_hazards.md R232). -/
def transactionLimit (p : Params) : Instr → Nat
  | .rdu _ => 12
  | .rds _ => 12
  | .skb _ => 1 + 3 * (1 + p.w / 8)
  | _ => 0

theorem transactionLimit_le (p : Params) (i : Instr) : transactionLimit p i ≤ 1 + 3 * (1 + p.w / 8) := by
  have hw := p.le_w
  cases i with
  | rdu | rds => change 12 ≤ _; omega
  | skb => exact Nat.le_refl _
  | pos | rsy | rsvd5 | rsvd6 | rsvd7 | srcRd | srcSk => exact Nat.zero_le _

/-- The command `i`, begun in `s` and ended by `r`, answers after at most `k` transactions, and it does answer where the
byte source has `k` answers left. -/
structure EndsWithin (i : Instr) (r : StepResult) (s : State) (k : Nat) : Prop where
  bounded   : ∀ t, r = .next t → ∃ (u : State) (st : Status) (d : Arg), s.Extends u k ∧ t = u.emit [answer i st d]
  completes : s.Supplied legalAnswers k → ∃ t, r = .next t

theorem State.Extends.endsWithin {s u : State} {k : Nat} (h : s.Extends u k) (i : Instr) (st : Status) (d : Arg) :
    EndsWithin i (.next (u.emit [answer i st d])) s k where
  bounded t ht := by cases ht; exact ⟨u, st, d, h, rfl⟩
  completes _ := ⟨_, rfl⟩

theorem finish_endsWithin {i : Instr} {r : Res Arg} {s : State} {k : Nat} (h : r.Spends s k) :
    EndsWithin i (finish i r) s k := by
  have hbounded := h.bounded
  cases r with
  | ok v u => exact State.Extends.endsWithin hbounded i .ok v
  | fail u => exact State.Extends.endsWithin hbounded i .fail 0
  | raised u => exact State.Extends.endsWithin hbounded i .fault 0
  | stop | refuse =>
    exact ⟨fun t ht => (nomatch ht), fun hs => (h.completes 0 (hs.mono (Nat.zero_add k).le)).elim⟩

theorem runCommand_endsWithin {i : Instr} {legal : Bool} {body : State → Res Arg} {s : State} {k : Nat}
    (h : (body s).Spends s k) : EndsWithin i (runCommand i legal body s) s k := by
  have hrefl := State.Extends.refl s k
  cases hf : s.fault with
  | true =>
    rw [runCommand_fault hf]
    exact hrefl.endsWithin i .fault 0
  | false =>
    cases legal with
    | false =>
      rw [runCommand_illegal hf]
      exact hrefl.endsWithin i .invalid 0
    | true =>
      rw [runCommand_legal hf]
      exact finish_endsWithin h

theorem rejectReserved_endsWithin (i : Instr) (s : State) : EndsWithin i (rejectReserved i s) s 0 := by
  rw [rejectReserved_eq]
  exact (State.Extends.refl s 0).endsWithin i _ 0

theorem exec_endsWithin {i : Instr} (hport : i.port = .command) (s : State) :
    EndsWithin i (exec i s) s (transactionLimit s.params i) := by
  cases i with
  | rdu n => exact runCommand_endsWithin (readBits_spends _ s)
  | rds n =>
    rw [exec_rds]
    exact runCommand_endsWithin ((readBits_spends _ s).map _)
  | skb n =>
    rw [exec_skb]
    exact runCommand_endsWithin ((seek_spends _ s).map _)
  | pos a => exact runCommand_endsWithin (ok_spends _ rfl rfl rfl rfl)
  | rsy p => exact ((State.Extends.refl s 0).upTo (u := resync p s) (Nat.le_refl 0) rfl rfl rfl).endsWithin _ .ok 0
  | rsvd5 | rsvd6 | rsvd7 => exact rejectReserved_endsWithin _ s
  | srcRd | srcSk => nomatch hport

theorem exec_command_completes {i : Instr} {s : State} (hport : i.port = .command)
    (h : s.Supplied legalAnswers (1 + 3 * (1 + s.params.w / 8))) : ∃ t, exec i s = .next t :=
  (exec_endsWithin hport s).completes (h.mono (transactionLimit_le s.params i))

/-! Lone requests. -/

theorem exec_srcRd_completes {max : Arg} {s : State} {b : List Byte} {src : ByteSource}
    (h : s.source.read max.toNat = some (b, src)) (hb : b.length ≤ max.toNat) : ∃ t, exec (.srcRd max) s = .next t := by
  rw [exec_srcRd, srcRead_of_read h hb]
  exact ⟨_, rfl⟩

theorem exec_srcSk_completes {off : Arg} {s : State} {accepted : Bool} {src : ByteSource}
    (h : s.source.seek off.toInt = some (accepted, src)) : ∃ t, exec (.srcSk off) s = .next t := by
  rw [exec_srcSk, srcSeek_of_seek h]
  exact ⟨_, rfl⟩

end Sys2Proof.Machine

namespace Sys2Proof

open Machine

/-- Settles O24: what each command spends, the nested SEEKs by induction on their bound. -/
theorem transactionsAreBounded : Obligations.TransactionsAreBounded := by
  intro i s t evs hport h htrace
  obtain ⟨u, st, d, hu, rfl⟩ := (exec_endsWithin hport s).bounded t h
  obtain ⟨ts, hts, hlen⟩ := hu.trace
  have hevs : evs = ts.map .transaction ++ [answer i st d] := by
    rw [emit_trace, hts, List.append_assoc] at htrace
    exact (List.append_cancel_left htrace).symm
  rw [hevs, transactionsOf_append_answer]
  exact hlen

/-- Settles O25: over the reference byte source every request is answered; a command stops only where the answers it
may spend are not left. -/
theorem everyWordCompletes : Obligations.EveryWordCompletes := by
  refine ⟨fun i s bytes c hs => ?_, fun i s reads seeks hport hwf hs hlegal hreads hseeks => ?_,
    fun max s b reads seeks hs hb => ?_, fun off s ok reads seeks hs => ?_⟩
  · cases hport : i.port with
    | command => exact exec_command_completes hport (supplied_of_mem hs)
    | source =>
      cases i with
      | srcRd m => exact exec_srcRd_completes (hs ▸ read_mem bytes c _) (List.length_take_le _ _)
      | srcSk o =>
        obtain ⟨accepted, c', hseek⟩ := seek_mem bytes c o.toInt
        exact exec_srcSk_completes (hs ▸ hseek)
      | _ => nomatch hport
  · exact exec_command_completes hport ((supplied_iff_of_scripted hs).2 ⟨hwf, hlegal, hreads, hseeks⟩)
  · exact exec_srcRd_completes (src := .scripted reads seeks) (by rw [hs]; rfl) hb
  · exact exec_srcSk_completes (accepted := ok) (src := .scripted reads seeks) (by rw [hs]; rfl)

end Sys2Proof
end

section

/-! What the outside does (70_reset_and_hazards.md R220, R223, R226; 20_memory.md R51). -/

namespace Sys2Proof.Machine

/-- Reset between commands makes the reset state of the parameters and of the byte source as it stands (R220). -/
theorem resetReader_eq_resetWith (s : State) : resetReader s = { State.resetWith s.params s.source with
    inbox := s.inbox, trace := s.trace, freeCount := s.freeCount } := rfl

/-- Reset during a command makes the reset state too, with what the command had issued by then (R223). -/
theorem resetMidCommand_eq_resetWith (ts : List Transaction) (src : ByteSource) (s : State) :
    resetMidCommand ts src s = { State.resetWith s.params src with
      inbox := s.inbox, trace := s.trace ++ ts.map .transaction, freeCount := s.freeCount } := rfl

end Sys2Proof.Machine

namespace Sys2Proof

open Machine

/-- Settles O51: a step for each input of the outside. -/
theorem outsideEvents : Obligations.OutsideEvents := by
  refine fun s rest => ⟨fun hin => ?_, fun cmd issued src hin => ?_, fun src hin => ?_⟩
  · rw [step_of_inbox_reset hin, resetReader_eq_resetWith]
    rfl
  · rw [step_of_inbox_resetDuring hin, resetMidCommand_eq_resetWith]
    rfl
  · rw [step_of_inbox_touchSource hin]
    rfl

end Sys2Proof
end
